-- ==== Sys2Proof/Word.lean ====
section
/-! DEFINITION. The word types of the block: bit vectors of the widths the spec fixes (rules R8, R10, R80, R82). -/

namespace Sys2Proof

/-- A command word: `op` in bits 71:64, `arg` in bits 63:0 (R80). -/
abbrev CmdWord := BitVec 72

/-- A response word: `st` in bits 71:64, `data` in bits 63:0 (R82). -/
abbrev RspWord := BitVec 72

/-- Eight bits: a character code, a key, message, digest or code byte (R10). -/
abbrev Byte := BitVec 8

/-- Four bits: one hex digit of GASPEC, never an ASCII character (R10). -/
abbrev Nibble := BitVec 4

/-- Sixty-four bits: a command argument, a response's data, an epoch, a counter (R80, R82, R28, R29). -/
abbrev Word64 := BitVec 64

/-- The 20-byte digest, its first byte in bits 159:152 (R31). -/
abbrev Digest := BitVec 160

end Sys2Proof
end

