-- ==== Sys2Proof/Config.lean ====
section
/-! DEFINITION. What an instance fixes (rule R8), the fixed constants (rule R7), and the free values of the
environment: what the two oracle ports answer when the state's own script of answers is used up. -/

namespace Sys2Proof

/-- The parameter `ODDKEY` (R8): what happens when the decoded key has an odd number of nibbles. -/
inductive OddKey where
  /-- 0: the key is sent as it is and `TRUNC` falls back to offset 0 when the collaborator reports `kerr` (R163, R189). -/
  | fallback
  /-- 1: `InvalidSecret` is raised instead (R164). -/
  | error
deriving DecidableEq, Repr, Inhabited

/-- The three parameters of an instance (R8), at the widths `CFG` gives them (R40). -/
structure Params where
  /-- `MAXCH`, 1 to 65535: the greatest number of characters of one secret. -/
  maxch : BitVec 16
  /-- `F`, 0 to 32: the number of fraction bits of an epoch. -/
  frac : BitVec 6
  /-- `ODDKEY`. -/
  oddKey : OddKey
deriving DecidableEq, Repr, Inhabited

/-- One answer of the wall-clock port: `ok`, and the time `t` in the epoch operand's format (R74, R147). -/
structure ClockSample where
  ok : Bool
  t  : Word64
deriving DecidableEq, Repr, Inhabited

/-- One reply of the HMAC collaborator: the digest and the key-alignment error (R74, R161). -/
structure HmacReply where
  digest : Digest
  kerr   : Bool
deriving DecidableEq, Repr, Inhabited

namespace Config

/-- The defaults of R8: `MAXCH = 128`, `F = 0`, `ODDKEY = FALLBACK`. -/
def defaults : Params := { maxch := 128#16, frac := 0#6, oddKey := .fallback }

/-- `STEP`, seconds per time step (R3, R7). -/
def step : Nat := 30

/-- `MOD`, the modulus of the decimal reducer (R7). -/
def modulus : Nat := 1000000

/-- `MASK31` (R7). -/
def mask31 : BitVec 32 := 0x7FFFFFFF#32

/-- FREE VALUE (assumption 3): what the wall clock answers at the draw numbered `n`. No body: nothing is known of it,
not even that time does not go backwards (R147, U12). -/
opaque clockSample : Nat → ClockSample

/-- FREE VALUE (assumption 4): what the HMAC port shows at the draw numbered `n`: `none`, the collaborator has not
replied yet, or its reply. No body: nothing is known of the digest, of `kerr`, or of whether a reply ever comes
(R161, R165, R166, U7, U10). -/
opaque hmacAnswer : Nat → Option HmacReply

/-- FREE VALUE (assumption 5): HMAC-SHA1 of a message under a key, out of the block's scope (R5) and left
uninterpreted (R162). No definition of the machine uses it; only the premise `Conforms` of Safety.lean does. -/
opaque hmacSha1 : List Byte → List Byte → Digest

end Config

/-- `KCAP = floor(5·MAXCH / 4)`, the number of cells of the key buffer (R8, R26). -/
def Params.kcap (p : Params) : Nat := 5 * p.maxch.toNat / 4

end Sys2Proof
end

