-- ==== Sys2Proof/Syntax.lean ====
section
/-! DEFINITION. The twelve commands of rule R85: one constructor per row of spec/opcode_table.json, each operand at
the width its format gives it (R81, R84). -/

namespace Sys2Proof

/-- A command that decodes (R85). -/
inductive Instr where
  /-- `NOP` (R200). -/
  | nop
  /-- `SRST` (R201). -/
  | srst
  /-- `ERCLR` (R202). -/
  | erclr
  /-- `RDREG n`, `n` a register number (R203). -/
  | rdreg (n : BitVec 8)
  /-- `B32CLR` (R110). -/
  | b32clr
  /-- `B32CH c`, `c` a character code (R115). -/
  | b32ch (c : Byte)
  /-- `B32END` (R117). -/
  | b32end
  /-- `KEYRD b`, `b` a block number (R118). -/
  | keyrd (b : BitVec 16)
  /-- `CTRSET e`, `e` an epoch (R141). -/
  | ctrset (e : Word64)
  /-- `CTRNOW` (R146). -/
  | ctrnow
  /-- `HMAC` (R160). -/
  | hmac
  /-- `TRUNC` (R180). -/
  | trunc
deriving DecidableEq, Repr

end Sys2Proof
end

