-- ==== Sys2Proof/WellFormed.lean ====
section
/-! DEFINITION. What is checked of a command and of an instance: the zero fields of the four formats (R81, R86) and the
ranges of the parameters (R8). -/

namespace Sys2Proof

/-- The four formats of R81. -/
inductive Format where
  | N | B | H | Q
deriving DecidableEq, Repr

/-- How many low bits of `arg` the format leaves to the operand; every bit above must be 0 (R81). -/
def Format.operandBits : Format → Nat
  | .N => 0
  | .B => 8
  | .H => 16
  | .Q => 64

/-- The fields the format marks *zero* are 0 in this argument (R81, R86). -/
def Format.fits (f : Format) (arg : Word64) : Bool := arg >>> f.operandBits == 0#64

/-- The format of a command (R81, R85). -/
def Instr.format : Instr → Format
  | .nop | .srst | .erclr | .b32clr | .b32end | .ctrnow | .hmac | .trunc => .N
  | .rdreg _ | .b32ch _ => .B
  | .keyrd _ => .H
  | .ctrset _ => .Q

/-- The argument field of a command: its operand, zero-extended (R84), or 0. -/
def Instr.arg : Instr → Word64
  | .nop | .srst | .erclr | .b32clr | .b32end | .ctrnow | .hmac | .trunc => 0#64
  | .rdreg n => n.setWidth 64
  | .b32ch c => c.setWidth 64
  | .keyrd b => b.setWidth 64
  | .ctrset e => e

/-- A command is well formed when its argument fits its format. The operand types have the formats' own widths, so every
`Instr` is well formed; what the check refuses is a raw argument with a bit set in a zero field. -/
def Instr.wellFormed (i : Instr) : Bool := i.format.fits i.arg

/-- The ranges of R8: `MAXCH` is 1 to 65535, `F` is 0 to 32. -/
def Params.wellFormed (p : Params) : Bool := p.maxch != 0#16 && decide (p.frac.toNat ≤ 32)

end Sys2Proof
end

