-- ==== Sys2Proof/Decode.lean ====
section
/-! DEFINITION. The decoder of command words, total by rule R86, and after it the encoder, from the same opcode map
(R80, R81, R85). -/

namespace Sys2Proof

/-- Why a command word is illegal (R86). -/
inductive DecodeError where
  /-- `op` is none of the twelve opcodes. -/
  | unusedOpcode
  /-- A field the format marks *zero* is not 0. -/
  | reservedField
deriving DecidableEq, Repr

/-- Bits 71:64 of a command word (R80). -/
def opField (w : CmdWord) : BitVec 8 := w.extractLsb' 64 8

/-- Bits 63:0 of a command word (R80). -/
def argField (w : CmdWord) : Word64 := w.extractLsb' 0 64

/-- A command of the given format, or the refusal of a non-zero reserved field (R86). -/
def withFormat (f : Format) (arg : Word64) (i : Instr) : Except DecodeError Instr :=
  if f.fits arg then .ok i else .error .reservedField

/-- The opcode map of R85. -/
def decode (w : CmdWord) : Except DecodeError Instr :=
  let arg := argField w
  match (opField w).toNat with
  | 0x00 => withFormat .N arg .nop
  | 0x01 => withFormat .N arg .srst
  | 0x02 => withFormat .N arg .erclr
  | 0x03 => withFormat .B arg (.rdreg (arg.setWidth 8))
  | 0x10 => withFormat .N arg .b32clr
  | 0x11 => withFormat .B arg (.b32ch (arg.setWidth 8))
  | 0x12 => withFormat .N arg .b32end
  | 0x13 => withFormat .H arg (.keyrd (arg.setWidth 16))
  | 0x20 => withFormat .Q arg (.ctrset arg)
  | 0x21 => withFormat .N arg .ctrnow
  | 0x30 => withFormat .N arg .hmac
  | 0x40 => withFormat .N arg .trunc
  | _ => .error .unusedOpcode

/-- The opcode of a command (R85). -/
def Instr.opcode : Instr → BitVec 8
  | .nop => 0x00#8
  | .srst => 0x01#8
  | .erclr => 0x02#8
  | .rdreg _ => 0x03#8
  | .b32clr => 0x10#8
  | .b32ch _ => 0x11#8
  | .b32end => 0x12#8
  | .keyrd _ => 0x13#8
  | .ctrset _ => 0x20#8
  | .ctrnow => 0x21#8
  | .hmac => 0x30#8
  | .trunc => 0x40#8

/-- The word of a command: `(op << 64) | operand` (R80, R88). -/
def encode (i : Instr) : CmdWord := i.opcode ++ i.arg

/-- The mask and match columns of R85's second table (spec/opcode_table.json), row by row. -/
def opcodeRows : List (CmdWord × CmdWord) :=
  [ (0xFFFFFFFFFFFFFFFFFF#72, 0x000000000000000000#72), (0xFFFFFFFFFFFFFFFFFF#72, 0x010000000000000000#72),
    (0xFFFFFFFFFFFFFFFFFF#72, 0x020000000000000000#72), (0xFFFFFFFFFFFFFFFF00#72, 0x030000000000000000#72),
    (0xFFFFFFFFFFFFFFFFFF#72, 0x100000000000000000#72), (0xFFFFFFFFFFFFFFFF00#72, 0x110000000000000000#72),
    (0xFFFFFFFFFFFFFFFFFF#72, 0x120000000000000000#72), (0xFFFFFFFFFFFFFF0000#72, 0x130000000000000000#72),
    (0xFF0000000000000000#72, 0x200000000000000000#72), (0xFFFFFFFFFFFFFFFFFF#72, 0x210000000000000000#72),
    (0xFFFFFFFFFFFFFFFFFF#72, 0x300000000000000000#72), (0xFFFFFFFFFFFFFFFFFF#72, 0x400000000000000000#72) ]

/-- A word is a command when it matches a row of the opcode table (R85): the decoder-independent form of R86. -/
def legalWord (w : CmdWord) : Bool := opcodeRows.any fun r => w &&& r.1 == r.2

/-- The instruction the decoder reads from the low `nbits` bits of `w`, every higher bit of the 72 being 0. A command is
one word (R80), so the table's bit numbers are the word's. -/
def decodeTableWord (nbits w : Nat) : Option Instr :=
  match decode (BitVec.ofNat 72 (w % 2 ^ nbits)) with
  | .ok i => some i
  | .error _ => none

end Sys2Proof
end

