-- ==== Sys2Proof/Machine/State.lean ====
section
/-! DEFINITION. The state of the block (spec/10_state.md), the four ports as plain data (rule R74), the reasons a step
can stop, and the state after reset (R43, R270). -/

namespace Sys2Proof.Machine

/-- What the host presents in one step (R74, R276); DESIGN CHOICE, assumptions 1 and 7. -/
inductive HostEvent where
  /-- A command word; it is held until the block takes it (R68). -/
  | command (w : CmdWord)
  /-- `rst` is asserted (R270, R271). -/
  | reset
  /-- Nothing in this step. -/
  | idle
deriving DecidableEq, Repr

/-- One request on the HMAC port (R74, R161): `klen`, the `klen` nibbles in index order, `msg`. -/
structure HmacRequest where
  klen : BitVec 17
  key  : List Nibble
  msg  : Word64
deriving DecidableEq, Repr

/-- A cell of the key buffer: its nibble index and its content (R26). The block's smallest indexed unit is 4 bits
(DESIGN CHOICE, assumption 9). -/
abbrev Cell := Nat × Nibble

/-- The key buffer: the non-zero cells, indices strictly rising; an unlisted cell holds 0 (R27 (c), R43). -/
abbrev Memory := List Cell

/-- The block's registers and the plain data of its ports. -/
structure State where
  /-- `CFG`: the parameters of this instance; no step changes them (R8, R40; assumption 2). -/
  cfg : Params
  /-- `KDONE` (R22). -/
  kdone : Bool
  /-- `ACCN` (R23). -/
  accn : BitVec 2
  /-- `ACCB` (R23). -/
  accb : BitVec 3
  /-- `NCH` (R24). -/
  nch : BitVec 16
  /-- `KLEN` (R25). -/
  klen : BitVec 17
  /-- `KBUF` (R26). -/
  kbuf : Memory
  /-- `EPOCH` (R28). -/
  epoch : Word64
  /-- `CTR` (R29). -/
  ctr : Word64
  /-- `CVALID` (R30). -/
  cvalid : Bool
  /-- `DIGEST` (R31). -/
  digest : Digest
  /-- `KERR` (R32). -/
  kerr : Bool
  /-- `DVALID` (R33). -/
  dvalid : Bool
  /-- `OFFSET` (R34). -/
  offset : BitVec 4
  /-- `P` (R35). -/
  p : BitVec 32
  /-- `CODE` (R36). -/
  code : BitVec 48
  /-- `OVALID` (R37). -/
  ovalid : Bool
  /-- `ER` (R39). -/
  er : BitVec 6
  /-- The `HMAC` command in progress: its request is sent and its reply has not come (R45 (b), R166; assumption 6). -/
  hmacWait : Bool
  /-- MODEL'S OWN: what the host presents, in order; empty means it presents nothing more (R74, assumption 1). -/
  host : List HostEvent
  /-- MODEL'S OWN: the next samples of the wall clock; past its end they are free (R147, assumption 3). -/
  clock : List ClockSample
  /-- MODEL'S OWN: what the HMAC port shows at the next looks, `none` being "no reply yet"; past its end it is free
  (R161, assumption 4). -/
  answers : List (Option HmacReply)
  /-- MODEL'S OWN: the number of the next free value (assumptions 3 and 4). -/
  draws : Nat
  /-- MODEL'S OWN: every request sent on the HMAC port, oldest first (R74, assumption 8). -/
  requests : List HmacRequest
  /-- MODEL'S OWN: every response word returned, oldest first (R14, R74, assumption 8). -/
  responses : List RspWord
deriving DecidableEq, Repr

/-- Why the machine stops with a fault. An error status is no fault: it is a response (R247, R261). -/
inductive Fault where
  /-- Raised by `B32CH` alone, when its append would write a cell of the key buffer at an index the instance does not
  have (`≥ KCAP`, R26, R60). R115 (e) shows that no run reaches such a state. Safe: the machine stops where the spec
  gives no cell to write (assumption 10). -/
  | keyCellAbsent
deriving DecidableEq, Repr

/-- Why the machine refuses an instruction. -/
inductive Refusal where
  /-- Raised by `exec`'s arm of an instruction that has no meaning yet; no arm does. Safe. -/
  | notModelled (mnemonic : String)
deriving DecidableEq, Repr

/-- The state of an instance right after reset, and before any host or oracle has done anything (R43, R270). -/
def State.resetOf (cfg : Params) : State :=
  { cfg := cfg, kdone := false, accn := 0#2, accb := 0#3, nch := 0#16, klen := 0#17, kbuf := [], epoch := 0#64,
    ctr := 0#64, cvalid := false, digest := 0#160, kerr := false, dvalid := false, offset := 0#4, p := 0#32,
    code := 0#48, ovalid := false, er := 0#6, hmacWait := false, host := [], clock := [], answers := [], draws := 0,
    requests := [], responses := [] }

/-- The reset state of the instance with the default parameters (R8, R43; assumption 2). -/
def State.reset : State := State.resetOf Config.defaults

end Sys2Proof.Machine
end

