-- ==== Sys2Proof/Machine/Flags.lean ====
section
/-! DEFINITION. The error causes with their status codes and sticky flags (R39, R240), and the read-only views `SR`,
`CFG`, `ACC` and the register numbers (R38, R40, R41). -/

namespace Sys2Proof.Machine

/-- The six error causes of R240. -/
inductive ErrorCause where
  | invalidCharacter
  | invalidSecret
  | clockError
  | keyOverflow
  | sequenceError
  | illegalCommand
deriving DecidableEq, Repr

/-- The status code of a cause (R240). -/
def ErrorCause.status : ErrorCause → BitVec 8
  | .invalidCharacter => 0x01#8
  | .invalidSecret => 0x02#8
  | .clockError => 0x03#8
  | .keyOverflow => 0x04#8
  | .sequenceError => 0x05#8
  | .illegalCommand => 0x06#8

/-- The sticky flag of a cause, as a mask of `ER`: `ECHR` bit 0, `ESEC` 1, `ECLK` 2, `EOVF` 3, `ESEQ` 4, `EILL` 5 (R39). -/
def ErrorCause.flag : ErrorCause → BitVec 6
  | .invalidCharacter => 0b000001#6
  | .invalidSecret => 0b000010#6
  | .clockError => 0b000100#6
  | .keyOverflow => 0b001000#6
  | .sequenceError => 0b010000#6
  | .illegalCommand => 0b100000#6

/-- The status of a command that raised nothing (R240). -/
def statusOk : BitVec 8 := 0x00#8

/-- The sticky flag of this cause is set. -/
def State.hasError (s : State) (c : ErrorCause) : Bool := s.er &&& c.flag != 0#6

/-- `ECHR`, `ESEC`, `EOVF`: the flags that belong to the secret being decoded (R39). -/
def secretFlags : BitVec 6 := 0b001011#6

/-- `ECLK`, `ESEQ`, `EILL`: the flags `ERCLR` clears (R39, R202). -/
def otherFlags : BitVec 6 := 0b110100#6

/-- `KODD`: the closed key has an odd number of nibbles (R38). -/
def State.kodd (s : State) : Bool := s.kdone && s.klen.getLsbD 0

/-- The status view `SR` (R38). -/
def State.sr (s : State) : BitVec 8 :=
  0#2 ++ BitVec.ofBool s.ovalid ++ BitVec.ofBool s.kerr ++ BitVec.ofBool s.dvalid ++ BitVec.ofBool s.cvalid
    ++ BitVec.ofBool s.kodd ++ BitVec.ofBool s.kdone

/-- The constant register `CFG` (R40). -/
def cfgWord (cfg : Params) : Word64 :=
  0#39 ++ BitVec.ofBool (cfg.oddKey == .error) ++ 0#2 ++ cfg.frac ++ cfg.maxch

/-- The view `ACC` of the residue (R41). -/
def State.acc (s : State) : BitVec 7 := s.accb ++ 0#2 ++ s.accn

/-- `REG[n]` zero-extended to 64 bits, or `none` for a reserved number (R41, R203). -/
def State.reg (s : State) (n : BitVec 8) : Option Word64 :=
  match n.toNat with
  | 0x00 => some (s.sr.setWidth 64)
  | 0x01 => some (s.er.setWidth 64)
  | 0x02 => some (cfgWord s.cfg)
  | 0x03 => some (s.nch.setWidth 64)
  | 0x04 => some (s.klen.setWidth 64)
  | 0x05 => some (s.acc.setWidth 64)
  | 0x06 => some s.epoch
  | 0x07 => some s.ctr
  | 0x08 => some (s.digest.extractLsb' 96 64)
  | 0x09 => some (s.digest.extractLsb' 32 64)
  | 0x0A => some ((s.digest.extractLsb' 0 32).setWidth 64)
  | 0x0B => some (s.offset.setWidth 64)
  | 0x0C => some (s.p.setWidth 64)
  | 0x0D => some (s.code.setWidth 64)
  | _ => none

end Sys2Proof.Machine
end

