-- ==== Sys2Proof/Machine/Operands.lean ====
section
/-! DEFINITION. What the three units compute, as functions of values: the Base32 lookup and repacker
(spec/40_base32_decoder.md), the divider and formatter (spec/41_counter_formatter.md), the four parts of the truncator
(spec/43_dynamic_truncator.md). -/

namespace Sys2Proof.Machine

/-- Case folding: 0x61 to 0x7A lose 0x20, every other code stands (R112). -/
def upcase (c : Byte) : Byte := if 0x61#8 ≤ c ∧ c ≤ 0x7A#8 then c - 0x20#8 else c

/-- The alphabet lookup `A2I` (R113): the index of a character code, or `none`. -/
def a2i (u : Byte) : Option (BitVec 5) :=
  if 0x41#8 ≤ u ∧ u ≤ 0x5A#8 then some ((u - 0x41#8).setWidth 5)
  else if 0x32#8 ≤ u ∧ u ≤ 0x37#8 then some ((u - 0x18#8).setWidth 5)
  else none

/-- `A2I(upcase(c))`: the index of a character, or `none` when the character is invalid (R114). -/
def charIndex (c : Byte) : Option (BitVec 5) := a2i (upcase c)

/-- The number `t` of R115 step 5: the residue followed by the new 5-bit group, `ACCN + 5` bits. -/
def groupBits (accb : BitVec 3) (v : BitVec 5) : BitVec 8 := accb.setWidth 8 <<< 5 ||| v.setWidth 8

/-- R115 step 5: the nibbles the new group completes, in the order of their cells. -/
def newNibbles (accn : BitVec 2) (accb : BitVec 3) (v : BitVec 5) : List Nibble :=
  let t := groupBits accb v
  let n := accn.toNat + 5
  if n < 8 then [t.extractLsb' (n - 4) 4] else [t.extractLsb' 4 4, t.extractLsb' 0 4]

/-- R115 step 5: the new `ACCN`, `n - 4` bits left over, or none when `n = 8`. -/
def newAccn (accn : BitVec 2) : BitVec 2 :=
  let n := accn.toNat + 5
  if n < 8 then BitVec.ofNat 2 (n - 4) else 0#2

/-- R115 step 5: the new `ACCB`, the `n - 4` low bits of `t`, or 0 when `n = 8`. -/
def newAccb (accn : BitVec 2) (accb : BitVec 3) (v : BitVec 5) : BitVec 3 :=
  let n := accn.toNat + 5
  if n < 8 then BitVec.ofNat 3 ((groupBits accb v).toNat % 2 ^ (n - 4)) else 0#3

/-- The bit string `S` of a list of 5-bit groups, each group most significant bit first (R64, R111). -/
def bitString (vs : List (BitVec 5)) : List Bool :=
  vs.flatMap fun v => [v.getLsbD 4, v.getLsbD 3, v.getLsbD 2, v.getLsbD 1, v.getLsbD 0]

/-- The nibble whose bits 3, 2, 1, 0 are the given ones. -/
def nibbleOf (b3 b2 b1 b0 : Bool) : Nibble :=
  BitVec.ofBool b3 ++ BitVec.ofBool b2 ++ BitVec.ofBool b1 ++ BitVec.ofBool b0

/-- A bit string re-sliced into nibbles; 1 to 3 bits left at the end belong to none (R111). -/
def nibblesOf : List Bool → List Nibble
  | a :: b :: c :: d :: rest => nibbleOf a b c d :: nibblesOf rest
  | _ => []

/-- The decoding function `HEX` of R111, on the indices of the characters. -/
def hexString (vs : List (BitVec 5)) : List Nibble := nibblesOf (bitString vs)

/-- A hex string read pairwise as bytes; an odd last nibble belongs to none (R10, R122). -/
def bytesOf : List Nibble → List Byte
  | h :: l :: rest => (h ++ l : Byte) :: bytesOf rest
  | _ => []

/-- The divider of R140: whole seconds, then the floor of a thirtieth; the exact quotient R150 asks of every method. -/
def counterOf (cfg : Params) (e : Word64) : Word64 := BitVec.ofNat 64 ((e >>> cfg.frac.toNat).toNat / Config.step)

/-- `MSGB[i] = CTR[63 - 8i : 56 - 8i]`, `i` 0 to 7 (R29, R142). -/
def msgByte (ctr : Word64) (i : Nat) : Byte := ctr.extractLsb' (56 - 8 * i) 8

/-- `MSGH[j] = CTR[63 - 4j : 60 - 4j]`, `j` 0 to 15 (R29, R142). -/
def msgDigit (ctr : Word64) (j : Nat) : Nibble := ctr.extractLsb' (60 - 4 * j) 4

/-- The message bytes `MSGB[0 .. 7]`, most significant first (R142). -/
def messageBytes (ctr : Word64) : List Byte := (List.range 8).map (msgByte ctr)

/-- `DB[i] = DIGEST[159 - 8i : 152 - 8i]`, `i` 0 to 19 (R31). -/
def digestByte (d : Digest) (i : Nat) : Byte := d.extractLsb' (152 - 8 * i) 8

/-- `DH[j] = DIGEST[159 - 4j : 156 - 4j]`, `j` 0 to 39 (R31). -/
def digestDigit (d : Digest) (j : Nat) : Nibble := d.extractLsb' (156 - 4 * j) 4

/-- The offset extractor (R181), with the fallback (R189). -/
def truncOffset (d : Digest) (kerr : Bool) : BitVec 4 := if kerr then 0#4 else d.extractLsb' 0 4

/-- The four bytes at the offset, as the register slice of R182: `DIGEST[159 - 8·off : 128 - 8·off]`. -/
def truncWindow (d : Digest) (off : BitVec 4) : BitVec 32 := d.extractLsb' (128 - 8 * off.toNat) 32

/-- The 31-bit mask (R183). -/
def truncMask (w : BitVec 32) : BitVec 32 := w &&& Config.mask31

/-- The decimal reducer (R184); the exact remainder R191 asks of every method, for all values of `p`. -/
def reduce (p : BitVec 32) : Nat := p.toNat % Config.modulus

/-- Digit `d_k` of the reduced value, `k` 0 to 5 from the left (R185, R191). -/
def decimalDigit (r k : Nat) : Nat := r / 10 ^ (5 - k) % 10

/-- Character `k` of the code, `0x30 + d_k` (R185). -/
def codeChar (r k : Nat) : Byte := 0x30#8 + BitVec.ofNat 8 (decimalDigit r k)

/-- The zero-padder: the six characters, the first in bits 47:40 (R36, R185). -/
def codeOf (r : Nat) : BitVec 48 :=
  codeChar r 0 ++ codeChar r 1 ++ codeChar r 2 ++ codeChar r 3 ++ codeChar r 4 ++ codeChar r 5

/-- Character `k` of a code register, `k` 0 to 5 from the left (R36, R224). -/
def codeByte (code : BitVec 48) (k : Nat) : Byte := code.extractLsb' (40 - 8 * k) 8

end Sys2Proof.Machine
end

