-- ==== Sys2Proof/Machine/Ops.lean ====
section
/-! DEFINITION. The named operations the commands are made of: the key buffer, responding, raising an error (R241), the
updates of each unit's registers, the ports, reset. -/

namespace Sys2Proof.Machine

/-! ### The key buffer (R26, R60 to R62) -/

/-- The content of cell `i`; an unlisted cell holds 0. -/
def Memory.read : Memory → Nat → Nibble
  | [], _ => 0#4
  | (a, x) :: rest, i => if a = i then x else Memory.read rest i

/-- Writes cell `i`, keeping the canonical form: writing 0 removes the cell's entry. -/
def Memory.write : Memory → Nat → Nibble → Memory
  | [], i, v => if v = 0#4 then [] else [(i, v)]
  | (a, x) :: rest, i, v =>
    if i < a then (if v = 0#4 then (a, x) :: rest else (i, v) :: (a, x) :: rest)
    else if i = a then (if v = 0#4 then rest else (i, v) :: rest)
    else (a, x) :: Memory.write rest i v

/-- Writes the nibbles to the cells from `i` on (`MemWrite`, R11). -/
def Memory.writeAll : Memory → Nat → List Nibble → Memory
  | m, _, [] => m
  | m, i, v :: rest => Memory.writeAll (Memory.write m i v) (i + 1) rest

/-- The canonical form: indices strictly rising, no listed cell holds 0. -/
def Memory.wf : Memory → Bool
  | [] => true
  | [(_, x)] => x != 0#4
  | (a, x) :: (b, y) :: rest => x != 0#4 && decide (a < b) && Memory.wf ((b, y) :: rest)

/-- Every listed cell has an index below `n`. -/
def Memory.below (m : Memory) (n : Nat) : Bool := m.all fun c => decide (c.1 < n)

/-- A read of the key buffer by a command: a cell at or beyond `KLEN` reads 0 (R62). -/
def State.keyNibble (s : State) (i : Nat) : Nibble := if i < s.klen.toNat then Memory.read s.kbuf i else 0#4

/-- `MemRead(i, n)`: the `n` nibbles from cell `i` on as one number, the first most significant (R11). -/
def State.memRead (s : State) (i n : Nat) : Nat :=
  (List.range n).foldl (fun acc k => 16 * acc + (s.keyNibble (i + k)).toNat) 0

/-- The key: the `KLEN` nibbles `KBUF[0 .. KLEN - 1]` in index order (R25, R161). -/
def State.key (s : State) : List Nibble := (List.range s.klen.toNat).map s.keyNibble

/-- `KBYTES`: the number of whole key bytes (R25). -/
def State.kbytes (s : State) : Nat := s.klen.toNat / 2

/-- The key bytes `KB[k]`, the nibbles `2k` and `2k + 1`; an odd last nibble belongs to none (R122). -/
def State.keyBytes (s : State) : List Byte := bytesOf s.key

/-! ### Responses and errors (R82, R240, R241) -/

/-- The response word of a status and its data (R82). -/
def rspWord (st : BitVec 8) (data : Word64) : RspWord := st ++ data

/-- `respond(st, data)`: the command ends and its response is returned (R11, R82). -/
def State.respond (s : State) (st : BitVec 8) (data : Word64) : State :=
  { s with responses := s.responses ++ [rspWord st data] }

/-- Sets the sticky flag of a cause (R39). -/
def State.setError (s : State) (c : ErrorCause) : State := { s with er := s.er ||| c.flag }

/-- `raise`: what taking an error does. The sticky flag is set and the response carries the cause's code; nothing is
saved, no mode changes and control goes nowhere, the block having no program counter (R241, R247). -/
def State.raise (s : State) (c : ErrorCause) (info : Word64) : State := (s.setError c).respond c.status info

/-! There is no return from an error and so no operation for it (R249): what clears the flags are `clearSecretFlags`,
`clearOtherFlags` and `zeroRegs` below. -/

/-- Clears `ECHR`, `ESEC`, `EOVF` (R110). -/
def State.clearSecretFlags (s : State) : State := { s with er := s.er &&& ~~~secretFlags }

/-- Clears `ECLK`, `ESEQ`, `EILL` (R202). -/
def State.clearOtherFlags (s : State) : State := { s with er := s.er &&& ~~~otherFlags }

/-! ### Unit B32 (R22 to R26) -/

/-- `DVALID <- 0; OVALID <- 0` (R42). -/
def State.dropDigest (s : State) : State := { s with dvalid := false, ovalid := false }

/-- An open and empty decoder (R110). -/
def State.emptyDecoder (s : State) : State :=
  { s with kdone := false, accn := 0#2, accb := 0#3, nch := 0#16, klen := 0#17, kbuf := [] }

/-- `KDONE <- 1; ACCN <- 0; ACCB <- 0`: the trailing bits are dropped (R117). -/
def State.closeDecoder (s : State) : State := { s with kdone := true, accn := 0#2, accb := 0#3 }

/-- `KBUF` and `KLEN` zeroed (R117). -/
def State.wipeKey (s : State) : State := { s with kbuf := [], klen := 0#17 }

/-- How many cells the next append writes (R115 (b)). -/
def State.appendCount (s : State) : Nat := if s.accn.toNat + 5 < 8 then 1 else 2

/-- The key buffer has the cells the next append writes (R26). -/
def State.hasRoom (s : State) : Bool := decide (s.klen.toNat + s.appendCount ≤ s.cfg.kcap)

/-- R115 step 5: the group `v` is appended to the bit string. -/
def State.append (s : State) (v : BitVec 5) : State :=
  { s with
    kbuf := Memory.writeAll s.kbuf s.klen.toNat (newNibbles s.accn s.accb v)
    klen := s.klen + BitVec.ofNat 17 (newNibbles s.accn s.accb v).length
    accb := newAccb s.accn s.accb v
    accn := newAccn s.accn
    nch := s.nch + 1#16 }

/-! ### Unit CTF (R28 to R30) -/

/-- `EPOCH <- e; CTR <- floor((e >> F) / 30); CVALID <- 1` (R141, R146). -/
def State.loadCounter (s : State) (e : Word64) : State :=
  { s with epoch := e, ctr := counterOf s.cfg e, cvalid := true }

/-- `CVALID <- 0` (R146). -/
def State.dropCounter (s : State) : State := { s with cvalid := false }

/-- The oracle `ClockAsk()` (R147): the sample of this draw. -/
def State.clockNow (s : State) : ClockSample :=
  match s.clock with
  | c :: _ => c
  | [] => Config.clockSample s.draws

/-- The draw of `ClockAsk()` is used up: exactly one sample (R146). -/
def State.clockTaken (s : State) : State :=
  match s.clock with
  | _ :: rest => { s with clock := rest }
  | [] => { s with draws := s.draws + 1 }

/-! ### The HMAC port (R161, R166) -/

/-- The request `HmacAsk(KLEN, KBUF[0 .. KLEN - 1], CTR)` (R161). -/
def State.hmacRequest (s : State) : HmacRequest := { klen := s.klen, key := s.key, msg := s.ctr }

/-- The request is sent; the command waits for its reply (R160 step 4, R166). -/
def State.sendRequest (s : State) : State :=
  { s with requests := s.requests ++ [s.hmacRequest], hmacWait := true }

/-- What the HMAC port shows at this look: no reply yet, or the reply. -/
def State.hmacShown (s : State) : Option HmacReply :=
  match s.answers with
  | a :: _ => a
  | [] => Config.hmacAnswer s.draws

/-- The look at the HMAC port is used up. -/
def State.answerTaken (s : State) : State :=
  match s.answers with
  | _ :: rest => { s with answers := rest }
  | [] => { s with draws := s.draws + 1 }

/-- The `HMAC` command no longer waits. -/
def State.waitOver (s : State) : State := { s with hmacWait := false }

/-- `DIGEST <- digest; KERR <- kerr; DVALID <- 1; OVALID <- 0` (R160 step 6). -/
def State.latchDigest (s : State) (r : HmacReply) : State :=
  { s with digest := r.digest, kerr := r.kerr, dvalid := true, ovalid := false }

/-- R160 steps 5 and 6: the reply has come and the command completes. -/
def State.takeReply (s : State) (r : HmacReply) : State :=
  if r.kerr = true ∧ s.cfg.oddKey = .error then s.waitOver.dropDigest.raise .invalidSecret 0#64
  else (s.waitOver.latchDigest r).respond statusOk ((BitVec.ofBool r.kerr).setWidth 64)

/-- One look at the HMAC port while the command waits: it completes when the reply is there, else nothing changes
(R166). -/
def State.pollHmac (s : State) : State :=
  match s.hmacShown with
  | some r => s.answerTaken.takeReply r
  | none => s.answerTaken

/-! ### Unit DTR (R34 to R37) -/

/-- R180 steps 2 and 3 of the registers. -/
def State.latchCode (s : State) : State :=
  { s with
    offset := truncOffset s.digest s.kerr
    p := truncMask (truncWindow s.digest (truncOffset s.digest s.kerr))
    code := codeOf (reduce (truncMask (truncWindow s.digest (truncOffset s.digest s.kerr))))
    ovalid := true }

/-! ### Reset and the command port (R43, R68, R270, R271) -/

/-- Every register of R43 is 0; `CFG` and the ports stand (R201). -/
def State.zeroRegs (s : State) : State :=
  { s with
    kdone := false, accn := 0#2, accb := 0#3, nch := 0#16, klen := 0#17, kbuf := [], epoch := 0#64, ctr := 0#64
    cvalid := false, digest := 0#160, kerr := false, dvalid := false, offset := 0#4, p := 0#32, code := 0#48
    ovalid := false, er := 0#6 }

/-- Reset by `rst`: the reset state; a command in progress is abandoned and returns no response (R270, R271). -/
def State.hardReset (s : State) : State := s.zeroRegs.waitOver

/-- What the host presented in this step is used up. -/
def State.popHost (s : State) : State := { s with host := s.host.tail }

/-- What a step finds at the command port. -/
inductive Fetched where
  /-- `rst` is asserted. -/
  | reset (s : State)
  /-- An `HMAC` command waits for its reply; no command is taken meanwhile (R68, R166). -/
  | waiting (s : State)
  /-- The host presents nothing. -/
  | idle (s : State)
  /-- A command word is taken (R68). -/
  | word (w : CmdWord) (s : State)

/-- The command port: reset comes before all else (R270, R271), a waiting `HMAC` before the next command (R68). -/
def State.fetch (s : State) : Fetched :=
  match s.host with
  | .reset :: _ => .reset s.popHost
  | .command w :: _ => if s.hmacWait then .waiting s else .word w s.popHost
  | .idle :: _ => if s.hmacWait then .waiting s.popHost else .idle s.popHost
  | [] => if s.hmacWait then .waiting s else .idle s

/-- An illegal command word: `ER.EILL <- 1`, response `(0x06, 0)`, no other state changes (R86, R246). -/
def State.takeIllegal (s : State) : State := s.raise .illegalCommand 0#64

/-- The state in which the command port shows `w` next and is free to take it. -/
def State.presentWord (s : State) (w : CmdWord) : State :=
  { s with host := .command w :: s.host, hmacWait := false }

end Sys2Proof.Machine
end

