-- ==== Sys2Proof/Machine/Base32.lean ====
section
/-! DEFINITION. Unit B32, the commands `B32CLR`, `B32CH`, `B32END`, `KEYRD` (spec/40_base32_decoder.md). -/

namespace Sys2Proof.Machine

/-- `B32CLR` (R110). DESIGN CHOICE, assumption 15: it keeps `EPOCH`, `CTR`, `DIGEST`, `KERR`, `OFFSET`, `P` and `CODE` as R110
says, so a sequence of R220 begun with it and run on past an error may end with old values there, although R226 says that
every register but three flags is then free of the past. -/
def execB32clr (s : State) : Host.Outcome State Fault Refusal :=
  .next (s.emptyDecoder.clearSecretFlags.dropDigest.respond statusOk 0#64)

/-- `B32CH c` (R115), its checks in the rule's order (R251). -/
def execB32ch (c : Byte) (s : State) : Host.Outcome State Fault Refusal :=
  if s.kdone then .next (s.raise .sequenceError 0#64)
  else
    match charIndex c with
    | none => .next (s.raise .invalidCharacter (c.setWidth 64))
    | some v =>
      if s.hasError .keyOverflow || s.nch == s.cfg.maxch then .next (s.raise .keyOverflow (c.setWidth 64))
      else if s.hasError .invalidCharacter then .next (s.respond statusOk (v.setWidth 64))
      else if s.hasRoom then .next ((s.append v).respond statusOk (v.setWidth 64))
      else .fault .keyCellAbsent

/-- The key just closed is no key: R117 step 3. -/
def State.keyUnusable (s : State) : Bool :=
  s.hasError .invalidCharacter || s.hasError .keyOverflow || s.klen == 0#17
    || (s.cfg.oddKey == .error && s.klen.getLsbD 0)

/-- `B32END` (R117). DESIGN CHOICE, assumption 14: repeated after `InvalidSecret` it finds the decoder closed and raises
`SequenceError` (R117 step 1, R245), although R249 says that a failed command, repeated, gives the same error. -/
def execB32end (s : State) : Host.Outcome State Fault Refusal :=
  if s.kdone then .next (s.raise .sequenceError 0#64)
  else if s.keyUnusable then .next (s.closeDecoder.wipeKey.raise .invalidSecret 0#64)
  else .next (s.closeDecoder.respond statusOk (s.klen.setWidth 64))

/-- `KEYRD b` (R118). -/
def execKeyrd (b : BitVec 16) (s : State) : Host.Outcome State Fault Refusal :=
  if s.kdone = false then .next (s.raise .sequenceError 0#64)
  else if s.hasError .invalidSecret then .next (s.respond ErrorCause.invalidSecret.status 0#64)
  else .next (s.respond statusOk (BitVec.ofNat 64 (s.memRead (16 * b.toNat) 16)))

end Sys2Proof.Machine
end

