-- ==== Sys2Proof/Machine/Counter.lean ====
section
/-! DEFINITION. Unit CTF, the commands `CTRSET` and `CTRNOW` (spec/41_counter_formatter.md). -/

namespace Sys2Proof.Machine

/-- The counter of epoch `e` is loaded, and the digest and code of any other counter dropped (R141). -/
def State.takeEpoch (s : State) (e : Word64) : State :=
  (s.loadCounter e).dropDigest.respond statusOk (counterOf s.cfg e)

/-- `CTRSET e` (R141). -/
def execCtrset (e : Word64) (s : State) : Host.Outcome State Fault Refusal := .next (s.takeEpoch e)

/-- `CTRNOW` (R146): with `ok = 1` it is `CTRSET t` in every respect. -/
def execCtrnow (s : State) : Host.Outcome State Fault Refusal :=
  .next (if s.clockNow.ok then s.clockTaken.takeEpoch s.clockNow.t
    else s.clockTaken.dropCounter.dropDigest.raise .clockError 0#64)

end Sys2Proof.Machine
end

