-- ==== Sys2Proof/Machine/HmacPort.lean ====
section
/-! DEFINITION. The HMAC port, the command `HMAC` (spec/42_hmac_port.md). -/

namespace Sys2Proof.Machine

/-- `HMAC` (R160), its checks in the rule's order. The request is sent and the port looked at; where the reply is not
there yet the command stays in progress (R166) and later steps look again (`State.pollHmac`). -/
def execHmac (s : State) : Host.Outcome State Fault Refusal :=
  if s.kdone = false then .next (s.raise .sequenceError 0#64)
  else if s.hasError .invalidSecret then .next (s.respond ErrorCause.invalidSecret.status 0#64)
  else if s.cvalid = false then .next (s.raise .sequenceError 0#64)
  else .next s.sendRequest.pollHmac

end Sys2Proof.Machine
end

