-- ==== Sys2Proof/Machine/System.lean ====
section
/-! DEFINITION. The system commands `NOP`, `SRST`, `ERCLR`, `RDREG` (spec/44_system_commands.md). -/

namespace Sys2Proof.Machine

/-- `NOP` (R200). -/
def execNop (s : State) : Host.Outcome State Fault Refusal := .next (s.respond statusOk 0#64)

/-- `SRST` (R201). -/
def execSrst (s : State) : Host.Outcome State Fault Refusal := .next (s.zeroRegs.respond statusOk 0#64)

/-- `ERCLR` (R202): the response carries `ER` as it was. -/
def execErclr (s : State) : Host.Outcome State Fault Refusal :=
  .next (s.clearOtherFlags.respond statusOk (s.er.setWidth 64))

/-- `RDREG n` (R203). -/
def execRdreg (n : BitVec 8) (s : State) : Host.Outcome State Fault Refusal :=
  match s.reg n with
  | some v => .next (s.respond statusOk v)
  | none => .next (s.raise .illegalCommand 0#64)

end Sys2Proof.Machine
end

