-- ==== Sys2Proof/Machine/Truncator.lean ====
section
/-! DEFINITION. Unit DTR, the command `TRUNC` (spec/43_dynamic_truncator.md). -/

namespace Sys2Proof.Machine

/-- `TRUNC` (R180). -/
def execTrunc (s : State) : Host.Outcome State Fault Refusal :=
  if s.dvalid = false then .next (s.raise .sequenceError 0#64)
  else .next (s.latchCode.respond statusOk (s.latchCode.code.setWidth 64))

end Sys2Proof.Machine
end

