-- ==== Sys2Proof/Machine/Dispatch.lean ====
section
/-! DEFINITION. One arm per command (R85). -/

namespace Sys2Proof.Machine

/-- What a decoded command does. -/
def exec (i : Instr) (s : State) : Host.Outcome State Fault Refusal :=
  match i with
  | .nop => Sys2Proof.Machine.execNop s
  | .srst => Sys2Proof.Machine.execSrst s
  | .erclr => Sys2Proof.Machine.execErclr s
  | .rdreg n => Sys2Proof.Machine.execRdreg n s
  | .b32clr => Sys2Proof.Machine.execB32clr s
  | .b32ch c => Sys2Proof.Machine.execB32ch c s
  | .b32end => Sys2Proof.Machine.execB32end s
  | .keyrd b => Sys2Proof.Machine.execKeyrd b s
  | .ctrset e => Sys2Proof.Machine.execCtrset e s
  | .ctrnow => Sys2Proof.Machine.execCtrnow s
  | .hmac => Sys2Proof.Machine.execHmac s
  | .trunc => Sys2Proof.Machine.execTrunc s

end Sys2Proof.Machine
end

