-- ==== Sys2Proof/Machine/Step.lean ====
section
/-! DEFINITION. One step of the block: reset, a look at the HMAC port, nothing, or one command to completion
(R68, R86, R166, R271). -/

namespace Sys2Proof.Machine

/-- One step. -/
def step (s : State) : Host.Outcome State Fault Refusal :=
  match s.fetch with
  | .reset s' => .next s'.hardReset
  | .waiting s' => .next s'.pollHmac
  | .idle s' => .next s'
  | .word w s' =>
    match decode w with
    | .ok i => exec i s'
    | .error _ => .next s'.takeIllegal

/-- The state whose next step takes the command word `w` (its low `nbits` bits, the bits above them 0). The block has no
program memory (R21): the host presents the words, so the word is put first in what the host presents. -/
def State.withFetchWord (s : State) (nbits w : Nat) : State := s.presentWord (BitVec.ofNat 72 (w % 2 ^ nbits))

end Sys2Proof.Machine
end

