-- ==== Sys2Proof/Machine/Realisation.lean ====
section
/-! DEFINITION. The realisations R150 and R191 allow for the divider and the decimal reducer, and R184's description of the
reducer by strings. No meaning uses them: the machine computes the results of R140, R184 and R185 directly
(`counterOf`, `reduce`, `decimalDigit`), and `Obligations.RealisationsAreExact` says that these are the same results. -/

namespace Sys2Proof.Machine

/-- The sequential restoring divider (R150, R191): from the quotient's bit `k - 1` down to bit 0, the divisor at that place
is subtracted where it fits. Quotient and remainder; also R191's repeated subtraction of `10^6·2^k`. -/
def restoringDivide (d : Nat) : Nat → Nat → Nat × Nat
  | 0, r => (0, r)
  | k + 1, r =>
    if d * 2 ^ k ≤ r then (2 ^ k + (restoringDivide d k (r - d * 2 ^ k)).1, (restoringDivide d k (r - d * 2 ^ k)).2)
    else restoringDivide d k r

/-- Division by 30 as a division by 2 and one by 15 (R150). -/
def divideByHalves (sec : Nat) : Nat := sec / 2 / 15

/-- Division by 30 as a multiplication by the rounded reciprocal `ceil(2^68 / 30)` (R150). -/
def divideByReciprocal (sec : Nat) : Nat := sec * 0x8888888888888889 / 2 ^ 68

/-- One shift of the double-dabble digits, the lowest first: a digit of 5 or more is raised by 3, then all shift left, `c`
coming in (R191). -/
def dabble : List Nat → Nat → List Nat
  | [], _ => []
  | x :: xs, c =>
    let t := 2 * (if 5 ≤ x then x + 3 else x) + c
    t % 16 :: dabble xs (t / 16)

/-- The ten decimal digits of a number of `bits` bits, the lowest first, by double-dabble from its top bit down (R191). -/
def doubleDabble (p : Nat) : Nat → List Nat
  | 0 => List.replicate 10 0
  | bits + 1 => dabble (doubleDabble (p / 2) bits) (p % 2)

/-- The digits of the decimal numeral of `n`, the lowest first and no leading zero, of at most `len` digits (R184). -/
def numeralDigits : Nat → Nat → List Nat
  | 0, _ => []
  | len + 1, n => n % 10 :: if n / 10 = 0 then [] else numeralDigits len (n / 10)

/-- R184's string form: the decimal numeral of `p`, padded on the left with zeros to at least six digits. -/
def paddedDigits (p : Nat) : List Nat :=
  let ds := numeralDigits 10 p
  ds ++ List.replicate (6 - ds.length) 0

/-- The last six characters of a numeral whose digits are given lowest first, as ASCII, left to right (R184, R185). -/
def lastSix (ds : List Nat) : List Byte := (ds.take 6).reverse.map fun x => 0x30#8 + BitVec.ofNat 8 x

end Sys2Proof.Machine
end

