-- ==== Sys2Proof/Machine/Sequence.lean ====
section
/-! DEFINITION. The pseudo-commands of rule R89, the sequences of rules R220 and R229 that realise GASPEC's `decode` and
`generate`, and the run of a list of commands. -/

namespace Sys2Proof.Machine

/-- The pseudo-commands (R89); a string is a list of 8-bit characters. -/
inductive Pseudo where
  | b32str (str : List Byte)
  | decode (str : List Byte)
  | gen (str : List Byte) (e : Word64)
  | genNow (str : List Byte)
deriving DecidableEq, Repr

/-- `B32STR "s"`: one `B32CH` for each character (R89). -/
def feedString (str : List Byte) : List Instr := str.map .b32ch

/-- Steps 0 to 5 of R220, with the command that starts the call (`SRST`, or `B32CLR` where the host wants to keep flags) and
the one that gives the epoch. -/
def callSequence (start : Instr) (str : List Byte) (counter : Instr) : List Instr :=
  start :: feedString str ++ [.b32end, counter, .hmac, .trunc]

/-- The expansion of a pseudo-command (R89). -/
def Pseudo.expand : Pseudo → List Instr
  | .b32str str => feedString str
  | .decode str => .b32clr :: feedString str ++ [.b32end]
  | .gen str e => callSequence .srst str (.ctrset e)
  | .genNow str => callSequence .srst str .ctrnow

/-- `KEYRD 0`, `KEYRD 1`, ... up to block `floor((KLEN - 1)/16)`: the whole key read back (R229). -/
def readKey (klen : BitVec 17) : List Instr :=
  if klen = 0#17 then [] else (List.range ((klen.toNat - 1) / 16 + 1)).map fun b => .keyrd (BitVec.ofNat 16 b)

/-- The commands executed in order (R68, R89); an error response does not stop the list, a fault or a refusal does. An
`HMAC` whose reply has not come leaves its state in progress: the host gives the next command only after the response,
so a statement about a list with an `HMAC` gives its reply, or compares two runs (assumption 11). -/
def execAll : List Instr → State → Host.Outcome State Fault Refusal
  | [], s => .next s
  | i :: rest, s =>
    match exec i s with
    | .next t => execAll rest t
    | .fault f => .fault f
    | .refused r => .refused r

/-- The commands as the words the host presents, one after the other (R68, R80). -/
def presentAll (is : List Instr) : List HostEvent := is.map fun i => .command (encode i)

end Sys2Proof.Machine
end

