-- ==== Sys2Proof/Safety.lean ====
section
/-! DEFINITION. What claims are stated in: the invariant of the machine (rules R27, R35, R37, R42, R144, R189), and the
premise on the HMAC collaborator (R162). -/

namespace Sys2Proof.Machine

/-- What holds at reset and after every step. -/
structure State.Inv (s : State) : Prop where
  /-- The key buffer is in its canonical form. -/
  kbufWf : Memory.wf s.kbuf = true
  /-- `KBUF[i] = 0` for every `i ≥ KLEN` (R27 (c)). -/
  kbufBelow : Memory.below s.kbuf s.klen.toNat = true
  /-- `ACCB < 2^ACCN` (R27 (c)). -/
  residue : s.accb.toNat < 2 ^ s.accn.toNat
  /-- `KLEN ≤ KCAP` (R27 (c)). -/
  klenLe : s.klen.toNat ≤ s.cfg.kcap
  /-- `NCH ≤ MAXCH` (R27 (c)). -/
  nchLe : s.nch.toNat ≤ s.cfg.maxch.toNat
  /-- While the decoder is open, `5·NCH = 4·KLEN + ACCN` (R27 (a)). -/
  openCount : s.kdone = false → 5 * s.nch.toNat = 4 * s.klen.toNat + s.accn.toNat
  /-- While the decoder is open no secret has been judged (R39, R117). -/
  openUnjudged : s.kdone = false → s.hasError .invalidSecret = false
  /-- A closed decoder has no residue (R27 (b)). -/
  closedResidue : s.kdone = true → s.accn = 0#2
  /-- A closed decoder holds the whole key of an unpoisoned secret, or none (R27 (b), R117). -/
  closedCount : s.kdone = true → s.klen = 0#17 ∨
    (s.klen.toNat = 5 * s.nch.toNat / 4 ∧ s.hasError .invalidCharacter = false ∧ s.hasError .keyOverflow = false)
  /-- A closed key that was not judged invalid is a key (R117 step 3). -/
  closedKey : s.kdone = true → s.hasError .invalidSecret = false →
    s.klen ≠ 0#17 ∧ (s.cfg.oddKey = .error → s.klen.getLsbD 0 = false)
  /-- `CTR ≤ floor((2^64 - 1) / 30)` (R144). -/
  counterBound : s.ctr.toNat ≤ (2 ^ 64 - 1) / 30
  /-- Bit 31 of `P` is 0 (R35). -/
  pMasked : s.p.getLsbD 31 = false
  /-- While `DVALID = 1` the key is closed and valid, the counter is valid, and the digest was asked for with the present
  key and the present counter (R42). -/
  digestCurrent : s.dvalid = true → s.kdone = true ∧ s.cvalid = true ∧ s.hasError .invalidSecret = false ∧
    s.requests.getLast? = some s.hmacRequest
  /-- While `OVALID = 1` the digest is valid and `OFFSET`, `P`, `CODE` were computed from it (R37). -/
  codeCurrent : s.ovalid = true → s.dvalid = true ∧ s.offset = truncOffset s.digest s.kerr ∧
    s.p = truncMask (truncWindow s.digest s.offset) ∧ s.code = codeOf (reduce s.p)
  /-- Under `ODDKEY = ERROR` a reply with `kerr` is never latched (R164, R189). -/
  kerrPolicy : s.cfg.oddKey = .error → s.kerr = false
  /-- A command in progress is an `HMAC` whose request is the last one sent (R160, R166). -/
  waitCurrent : s.hmacWait = true → s.kdone = true ∧ s.cvalid = true ∧ s.hasError .invalidSecret = false ∧
    s.requests.getLast? = some s.hmacRequest

/-- The collaborator's contract for one request and its reply (R162 (a), (b)), a premise on the environment: an even key
gives `kerr = 0` and the HMAC-SHA1 of the message under the key bytes, an odd key gives `kerr = 1` and any digest
(assumption 5). -/
def Conforms (q : HmacRequest) (r : HmacReply) : Prop :=
  if q.klen.getLsbD 0 then r.kerr = true
  else r.kerr = false ∧ r.digest = Config.hmacSha1 (bytesOf q.key) (messageBytes q.msg)

end Sys2Proof.Machine
end

