-- ==== Sys2Proof/Certificates/Slice0/Obligations.lean ====
section
/-! DEFINITION. The statements about the machine. A state's ports (`host`, `clock`, `answers`, `draws`) are arbitrary in
every statement, so what the environment answers is quantified over; no statement rests on a value of theirs at reset. -/

open Sys2Proof Sys2Proof.Machine

/-! ### Encoding -/

/-- Words written out from R85 and R88 decode to their commands; words of R86's illegal space are refused by name. -/
def Obligations.WordsOfTheSpecDecode : Prop :=
  decode 0x000000000000000000#72 = .ok .nop ∧
  decode 0x010000000000000000#72 = .ok .srst ∧
  decode 0x020000000000000000#72 = .ok .erclr ∧
  decode 0x03000000000000000D#72 = .ok (.rdreg 0x0D#8) ∧
  decode 0x100000000000000000#72 = .ok .b32clr ∧
  decode 0x11000000000000004D#72 = .ok (.b32ch 0x4D#8) ∧
  decode 0x120000000000000000#72 = .ok .b32end ∧
  decode 0x130000000000000001#72 = .ok (.keyrd 1#16) ∧
  decode 0x20000000000000003B#72 = .ok (.ctrset 59#64) ∧
  decode 0x210000000000000000#72 = .ok .ctrnow ∧
  decode 0x300000000000000000#72 = .ok .hmac ∧
  decode 0x400000000000000000#72 = .ok .trunc ∧
  decode 0x050000000000000000#72 = .error .unusedOpcode ∧
  decode 0x000000000000000001#72 = .error .reservedField ∧
  decode 0x11000000000000014D#72 = .error .reservedField ∧
  decode 0x130000000000010000#72 = .error .reservedField

/-- Decoding the word of any command, with every operand at every value, gives the command back. -/
def Obligations.DecodeOfEncode : Prop := ∀ i : Instr, i.wellFormed = true ∧ decode (encode i) = .ok i

/-- A word that decodes to a command is that command's word: no two words are one command. -/
def Obligations.EncodeOfDecode : Prop := ∀ (w : CmdWord) (i : Instr), decode w = .ok i → encode i = w

/-- The words that decode are exactly those that match a row of the opcode table, and no word matches two rows (R85). -/
def Obligations.DecoderAgreesWithTable : Prop :=
  (∀ w : CmdWord, (∃ i, decode w = .ok i) ↔ legalWord w = true) ∧
  (∀ w : CmdWord, (opcodeRows.filter fun r => w &&& r.1 == r.2).length ≤ 1)

/-- The decoder is total, its words are those of R81 and R85 with every zero field 0, no word but 0 is `NOP`, and an illegal
word sets `EILL`, answers `(0x06, 0)` and changes nothing else (R86). -/
def Obligations.IllegalWordsAreRefused : Prop :=
  (∀ w : CmdWord, (∃ i, decode w = .ok i) ↔
    (opField w ∈ [0x00#8, 0x01#8, 0x02#8, 0x10#8, 0x12#8, 0x21#8, 0x30#8, 0x40#8] ∧ argField w = 0#64) ∨
    (opField w ∈ [0x03#8, 0x11#8] ∧ argField w >>> 8 = 0#64) ∨
    (opField w = 0x13#8 ∧ argField w >>> 16 = 0#64) ∨
    opField w = 0x20#8) ∧
  (∀ w : CmdWord, decode w = .ok .nop ↔ w = 0#72) ∧
  (∀ (s : State) (w : CmdWord) (rest : List HostEvent), s.host = .command w :: rest → s.hmacWait = false →
    (∀ i, decode w ≠ .ok i) →
    step s = .next { s with
      host := rest, er := s.er ||| 0b100000#6, responses := s.responses ++ [rspWord 0x06#8 0#64] })

/-! ### The step -/

/-- A step takes the command word the host presents and runs the command it decodes to; around it the step only takes the
word from what the host presents (R68). -/
def Obligations.StepRunsDecodedCommand : Prop :=
  ∀ (s : State) (w : CmdWord) (rest : List HostEvent) (i : Instr), s.host = .command w :: rest → s.hmacWait = false →
    decode w = .ok i → step s = exec i { s with host := rest }

/-- A waiting `HMAC` (R160 steps 5 and 6, R166): a step takes no command word, at most the host's `idle`, and makes exactly one
look at the port. A look that finds the reply completes the command with its one response, the digest latched or, under
`ODDKEY = ERROR` with `kerr`, `InvalidSecret` raised. THE MODEL'S CHOICE (assumption 6): a look that finds no reply is a next
state with no register changed, where R166 lets a model have no such step. THE MODEL'S CHOICE (assumption 4): a look uses up
one scripted answer or, past the script, one draw. -/
def Obligations.WaitingHmacTakesNoCommand : Prop :=
  ∀ s : State, s.hmacWait = true → s.host.head? ≠ some .reset →
    let looked : State := { s with
      host := if s.host.head? = some .idle then s.host.tail else s.host
      answers := s.answers.tail, draws := if s.answers = [] then s.draws + 1 else s.draws }
    (s.hmacShown = none → step s = .next looked) ∧
    (∀ r, s.hmacShown = some r →
      if r.kerr = true ∧ s.cfg.oddKey = .error
      then step s = .next { looked with
        hmacWait := false, dvalid := false, ovalid := false
        er := s.er ||| 0b000010#6, responses := s.responses ++ [rspWord 0x02#8 0#64] }
      else step s = .next { looked with
        hmacWait := false, digest := r.digest, kerr := r.kerr, dvalid := true, ovalid := false
        responses := s.responses ++ [rspWord 0x00#8 ((BitVec.ofBool r.kerr).setWidth 64)] })

/-- However many looks at the port find no reply, and whatever command words the host presents, the `HMAC` command goes on
waiting: no response, no command taken, no state changed, no time-out (R166). THE MODEL'S CHOICE: the wait is a sequence of
steps (assumption 6), each a look at a scripted port (assumption 4). -/
def Obligations.HmacHasNoTimeOut : Prop :=
  ∀ (n : Nat) (s : State), s.hmacWait = true → .reset ∉ s.host → s.answers = List.replicate n none →
    ∃ (t : State) (k : Nat), core.run n s = .next t ∧ t = { s with answers := [], host := s.host.drop k } ∧
      ∀ e ∈ s.host.take k, e = .idle

/-- Reset, also of a waiting `HMAC`, gives the reset state of the instance and no response; a reply that comes later finds
nothing waiting and is ignored (R270, R271). THE MODEL'S CHOICES: reset is a host event that comes before all else
(assumption 7), the ports' own data stand (assumptions 7 and 8), and where the host presents nothing a step changes nothing
(assumption 1). -/
def Obligations.ResetTakesTheResetState : Prop :=
  (∀ (s : State) (rest : List HostEvent), s.host = .reset :: rest →
    ∃ t, step s = .next t ∧
      t = { State.resetOf s.cfg with
        host := rest, clock := s.clock, answers := s.answers, draws := s.draws
        requests := s.requests, responses := s.responses } ∧
      t.sr = 0x00#8) ∧
  (∀ s : State, s.hmacWait = false → s.host = [] → step s = .next s)

/-- Every command returns exactly one response, and its status is one of the seven of R240; only an `HMAC` whose reply has
not come returns none yet (R74, R82, R240). -/
def Obligations.OneResponsePerCommand : Prop :=
  ∀ (i : Instr) (s t : State), exec i s = .next t →
    (∃ w, t.responses = s.responses ++ [w] ∧ (w.extractLsb' 64 8).toNat ≤ 6) ∨
    (i = .hmac ∧ t.hmacWait = true ∧ t.responses = s.responses)

/-! ### System commands -/

/-- `NOP` changes nothing and responds `(0x00, 0)` (R200). -/
def Obligations.NopOnlyResponds : Prop :=
  ∀ s : State, exec .nop s = .next { s with responses := s.responses ++ [rspWord 0x00#8 0#64] }

/-- `SRST` gives the reset state of the instance; the ports stand (R201). -/
def Obligations.SrstGivesTheResetState : Prop :=
  ∀ s : State, exec .srst s = .next { State.resetOf s.cfg with
    hmacWait := s.hmacWait, host := s.host, clock := s.clock, answers := s.answers, draws := s.draws
    requests := s.requests, responses := s.responses ++ [rspWord 0x00#8 0#64] }

/-- `ERCLR` clears bits 2, 4 and 5 of `ER`, keeps bits 0, 1 and 3, and returns `ER` as it was (R202). -/
def Obligations.ErclrClearsItsFlags : Prop :=
  ∀ s : State, exec .erclr s = .next { s with
    er := s.er &&& 0b001011#6, responses := s.responses ++ [rspWord 0x00#8 (s.er.setWidth 64)] }

/-- `RDREG n` returns register `n` zero-extended, for each of the fourteen, and raises `IllegalCommand` for every other
number (R203). -/
def Obligations.RdregReturnsTheRegister : Prop :=
  ∀ s : State,
    let reads (n : BitVec 8) (v : Word64) : Prop :=
      exec (.rdreg n) s = .next { s with responses := s.responses ++ [rspWord 0x00#8 v] }
    reads 0x00#8 (s.sr.setWidth 64) ∧ reads 0x01#8 (s.er.setWidth 64) ∧ reads 0x02#8 (cfgWord s.cfg) ∧
    reads 0x03#8 (s.nch.setWidth 64) ∧ reads 0x04#8 (s.klen.setWidth 64) ∧ reads 0x05#8 (s.acc.setWidth 64) ∧
    reads 0x06#8 s.epoch ∧ reads 0x07#8 s.ctr ∧
    reads 0x08#8 (s.digest.extractLsb' 96 64) ∧ reads 0x09#8 (s.digest.extractLsb' 32 64) ∧
    reads 0x0A#8 ((s.digest.extractLsb' 0 32).setWidth 64) ∧
    reads 0x0B#8 (s.offset.setWidth 64) ∧ reads 0x0C#8 (s.p.setWidth 64) ∧ reads 0x0D#8 (s.code.setWidth 64) ∧
    ∀ n : BitVec 8, 0x0D < n.toNat → exec (.rdreg n) s = .next { s with
      er := s.er ||| 0b100000#6, responses := s.responses ++ [rspWord 0x06#8 0#64] }

/-- Each bit of `SR` is the copy or the function R38 gives. -/
def Obligations.StatusViewBits : Prop :=
  ∀ s : State,
    s.sr.getLsbD 0 = s.kdone ∧ s.sr.getLsbD 1 = (s.kdone && s.klen.getLsbD 0) ∧ s.sr.getLsbD 2 = s.cvalid ∧
    s.sr.getLsbD 3 = s.dvalid ∧ s.sr.getLsbD 4 = s.kerr ∧ s.sr.getLsbD 5 = s.ovalid ∧ s.sr.extractLsb' 6 2 = 0#2

/-- The fields of `CFG`, and that no step changes the parameters, not even reset (R40). -/
def Obligations.CfgIsConstant : Prop :=
  (∀ cfg : Params,
    (cfgWord cfg).extractLsb' 0 16 = cfg.maxch ∧ (cfgWord cfg).extractLsb' 16 6 = cfg.frac ∧
    (cfgWord cfg).extractLsb' 22 2 = 0#2 ∧ (cfgWord cfg).getLsbD 24 = decide (cfg.oddKey = .error) ∧
    (cfgWord cfg).extractLsb' 25 39 = 0#39) ∧
  (∀ s t : State, step s = .next t → t.cfg = s.cfg)

/-- The fields of the view `ACC` (R41). -/
def Obligations.ResidueViewFields : Prop :=
  ∀ s : State, s.acc.extractLsb' 0 2 = s.accn ∧ s.acc.extractLsb' 2 2 = 0#2 ∧ s.acc.extractLsb' 4 3 = s.accb

/-! ### Unit B32 -/

/-- `B32CLR` opens and empties the decoder, clears the secret's error flags and drops digest and code (R110). -/
def Obligations.B32clrStartsANewSecret : Prop :=
  ∀ s : State, exec .b32clr s = .next { s with
    kdone := false, accn := 0#2, accb := 0#3, nch := 0#16, klen := 0#17, kbuf := []
    er := s.er &&& 0b110100#6, dvalid := false, ovalid := false
    responses := s.responses ++ [rspWord 0x00#8 0#64] }

/-- Case folding, the alphabet, and the 58 valid codes (R112, R113, R114). -/
def Obligations.CharacterLookup : Prop :=
  (∀ c : Byte, upcase c = if 0x61 ≤ c.toNat ∧ c.toNat ≤ 0x7A then BitVec.ofNat 8 (c.toNat - 0x20) else c) ∧
  (∀ (u : Byte) (v : BitVec 5), a2i u = some v ↔
    ([0x41#8, 0x42#8, 0x43#8, 0x44#8, 0x45#8, 0x46#8, 0x47#8, 0x48#8, 0x49#8, 0x4A#8, 0x4B#8, 0x4C#8, 0x4D#8, 0x4E#8,
      0x4F#8, 0x50#8, 0x51#8, 0x52#8, 0x53#8, 0x54#8, 0x55#8, 0x56#8, 0x57#8, 0x58#8, 0x59#8, 0x5A#8, 0x32#8, 0x33#8,
      0x34#8, 0x35#8, 0x36#8, 0x37#8] : List Byte)[v.toNat]? = some u) ∧
  (∀ c : Byte, charIndex c ≠ none ↔
    (0x32 ≤ c.toNat ∧ c.toNat ≤ 0x37) ∨ (0x41 ≤ c.toNat ∧ c.toNat ≤ 0x5A) ∨ (0x61 ≤ c.toNat ∧ c.toNat ≤ 0x7A))

/-- `B32CH c`: the checks of R115 in their order, and step 5's append. The append's premise `Inv` is R115 (e)'s own ground:
under R27 the cells written exist. -/
def Obligations.B32chFollowsItsChecks : Prop :=
  ∀ (c : Byte) (s : State),
    (s.kdone = true → exec (.b32ch c) s = .next { s with
      er := s.er ||| 0b010000#6, responses := s.responses ++ [rspWord 0x05#8 0#64] }) ∧
    (s.kdone = false → charIndex c = none → exec (.b32ch c) s = .next { s with
      er := s.er ||| 0b000001#6, responses := s.responses ++ [rspWord 0x01#8 (c.setWidth 64)] }) ∧
    (∀ v, s.kdone = false → charIndex c = some v →
      ((s.er.getLsbD 3 = true ∨ s.nch = s.cfg.maxch) → exec (.b32ch c) s = .next { s with
        er := s.er ||| 0b001000#6, responses := s.responses ++ [rspWord 0x04#8 (c.setWidth 64)] }) ∧
      (s.er.getLsbD 3 = false → s.nch ≠ s.cfg.maxch → s.er.getLsbD 0 = true → exec (.b32ch c) s = .next { s with
        responses := s.responses ++ [rspWord 0x00#8 (v.setWidth 64)] }) ∧
      (s.er.getLsbD 3 = false → s.nch ≠ s.cfg.maxch → s.er.getLsbD 0 = false → s.Inv →
        let t : BitVec 8 := s.accb.setWidth 8 <<< 5 ||| v.setWidth 8
        (s.accn.toNat < 3 → exec (.b32ch c) s = .next { s with
          kbuf := Memory.write s.kbuf s.klen.toNat (t.extractLsb' (s.accn.toNat + 1) 4), klen := s.klen + 1#17
          accb := BitVec.ofNat 3 (t.toNat % 2 ^ (s.accn.toNat + 1)), accn := s.accn + 1#2, nch := s.nch + 1#16
          responses := s.responses ++ [rspWord 0x00#8 (v.setWidth 64)] }) ∧
        (s.accn = 3#2 → exec (.b32ch c) s = .next { s with
          kbuf := Memory.write (Memory.write s.kbuf s.klen.toNat (t.extractLsb' 4 4)) (s.klen.toNat + 1)
            (t.extractLsb' 0 4)
          klen := s.klen + 2#17, accb := 0#3, accn := 0#2, nch := s.nch + 1#16
          responses := s.responses ++ [rspWord 0x00#8 (v.setWidth 64)] })))

/-- A poisoned decoder appends nothing, stays poisoned under every command but `B32CLR` and `SRST`, and its `B32END` raises
`InvalidSecret` (R116). -/
def Obligations.PoisonedDecoderGivesNoKey : Prop :=
  ∀ s : State, (s.er.getLsbD 0 = true ∨ s.er.getLsbD 3 = true) →
    (∀ i t, i ≠ .b32clr → i ≠ .srst → exec i s = .next t → t.er.getLsbD 0 = true ∨ t.er.getLsbD 3 = true) ∧
    (s.kdone = false →
      (∀ c, ∃ t, exec (.b32ch c) s = .next t ∧ t = { s with er := t.er, responses := t.responses }) ∧
      exec .b32end s = .next { s with
        kdone := true, accn := 0#2, accb := 0#3, kbuf := [], klen := 0#17
        er := s.er ||| 0b000010#6, responses := s.responses ++ [rspWord 0x02#8 0#64] })

/-- `B32END`: the drop of the partial nibble and the judgement of the key (R117). -/
def Obligations.B32endJudgesTheKey : Prop :=
  ∀ s : State,
    (s.kdone = true → exec .b32end s = .next { s with
      er := s.er ||| 0b010000#6, responses := s.responses ++ [rspWord 0x05#8 0#64] }) ∧
    (s.kdone = false →
      if s.er.getLsbD 0 = true ∨ s.er.getLsbD 3 = true ∨ s.klen = 0#17 ∨
          (s.cfg.oddKey = .error ∧ s.klen.getLsbD 0 = true)
      then exec .b32end s = .next { s with
        kdone := true, accn := 0#2, accb := 0#3, kbuf := [], klen := 0#17
        er := s.er ||| 0b000010#6, responses := s.responses ++ [rspWord 0x02#8 0#64] }
      else exec .b32end s = .next { s with
        kdone := true, accn := 0#2, accb := 0#3, responses := s.responses ++ [rspWord 0x00#8 (s.klen.setWidth 64)] })

/-- `KEYRD b`: refused while the decoder is open, `InvalidSecret` repeated for an invalid key, else the sixteen nibbles of the
block, the first in bits 63:60, a cell at or beyond `KLEN` reading 0 (R62, R118). -/
def Obligations.KeyrdReturnsTheBlock : Prop :=
  ∀ (b : BitVec 16) (s : State),
    (s.kdone = false → exec (.keyrd b) s = .next { s with
      er := s.er ||| 0b010000#6, responses := s.responses ++ [rspWord 0x05#8 0#64] }) ∧
    (s.kdone = true → s.er.getLsbD 1 = true → exec (.keyrd b) s = .next { s with
      responses := s.responses ++ [rspWord 0x02#8 0#64] }) ∧
    (s.kdone = true → s.er.getLsbD 1 = false → ∃ data : Word64,
      exec (.keyrd b) s = .next { s with responses := s.responses ++ [rspWord 0x00#8 data] } ∧
      ∀ j, j < 16 → data.extractLsb' (60 - 4 * j) 4 =
        if 16 * b.toNat + j < s.klen.toNat then Memory.read s.kbuf (16 * b.toNat + j) else 0#4)

/-- The incremental decoder computes the decoding function `HEX`: from any state, `B32CLR`, the characters, `B32END` end with
`KLEN = floor(5n/4)` and `KBUF[j] = HEX(s)[j]`, every response 0x00 (R119). -/
def Obligations.DecodeSequenceComputesHex : Prop :=
  ∀ (s : State) (str : List Byte) (vs : List (BitVec 5)), str.map charIndex = vs.map some →
    1 ≤ str.length → str.length ≤ s.cfg.maxch.toNat →
    (s.cfg.oddKey = .fallback ∨ 5 * str.length / 4 % 2 = 0) →
    ∃ t rs, execAll (Pseudo.decode str).expand s = .next t ∧ t.klen.toNat = 5 * str.length / 4 ∧
      (∀ j, j < t.klen.toNat → (hexString vs)[j]? = some (Memory.read t.kbuf j)) ∧
      t.responses = s.responses ++ rs ∧ ∀ r ∈ rs, r.extractLsb' 64 8 = 0x00#8

/-- What `DECODE "s"` leaves in `KBUF` and `KLEN`, and its responses, depend on the string and on `MAXCH` and `ODDKEY` only
(R124). -/
def Obligations.DecodeSequenceIsPure : Prop :=
  ∀ (s s' : State) (str : List Byte), s.cfg.maxch = s'.cfg.maxch → s.cfg.oddKey = s'.cfg.oddKey →
    ∃ t t' rs, execAll (Pseudo.decode str).expand s = .next t ∧ execAll (Pseudo.decode str).expand s' = .next t' ∧
      t.kbuf = t'.kbuf ∧ t.klen = t'.klen ∧ t.responses = s.responses ++ rs ∧ t'.responses = s'.responses ++ rs

/-- Two strings that differ only in the case of ASCII letters leave the same registers behind (R228). -/
def Obligations.DecodeIgnoresCase : Prop :=
  ∀ (s t : State) (str str' : List Byte), str.map upcase = str'.map upcase →
    execAll (Pseudo.decode str).expand s = .next t →
    ∃ t', execAll (Pseudo.decode str').expand s = .next t' ∧ t' = { t with responses := t'.responses }

/-! ### Unit CTF -/

/-- `CTRSET e` (R141). -/
def Obligations.CtrsetLoadsTheCounter : Prop :=
  ∀ (e : Word64) (s : State),
    let c : Word64 := BitVec.ofNat 64 (e.toNat / 2 ^ s.cfg.frac.toNat / 30)
    exec (.ctrset e) s = .next { s with
      epoch := e, ctr := c, cvalid := true, dvalid := false, ovalid := false
      responses := s.responses ++ [rspWord 0x00#8 c] }

/-- The counter is the floor of the exact quotient, fits 60 bits, and is the same for all fractions of a second (R140,
R144, R148). -/
def Obligations.CounterIsTheFloor : Prop :=
  ∀ (cfg : Params) (e : Word64),
    30 * 2 ^ cfg.frac.toNat * (counterOf cfg e).toNat ≤ e.toNat ∧
    e.toNat < 30 * 2 ^ cfg.frac.toNat * ((counterOf cfg e).toNat + 1) ∧
    (counterOf cfg e).extractLsb' 60 4 = 0#4 ∧ (msgByte (counterOf cfg e) 0).toNat ≤ 0x08

/-- All thirty whole seconds of a step, with any fraction, give the step's counter, and the next second the next one
(R143, R148). -/
def Obligations.TimeStepsOfThirtySeconds : Prop :=
  ∀ (cfg : Params) (k j f : Nat), cfg.wellFormed = true → 30 * k + 29 < 2 ^ (64 - cfg.frac.toNat) →
    f < 2 ^ cfg.frac.toNat →
    (j < 30 → counterOf cfg (BitVec.ofNat 64 ((30 * k + j) * 2 ^ cfg.frac.toNat + f)) = BitVec.ofNat 64 k) ∧
    counterOf cfg (BitVec.ofNat 64 (30 * (k + 1) * 2 ^ cfg.frac.toNat)) = BitVec.ofNat 64 (k + 1)

/-- The message is always eight bytes, or sixteen hex digits, that read big-endian as the counter (R142). -/
def Obligations.MessageIsBigEndian : Prop :=
  ∀ ctr : Word64, (messageBytes ctr).length = 8 ∧
    (messageBytes ctr).foldl (fun n b => 256 * n + b.toNat) 0 = ctr.toNat ∧
    ((List.range 16).map (msgDigit ctr)).foldl (fun n d => 16 * n + d.toNat) 0 = ctr.toNat

/-- `CTRNOW`: one sample; with `ok = 1` it is `CTRSET t`, with `ok = 0` it raises `ClockError` and marks the counter invalid
(R146). -/
def Obligations.CtrnowTakesOneSample : Prop :=
  ∀ s : State,
    (∀ e rest, s.clock = ⟨true, e⟩ :: rest →
      let c : Word64 := BitVec.ofNat 64 (e.toNat / 2 ^ s.cfg.frac.toNat / 30)
      exec .ctrnow s = .next { s with
        clock := rest, epoch := e, ctr := c, cvalid := true, dvalid := false, ovalid := false
        responses := s.responses ++ [rspWord 0x00#8 c] }) ∧
    (∀ e rest, s.clock = ⟨false, e⟩ :: rest →
      exec .ctrnow s = .next { s with
        clock := rest, cvalid := false, dvalid := false, ovalid := false
        er := s.er ||| 0b000100#6, responses := s.responses ++ [rspWord 0x03#8 0#64] })

/-! ### The HMAC port -/

/-- `HMAC`: the refusals of R160 in their order, which send no request; else exactly one request with the key and the
counter, and the command completes with the reply (R160, R161). -/
def Obligations.HmacAsksOnceAndLatches : Prop :=
  ∀ s : State,
    let q : HmacRequest :=
      { klen := s.klen, key := (List.range s.klen.toNat).map fun i => Memory.read s.kbuf i, msg := s.ctr }
    ((s.kdone = false ∨ (s.er.getLsbD 1 = false ∧ s.cvalid = false)) → exec .hmac s = .next { s with
      er := s.er ||| 0b010000#6, responses := s.responses ++ [rspWord 0x05#8 0#64] }) ∧
    (s.kdone = true → s.er.getLsbD 1 = true → exec .hmac s = .next { s with
      responses := s.responses ++ [rspWord 0x02#8 0#64] }) ∧
    (s.kdone = true → s.er.getLsbD 1 = false → s.cvalid = true →
      (∀ r rest, s.answers = some r :: rest →
        if r.kerr = true ∧ s.cfg.oddKey = .error
        then exec .hmac s = .next { s with
          answers := rest, requests := s.requests ++ [q], hmacWait := false, dvalid := false, ovalid := false
          er := s.er ||| 0b000010#6, responses := s.responses ++ [rspWord 0x02#8 0#64] }
        else exec .hmac s = .next { s with
          answers := rest, requests := s.requests ++ [q], hmacWait := false, digest := r.digest, kerr := r.kerr
          dvalid := true, ovalid := false
          responses := s.responses ++ [rspWord 0x00#8 ((BitVec.ofBool r.kerr).setWidth 64)] }))

/-- THE MODEL'S CHOICE (assumptions 3, 4, 6): an `HMAC` that is shown no reply has sent its request and waits; where the
state's script of a port is used up, the port's answer is the free value of this draw, taken as a scripted one is. -/
def Obligations.PortsPastTheScript : Prop :=
  ∀ s : State,
    (s.clock = [] → ∃ t, exec .ctrnow { s with clock := [Config.clockSample s.draws] } = .next t ∧
      exec .ctrnow s = .next { t with draws := s.draws + 1 }) ∧
    (s.kdone = true → s.er.getLsbD 1 = false → s.cvalid = true →
      (∀ rest, s.answers = none :: rest → exec .hmac s = .next { s with
        answers := rest, requests := s.requests ++ [s.hmacRequest], hmacWait := true }) ∧
      (s.answers = [] → ∃ t, exec .hmac { s with answers := [Config.hmacAnswer s.draws] } = .next t ∧
        exec .hmac s = .next { t with draws := s.draws + 1 }))

/-! ### Unit DTR -/

/-- `TRUNC` (R180). -/
def Obligations.TruncComputesTheCode : Prop :=
  ∀ s : State,
    (s.dvalid = false → exec .trunc s = .next { s with
      er := s.er ||| 0b010000#6, responses := s.responses ++ [rspWord 0x05#8 0#64] }) ∧
    (s.dvalid = true →
      let o : BitVec 4 := if s.kerr = true then 0#4 else s.digest.extractLsb' 0 4
      let w : BitVec 32 := s.digest.extractLsb' (128 - 8 * o.toNat) 32
      let p : BitVec 32 := w &&& 0x7FFFFFFF#32
      let r : Nat := p.toNat % 1000000
      let d (k : Nat) : Byte := 0x30#8 + BitVec.ofNat 8 (r / 10 ^ (5 - k) % 10)
      let code : BitVec 48 := d 0 ++ d 1 ++ d 2 ++ d 3 ++ d 4 ++ d 5
      exec .trunc s = .next { s with
        offset := o, p := p, code := code, ovalid := true
        responses := s.responses ++ [rspWord 0x00#8 (code.setWidth 64)] })

/-- The six bytes of the code of a successful `TRUNC` are ASCII digits, and read as a decimal numeral they are
`P mod 1000000` (R184, R185, R186). -/
def Obligations.CodeIsSixDecimalDigits : Prop :=
  ∀ s t : State, s.dvalid = true → exec .trunc s = .next t →
    (∀ k, k < 6 → 0x30 ≤ (codeByte t.code k).toNat ∧ (codeByte t.code k).toNat ≤ 0x39) ∧
    (List.range 6).foldl (fun n k => 10 * n + ((codeByte t.code k).toNat - 0x30)) 0 = t.p.toNat % 1000000 ∧
    t.p.getLsbD 31 = false

/-- The 32 bits extracted are four bytes of the digest from the offset on, the first most significant, which are eight of its
hex digits, and never its last byte (R181, R182). -/
def Obligations.WindowIsFourDigestBytes : Prop :=
  ∀ (d : Digest) (off : BitVec 4), off.toNat + 3 < 19 ∧
    truncWindow d off = digestByte d off.toNat ++ digestByte d (off.toNat + 1) ++ digestByte d (off.toNat + 2)
      ++ digestByte d (off.toNat + 3) ∧
    truncWindow d off = d.extractLsb' (128 - 8 * off.toNat) 32 ∧
    ∀ j, j < 8 → (truncWindow d off).extractLsb' (28 - 4 * j) 4 = digestDigit d (2 * off.toNat + j)

/-! ### The generate sequence -/

/-- `GEN` as one function (R225): for a valid string of 1 to `MAXCH` characters with an even number of nibbles, `F = 0`, and a
collaborator whose reply keeps its contract, the code is the truncation of the HMAC-SHA1 of the counter under the decoded
key. The reply and the HMAC function are free: the premise names them, nothing is known of their values (assumption 5). The
list of commands is run by the model's `execAll` (assumption 11), the reply being there at the first look. -/
def Obligations.GenerateIsOneFunction : Prop :=
  ∀ (s : State) (str : List Byte) (vs : List (BitVec 5)) (e : Word64) (r : HmacReply) (rest : List (Option HmacReply)),
    str.map charIndex = vs.map some → 1 ≤ str.length → str.length ≤ s.cfg.maxch.toNat →
    5 * str.length / 4 % 2 = 0 → s.cfg.frac = 0#6 → s.answers = some r :: rest →
    let c : Word64 := BitVec.ofNat 64 (e.toNat / 30)
    let q : HmacRequest := { klen := BitVec.ofNat 17 (5 * str.length / 4), key := hexString vs, msg := c }
    Conforms q r →
    let dg : Digest := Config.hmacSha1 (bytesOf (hexString vs)) (messageBytes c)
    ∃ t, execAll (Pseudo.gen str e).expand s = .next t ∧ t.requests = s.requests ++ [q] ∧ t.ovalid = true ∧
      t.code = codeOf (reduce (truncMask (truncWindow dg (dg.extractLsb' 0 4)))) ∧
      t.responses.getLast? = some (rspWord 0x00#8 (t.code.setWidth 64))

/-- Whatever epochs of one 30-second step are given, whole or fractional, the call sends the same request and ends in the same
registers, responses and code, `EPOCH` apart (R227). -/
def Obligations.WindowGivesOneCode : Prop :=
  ∀ (s t : State) (str : List Byte) (k i j f f' : Nat), s.cfg.wellFormed = true →
    30 * k + 29 < 2 ^ (64 - s.cfg.frac.toNat) → i < 30 → j < 30 → f < 2 ^ s.cfg.frac.toNat → f' < 2 ^ s.cfg.frac.toNat →
    let e (a b : Nat) : Word64 := BitVec.ofNat 64 ((30 * k + a) * 2 ^ s.cfg.frac.toNat + b)
    execAll (Pseudo.gen str (e i f)).expand s = .next t →
    execAll (Pseudo.gen str (e j f')).expand s = .next { t with epoch := e j f' }

/-- A list of commands that begins with `SRST` forgets the state before it: from two states of one instance with the same
answers at the ports, the responses, the requests and the registers at the end are the same (R226). THE MODEL'S CHOICE
(assumption 11): the lists include those that `execAll` runs on past an `HMAC` whose reply has not come. -/
def Obligations.CallsAreIndependentOfThePast : Prop :=
  ∀ (is : List Instr) (s s' t : State), s.cfg = s'.cfg → s.clock = s'.clock → s.answers = s'.answers →
    s.draws = s'.draws → s.hmacWait = false → s'.hmacWait = false → execAll (.srst :: is) s = .next t →
    ∃ t' rs qs, execAll (.srst :: is) s' = .next t' ∧
      t.responses = s.responses ++ rs ∧ t'.responses = s'.responses ++ rs ∧
      t.requests = s.requests ++ qs ∧ t'.requests = s'.requests ++ qs ∧
      t' = { t with host := s'.host, requests := t'.requests, responses := t'.responses }

/-- No wrong code silently (R222): where `TRUNC` responds 0x00, the key is closed, not empty and never poisoned or judged
invalid, a counter is valid, and the last request asked for the present key and counter. -/
def Obligations.NoCodeFromABadSecret : Prop :=
  ∀ s t : State, s.Inv → exec .trunc s = .next t →
    (∃ data, t.responses.getLast? = some (rspWord 0x00#8 data)) →
    s.kdone = true ∧ s.cvalid = true ∧ s.klen ≠ 0#17 ∧ s.klen.toNat = 5 * s.nch.toNat / 4 ∧
    s.er.getLsbD 0 = false ∧ s.er.getLsbD 1 = false ∧ s.er.getLsbD 3 = false ∧
    s.requests.getLast? = some s.hmacRequest

/-! ### Errors and phase flags -/

/-- What `raise` does, for each of the six causes: the sticky flag of R39, the status code of R240, nothing else (R241). -/
def Obligations.RaiseSetsFlagAndResponds : Prop :=
  ∀ (s : State) (info : Word64),
    let raises (c : ErrorCause) (flag : BitVec 6) (st : BitVec 8) : Prop :=
      s.raise c info = { s with er := s.er ||| flag, responses := s.responses ++ [rspWord st info] }
    raises .invalidCharacter 0b000001#6 0x01#8 ∧ raises .invalidSecret 0b000010#6 0x02#8 ∧
    raises .clockError 0b000100#6 0x03#8 ∧ raises .keyOverflow 0b001000#6 0x04#8 ∧
    raises .sequenceError 0b010000#6 0x05#8 ∧ raises .illegalCommand 0b100000#6 0x06#8

/-- The commands that raise `SequenceError` and when, with `ER.ESEQ` the only state changed, and the seven that never do
(R245). -/
def Obligations.SequenceErrorsByPhase : Prop :=
  ∀ s : State,
    let refused (i : Instr) : Prop := exec i s = .next { s with
      er := s.er ||| 0b010000#6, responses := s.responses ++ [rspWord 0x05#8 0#64] }
    (s.kdone = true → (∀ c, refused (.b32ch c)) ∧ refused .b32end) ∧
    (s.kdone = false → (∀ b, refused (.keyrd b)) ∧ refused .hmac) ∧
    (s.kdone = true → s.er.getLsbD 1 = false → s.cvalid = false → refused .hmac) ∧
    (s.kdone = true → s.er.getLsbD 1 = true → exec .hmac s = .next { s with
      responses := s.responses ++ [rspWord 0x02#8 0#64] }) ∧
    (s.dvalid = false → refused .trunc) ∧
    (∀ (i : Instr) (t : State), (i ∈ [.nop, .srst, .erclr, .b32clr, .ctrnow] ∨ (∃ n, i = .rdreg n) ∨ ∃ e, i = .ctrset e) →
      exec i s = .next t → ∃ w, t.responses = s.responses ++ [w] ∧ w.extractLsb' 64 8 ≠ 0x05#8)

/-- A flag of `ER` is set only by the commands R39 names for it and cleared only by those that own it. -/
def Obligations.ErrorFlagsHaveOwners : Prop :=
  ∀ (i : Instr) (s t : State), exec i s = .next t →
    let mayChange : BitVec 6 := match i with
      | .nop | .ctrset _ => 0b000000#6
      | .srst => 0b111111#6
      | .erclr => 0b110100#6
      | .rdreg _ => 0b100000#6
      | .b32clr => 0b001011#6
      | .b32ch _ => 0b011001#6
      | .b32end | .hmac => 0b010010#6
      | .keyrd _ | .trunc => 0b010000#6
      | .ctrnow => 0b000100#6
    t.er &&& ~~~mayChange = s.er &&& ~~~mayChange ∧
    (i ≠ .srst → i ≠ .b32clr → s.er &&& 0b001011#6 &&& ~~~t.er = 0#6) ∧
    (i ≠ .srst → i ≠ .erclr → s.er &&& 0b110100#6 &&& ~~~t.er = 0#6)

/-- The table of R42: what each command does to the four phase flags. -/
def Obligations.PhaseFlagTable : Prop :=
  (∀ (i : Instr) (s t : State), exec i s = .next t →
    match i with
    | .b32clr => t.kdone = false ∧ t.cvalid = s.cvalid ∧ t.dvalid = false ∧ t.ovalid = false
    | .b32end => t.kdone = true ∧ t.cvalid = s.cvalid ∧ t.dvalid = s.dvalid ∧ t.ovalid = s.ovalid
    | .b32ch _ | .keyrd _ | .rdreg _ | .nop | .erclr =>
      t.kdone = s.kdone ∧ t.cvalid = s.cvalid ∧ t.dvalid = s.dvalid ∧ t.ovalid = s.ovalid
    | .ctrset _ => t.kdone = s.kdone ∧ t.cvalid = true ∧ t.dvalid = false ∧ t.ovalid = false
    | .ctrnow => t.kdone = s.kdone ∧ t.cvalid = s.clockNow.ok ∧ t.dvalid = false ∧ t.ovalid = false
    | .hmac => t.kdone = s.kdone ∧ t.cvalid = s.cvalid ∧
      ((s.kdone = false ∨ s.er.getLsbD 1 = true ∨ s.cvalid = false) → t.dvalid = s.dvalid ∧ t.ovalid = s.ovalid) ∧
      ∀ r, s.kdone = true → s.er.getLsbD 1 = false → s.cvalid = true → s.hmacShown = some r →
        t.ovalid = false ∧ t.dvalid = !(r.kerr && decide (s.cfg.oddKey = .error))
    | .trunc => t.kdone = s.kdone ∧ t.cvalid = s.cvalid ∧ t.dvalid = s.dvalid ∧ t.ovalid = (s.dvalid || s.ovalid)
    | .srst => t.kdone = false ∧ t.cvalid = false ∧ t.dvalid = false ∧ t.ovalid = false) ∧
  (∀ (s t : State) (w : CmdWord) (rest : List HostEvent), s.host = .command w :: rest → s.hmacWait = false →
    (∀ i, decode w ≠ .ok i) → step s = .next t →
    t.kdone = s.kdone ∧ t.cvalid = s.cvalid ∧ t.dvalid = s.dvalid ∧ t.ovalid = s.ovalid) ∧
  (∀ (s t : State) (rest : List HostEvent), s.host = .reset :: rest → step s = .next t →
    t.kdone = false ∧ t.cvalid = false ∧ t.dvalid = false ∧ t.ovalid = false)

/-! ### Reset and the invariant -/

/-- After reset and after `SRST` every register is 0, whatever the instance and the state before; `CFG` keeps its value
(R43). -/
def Obligations.ResetRegistersAreZero : Prop :=
  ∀ (cfg : Params) (t : State),
    (t = State.resetOf cfg ∨ (∃ s rest, s.cfg = cfg ∧ s.host = .reset :: rest ∧ step s = .next t) ∨
      ∃ s, s.cfg = cfg ∧ exec .srst s = .next t) →
    t.kdone = false ∧ t.accn = 0#2 ∧ t.accb = 0#3 ∧ t.nch = 0#16 ∧ t.klen = 0#17 ∧ (∀ i, Memory.read t.kbuf i = 0#4) ∧
    t.epoch = 0#64 ∧ t.ctr = 0#64 ∧ t.cvalid = false ∧ t.digest = 0#160 ∧ t.kerr = false ∧ t.dvalid = false ∧
    t.offset = 0#4 ∧ t.p = 0#32 ∧ t.code = 0#48 ∧ t.ovalid = false ∧ t.er = 0#6 ∧ t.cfg = cfg

/-- The invariant holds at the reset state of every instance. -/
def Obligations.InvariantAtReset : Prop := ∀ cfg : Params, (State.resetOf cfg).Inv

/-- Every step keeps the invariant, whatever the host and the oracles do (R27, R35, R37, R42, R144, R189). -/
def Obligations.StepKeepsTheInvariant : Prop := ∀ s t : State, s.Inv → step s = .next t → t.Inv

/-- From every state that meets the invariant a step answers a next state: no fault, no refusal. THE MODEL'S CHOICES: a step in
which an `HMAC` waits unanswered is a next state (assumption 6), so is one in which the host presents nothing (assumption 1),
and the fault that the invariant shuts out is an append beyond the key buffer (assumption 10, R115 (e)). -/
def Obligations.InvariantStepNeverStops : Prop := ∀ s : State, s.Inv → ∃ t, step s = .next t

/-- The lengths of a good key (R27 (d), (e)): `floor(KLEN/2) = floor(5·NCH/8)`, and `KLEN` is odd exactly when `NCH mod 8` is
1, 3, 4 or 6. -/
def Obligations.OddKeyLengths : Prop :=
  ∀ s : State, s.Inv → s.kdone = true → s.er.getLsbD 1 = false →
    s.klen.toNat / 2 = 5 * s.nch.toNat / 8 ∧
    (s.klen.getLsbD 0 = true ↔ s.nch.toNat % 8 ∈ [1, 3, 4, 6])

/-! ### Frames -/

/-- `NOP`, `ERCLR`, `RDREG` and `KEYRD` change nothing but `ER` and the responses; `NOP` keeps `ER` too (R66). -/
def Obligations.ReadingCommandsFrame : Prop :=
  ∀ (i : Instr) (s t : State), (i = .nop ∨ i = .erclr ∨ (∃ n, i = .rdreg n) ∨ ∃ b, i = .keyrd b) →
    exec i s = .next t →
    t = { s with er := t.er, responses := t.responses } ∧ (i = .nop → t.er = s.er) ∧
    ∀ a, Memory.read t.kbuf a = Memory.read s.kbuf a

/-- `B32CLR`, `B32CH` and `B32END` change only the decoder, `ER`, and, `B32CLR` alone, `DVALID` and `OVALID`. `B32CH` writes
only the cells from `KLEN` on that its new nibbles take; `B32END` writes no cell unless it judges the key unusable (R61,
R66). -/
def Obligations.DecoderCommandsFrame : Prop :=
  (∀ s t : State, exec .b32clr s = .next t → t = { s with
    kdone := t.kdone, accn := t.accn, accb := t.accb, nch := t.nch, klen := t.klen, kbuf := t.kbuf, er := t.er
    dvalid := t.dvalid, ovalid := t.ovalid, responses := t.responses }) ∧
  (∀ (c : Byte) (s t : State), exec (.b32ch c) s = .next t →
    t = { s with
      accn := t.accn, accb := t.accb, nch := t.nch, klen := t.klen, kbuf := t.kbuf, er := t.er
      responses := t.responses } ∧
    (∀ v, charIndex c = some v → ∀ a, a < s.klen.toNat ∨ s.klen.toNat + (newNibbles s.accn s.accb v).length ≤ a →
      Memory.read t.kbuf a = Memory.read s.kbuf a) ∧
    (charIndex c = none → ∀ a, Memory.read t.kbuf a = Memory.read s.kbuf a)) ∧
  (∀ s t : State, exec .b32end s = .next t →
    t = { s with
      kdone := t.kdone, accn := t.accn, accb := t.accb, klen := t.klen, kbuf := t.kbuf, er := t.er
      responses := t.responses } ∧
    ((s.kdone = true ∨ s.keyUnusable = false) → t.klen = s.klen ∧ ∀ a, Memory.read t.kbuf a = Memory.read s.kbuf a))

/-- `CTRSET` and `CTRNOW` change only `EPOCH`, `CTR`, `CVALID`, `DVALID`, `OVALID` and, `CTRNOW` alone, `ER` and the clock port's
script (R66). -/
def Obligations.CounterCommandsFrame : Prop :=
  (∀ (e : Word64) (s t : State), exec (.ctrset e) s = .next t →
    t = { s with
      epoch := t.epoch, ctr := t.ctr, cvalid := t.cvalid, dvalid := t.dvalid, ovalid := t.ovalid
      responses := t.responses } ∧
    ∀ a, Memory.read t.kbuf a = Memory.read s.kbuf a) ∧
  (∀ s t : State, exec .ctrnow s = .next t →
    t = { s with
      epoch := t.epoch, ctr := t.ctr, cvalid := t.cvalid, dvalid := t.dvalid, ovalid := t.ovalid, er := t.er
      clock := t.clock, draws := t.draws, responses := t.responses } ∧
    (∀ a, Memory.read t.kbuf a = Memory.read s.kbuf a) ∧
    (s.clockNow.ok = false → t.epoch = s.epoch ∧ t.ctr = s.ctr))

/-- `HMAC` changes only `DIGEST`, `KERR`, `DVALID`, `OVALID`, `ER` and the HMAC port's data; a refused `HMAC` sends no request;
`TRUNC` changes only `OFFSET`, `P`, `CODE`, `OVALID` and `ER` (R66). -/
def Obligations.DigestCommandsFrame : Prop :=
  (∀ s t : State, exec .hmac s = .next t →
    t = { s with
      digest := t.digest, kerr := t.kerr, dvalid := t.dvalid, ovalid := t.ovalid, er := t.er, hmacWait := t.hmacWait
      answers := t.answers, draws := t.draws, requests := t.requests, responses := t.responses } ∧
    (∀ a, Memory.read t.kbuf a = Memory.read s.kbuf a) ∧
    ((s.kdone = false ∨ s.er.getLsbD 1 = true ∨ s.cvalid = false) →
      t = { s with er := t.er, responses := t.responses })) ∧
  (∀ s t : State, exec .trunc s = .next t →
    t = { s with
      offset := t.offset, p := t.p, code := t.code, ovalid := t.ovalid, er := t.er, responses := t.responses } ∧
    (∀ a, Memory.read t.kbuf a = Memory.read s.kbuf a) ∧
    (s.dvalid = false → t = { s with er := t.er, responses := t.responses }))

/-! ### Repeated errors, realisations -/

/-- Repeating a command that answered an error gives the same response and changes nothing more (R249), `CTRNOW` apart, whose
outcome follows the clock. THE MODEL'S CHOICE (assumption 14): R249 and R117 disagree on a `B32END` repeated after
`InvalidSecret`, which finds the decoder closed; the model follows R117 step 1 and R245, so it raises `SequenceError`. -/
def Obligations.RepeatedErrorIsTheSame : Prop :=
  ∀ (i : Instr) (s t : State) (st : BitVec 8) (data : Word64), i ≠ .ctrnow → exec i s = .next t →
    t.responses = s.responses ++ [rspWord st data] → st ≠ 0x00#8 →
    if i = .b32end ∧ st = 0x02#8
    then exec i t = .next { t with
      er := t.er ||| 0b010000#6, responses := t.responses ++ [rspWord 0x05#8 0#64] }
    else exec i t = .next { t with responses := t.responses ++ [rspWord st data] }

/-- The methods R150 and R191 name give the results of R140, R184 and R185: the restoring divider, the division by 2 and 15 and
the reciprocal for all 64-bit epochs; repeated subtraction, double-dabble, and R184's last six characters of the padded
decimal string for all `2^31` values of `P`. -/
def Obligations.RealisationsAreExact : Prop :=
  (∀ (cfg : Params) (e : Word64),
    let sec := (e >>> cfg.frac.toNat).toNat
    (restoringDivide 30 60 sec).1 = (counterOf cfg e).toNat ∧ divideByHalves sec = (counterOf cfg e).toNat ∧
    divideByReciprocal sec = (counterOf cfg e).toNat) ∧
  (∀ p : BitVec 32, p.getLsbD 31 = false →
    let code := (List.range 6).map (codeByte (codeOf (reduce p)))
    (restoringDivide 1000000 12 p.toNat).2 = reduce p ∧ lastSix (doubleDabble p.toNat 31) = code ∧
    lastSix (paddedDigits p.toNat) = code)

/-! ### Calls begun with `B32CLR` -/

/-- A call begun with `B32CLR` (R220 step 0, R226): from two states of one instance with the same answers at the ports, the
responses, the requests and every register the call wrote are the same; of `ER` the flags of the secret are. THE MODEL'S
CHOICE (assumption 15): where the call gets no counter, `EPOCH` and `CTR` stay as they were (R146), and where it gets no code,
`DIGEST`, `KERR`, `OFFSET`, `P` and `CODE` do (R110, R160, R180), although R226 excepts only `ECLK`, `ESEQ` and `EILL`. The
list is run by `execAll`, past an error and past an `HMAC` whose reply has not come (assumption 11). -/
def Obligations.CallsBegunWithB32clr : Prop :=
  ∀ (s s' t : State) (str : List Byte) (counter : Instr), s.cfg = s'.cfg → s.clock = s'.clock → s.answers = s'.answers →
    s.draws = s'.draws → s.hmacWait = false → s'.hmacWait = false → (counter = .ctrnow ∨ ∃ e, counter = .ctrset e) →
    execAll (callSequence .b32clr str counter) s = .next t →
    ∃ t' rs qs, execAll (callSequence .b32clr str counter) s' = .next t' ∧
      t.responses = s.responses ++ rs ∧ t'.responses = s'.responses ++ rs ∧
      t.requests = s.requests ++ qs ∧ t'.requests = s'.requests ++ qs ∧
      t' = { t with
        host := s'.host, er := t'.er, epoch := t'.epoch, ctr := t'.ctr, digest := t'.digest, kerr := t'.kerr
        offset := t'.offset, p := t'.p, code := t'.code, requests := t'.requests, responses := t'.responses } ∧
      t'.er &&& 0b001011#6 = t.er &&& 0b001011#6 ∧
      (if t.cvalid = true then t'.epoch = t.epoch ∧ t'.ctr = t.ctr
        else (t.epoch = s.epoch ∧ t.ctr = s.ctr) ∧ t'.epoch = s'.epoch ∧ t'.ctr = s'.ctr) ∧
      (if t.ovalid = true
        then t'.digest = t.digest ∧ t'.kerr = t.kerr ∧ t'.offset = t.offset ∧ t'.p = t.p ∧ t'.code = t.code
        else (t.digest = s.digest ∧ t.kerr = s.kerr ∧ t.offset = s.offset ∧ t.p = s.p ∧ t.code = s.code) ∧
          t'.digest = s'.digest ∧ t'.kerr = s'.kerr ∧ t'.offset = s'.offset ∧ t'.p = s'.p ∧ t'.code = s'.code)
end

