-- ==== Sys2Proof/Laws/State.lean ====
section
/-! SUPPORT. One lemma per field per update, each true by `rfl`: no later proof unfolds a record update. -/

namespace Sys2Proof.Machine


/-! ### `State.respond` -/

@[simp] theorem State.respond_cfg (s : State) (st : BitVec 8) (data : Word64) : (s.respond st data).cfg = s.cfg := rfl
@[simp] theorem State.respond_kdone (s : State) (st : BitVec 8) (data : Word64) : (s.respond st data).kdone = s.kdone := rfl
@[simp] theorem State.respond_accn (s : State) (st : BitVec 8) (data : Word64) : (s.respond st data).accn = s.accn := rfl
@[simp] theorem State.respond_accb (s : State) (st : BitVec 8) (data : Word64) : (s.respond st data).accb = s.accb := rfl
@[simp] theorem State.respond_nch (s : State) (st : BitVec 8) (data : Word64) : (s.respond st data).nch = s.nch := rfl
@[simp] theorem State.respond_klen (s : State) (st : BitVec 8) (data : Word64) : (s.respond st data).klen = s.klen := rfl
@[simp] theorem State.respond_kbuf (s : State) (st : BitVec 8) (data : Word64) : (s.respond st data).kbuf = s.kbuf := rfl
@[simp] theorem State.respond_epoch (s : State) (st : BitVec 8) (data : Word64) : (s.respond st data).epoch = s.epoch := rfl
@[simp] theorem State.respond_ctr (s : State) (st : BitVec 8) (data : Word64) : (s.respond st data).ctr = s.ctr := rfl
@[simp] theorem State.respond_cvalid (s : State) (st : BitVec 8) (data : Word64) : (s.respond st data).cvalid = s.cvalid := rfl
@[simp] theorem State.respond_digest (s : State) (st : BitVec 8) (data : Word64) : (s.respond st data).digest = s.digest := rfl
@[simp] theorem State.respond_kerr (s : State) (st : BitVec 8) (data : Word64) : (s.respond st data).kerr = s.kerr := rfl
@[simp] theorem State.respond_dvalid (s : State) (st : BitVec 8) (data : Word64) : (s.respond st data).dvalid = s.dvalid := rfl
@[simp] theorem State.respond_offset (s : State) (st : BitVec 8) (data : Word64) : (s.respond st data).offset = s.offset := rfl
@[simp] theorem State.respond_p (s : State) (st : BitVec 8) (data : Word64) : (s.respond st data).p = s.p := rfl
@[simp] theorem State.respond_code (s : State) (st : BitVec 8) (data : Word64) : (s.respond st data).code = s.code := rfl
@[simp] theorem State.respond_ovalid (s : State) (st : BitVec 8) (data : Word64) : (s.respond st data).ovalid = s.ovalid := rfl
@[simp] theorem State.respond_er (s : State) (st : BitVec 8) (data : Word64) : (s.respond st data).er = s.er := rfl
@[simp] theorem State.respond_hmacWait (s : State) (st : BitVec 8) (data : Word64) : (s.respond st data).hmacWait = s.hmacWait := rfl
@[simp] theorem State.respond_host (s : State) (st : BitVec 8) (data : Word64) : (s.respond st data).host = s.host := rfl
@[simp] theorem State.respond_clock (s : State) (st : BitVec 8) (data : Word64) : (s.respond st data).clock = s.clock := rfl
@[simp] theorem State.respond_answers (s : State) (st : BitVec 8) (data : Word64) : (s.respond st data).answers = s.answers := rfl
@[simp] theorem State.respond_draws (s : State) (st : BitVec 8) (data : Word64) : (s.respond st data).draws = s.draws := rfl
@[simp] theorem State.respond_requests (s : State) (st : BitVec 8) (data : Word64) : (s.respond st data).requests = s.requests := rfl
@[simp] theorem State.respond_responses (s : State) (st : BitVec 8) (data : Word64) : (s.respond st data).responses = s.responses ++ [rspWord st data] := rfl

/-! ### `State.setError` -/

@[simp] theorem State.setError_cfg (s : State) (c : ErrorCause) : (s.setError c).cfg = s.cfg := rfl
@[simp] theorem State.setError_kdone (s : State) (c : ErrorCause) : (s.setError c).kdone = s.kdone := rfl
@[simp] theorem State.setError_accn (s : State) (c : ErrorCause) : (s.setError c).accn = s.accn := rfl
@[simp] theorem State.setError_accb (s : State) (c : ErrorCause) : (s.setError c).accb = s.accb := rfl
@[simp] theorem State.setError_nch (s : State) (c : ErrorCause) : (s.setError c).nch = s.nch := rfl
@[simp] theorem State.setError_klen (s : State) (c : ErrorCause) : (s.setError c).klen = s.klen := rfl
@[simp] theorem State.setError_kbuf (s : State) (c : ErrorCause) : (s.setError c).kbuf = s.kbuf := rfl
@[simp] theorem State.setError_epoch (s : State) (c : ErrorCause) : (s.setError c).epoch = s.epoch := rfl
@[simp] theorem State.setError_ctr (s : State) (c : ErrorCause) : (s.setError c).ctr = s.ctr := rfl
@[simp] theorem State.setError_cvalid (s : State) (c : ErrorCause) : (s.setError c).cvalid = s.cvalid := rfl
@[simp] theorem State.setError_digest (s : State) (c : ErrorCause) : (s.setError c).digest = s.digest := rfl
@[simp] theorem State.setError_kerr (s : State) (c : ErrorCause) : (s.setError c).kerr = s.kerr := rfl
@[simp] theorem State.setError_dvalid (s : State) (c : ErrorCause) : (s.setError c).dvalid = s.dvalid := rfl
@[simp] theorem State.setError_offset (s : State) (c : ErrorCause) : (s.setError c).offset = s.offset := rfl
@[simp] theorem State.setError_p (s : State) (c : ErrorCause) : (s.setError c).p = s.p := rfl
@[simp] theorem State.setError_code (s : State) (c : ErrorCause) : (s.setError c).code = s.code := rfl
@[simp] theorem State.setError_ovalid (s : State) (c : ErrorCause) : (s.setError c).ovalid = s.ovalid := rfl
@[simp] theorem State.setError_er (s : State) (c : ErrorCause) : (s.setError c).er = s.er ||| c.flag := rfl
@[simp] theorem State.setError_hmacWait (s : State) (c : ErrorCause) : (s.setError c).hmacWait = s.hmacWait := rfl
@[simp] theorem State.setError_host (s : State) (c : ErrorCause) : (s.setError c).host = s.host := rfl
@[simp] theorem State.setError_clock (s : State) (c : ErrorCause) : (s.setError c).clock = s.clock := rfl
@[simp] theorem State.setError_answers (s : State) (c : ErrorCause) : (s.setError c).answers = s.answers := rfl
@[simp] theorem State.setError_draws (s : State) (c : ErrorCause) : (s.setError c).draws = s.draws := rfl
@[simp] theorem State.setError_requests (s : State) (c : ErrorCause) : (s.setError c).requests = s.requests := rfl
@[simp] theorem State.setError_responses (s : State) (c : ErrorCause) : (s.setError c).responses = s.responses := rfl

/-! ### `State.raise` -/

@[simp] theorem State.raise_cfg (s : State) (c : ErrorCause) (info : Word64) : (s.raise c info).cfg = s.cfg := rfl
@[simp] theorem State.raise_kdone (s : State) (c : ErrorCause) (info : Word64) : (s.raise c info).kdone = s.kdone := rfl
@[simp] theorem State.raise_accn (s : State) (c : ErrorCause) (info : Word64) : (s.raise c info).accn = s.accn := rfl
@[simp] theorem State.raise_accb (s : State) (c : ErrorCause) (info : Word64) : (s.raise c info).accb = s.accb := rfl
@[simp] theorem State.raise_nch (s : State) (c : ErrorCause) (info : Word64) : (s.raise c info).nch = s.nch := rfl
@[simp] theorem State.raise_klen (s : State) (c : ErrorCause) (info : Word64) : (s.raise c info).klen = s.klen := rfl
@[simp] theorem State.raise_kbuf (s : State) (c : ErrorCause) (info : Word64) : (s.raise c info).kbuf = s.kbuf := rfl
@[simp] theorem State.raise_epoch (s : State) (c : ErrorCause) (info : Word64) : (s.raise c info).epoch = s.epoch := rfl
@[simp] theorem State.raise_ctr (s : State) (c : ErrorCause) (info : Word64) : (s.raise c info).ctr = s.ctr := rfl
@[simp] theorem State.raise_cvalid (s : State) (c : ErrorCause) (info : Word64) : (s.raise c info).cvalid = s.cvalid := rfl
@[simp] theorem State.raise_digest (s : State) (c : ErrorCause) (info : Word64) : (s.raise c info).digest = s.digest := rfl
@[simp] theorem State.raise_kerr (s : State) (c : ErrorCause) (info : Word64) : (s.raise c info).kerr = s.kerr := rfl
@[simp] theorem State.raise_dvalid (s : State) (c : ErrorCause) (info : Word64) : (s.raise c info).dvalid = s.dvalid := rfl
@[simp] theorem State.raise_offset (s : State) (c : ErrorCause) (info : Word64) : (s.raise c info).offset = s.offset := rfl
@[simp] theorem State.raise_p (s : State) (c : ErrorCause) (info : Word64) : (s.raise c info).p = s.p := rfl
@[simp] theorem State.raise_code (s : State) (c : ErrorCause) (info : Word64) : (s.raise c info).code = s.code := rfl
@[simp] theorem State.raise_ovalid (s : State) (c : ErrorCause) (info : Word64) : (s.raise c info).ovalid = s.ovalid := rfl
@[simp] theorem State.raise_er (s : State) (c : ErrorCause) (info : Word64) : (s.raise c info).er = s.er ||| c.flag := rfl
@[simp] theorem State.raise_hmacWait (s : State) (c : ErrorCause) (info : Word64) : (s.raise c info).hmacWait = s.hmacWait := rfl
@[simp] theorem State.raise_host (s : State) (c : ErrorCause) (info : Word64) : (s.raise c info).host = s.host := rfl
@[simp] theorem State.raise_clock (s : State) (c : ErrorCause) (info : Word64) : (s.raise c info).clock = s.clock := rfl
@[simp] theorem State.raise_answers (s : State) (c : ErrorCause) (info : Word64) : (s.raise c info).answers = s.answers := rfl
@[simp] theorem State.raise_draws (s : State) (c : ErrorCause) (info : Word64) : (s.raise c info).draws = s.draws := rfl
@[simp] theorem State.raise_requests (s : State) (c : ErrorCause) (info : Word64) : (s.raise c info).requests = s.requests := rfl
@[simp] theorem State.raise_responses (s : State) (c : ErrorCause) (info : Word64) : (s.raise c info).responses = s.responses ++ [rspWord c.status info] := rfl

/-! ### `State.takeIllegal` -/

@[simp] theorem State.takeIllegal_cfg (s : State) : (s.takeIllegal).cfg = s.cfg := rfl
@[simp] theorem State.takeIllegal_kdone (s : State) : (s.takeIllegal).kdone = s.kdone := rfl
@[simp] theorem State.takeIllegal_accn (s : State) : (s.takeIllegal).accn = s.accn := rfl
@[simp] theorem State.takeIllegal_accb (s : State) : (s.takeIllegal).accb = s.accb := rfl
@[simp] theorem State.takeIllegal_nch (s : State) : (s.takeIllegal).nch = s.nch := rfl
@[simp] theorem State.takeIllegal_klen (s : State) : (s.takeIllegal).klen = s.klen := rfl
@[simp] theorem State.takeIllegal_kbuf (s : State) : (s.takeIllegal).kbuf = s.kbuf := rfl
@[simp] theorem State.takeIllegal_epoch (s : State) : (s.takeIllegal).epoch = s.epoch := rfl
@[simp] theorem State.takeIllegal_ctr (s : State) : (s.takeIllegal).ctr = s.ctr := rfl
@[simp] theorem State.takeIllegal_cvalid (s : State) : (s.takeIllegal).cvalid = s.cvalid := rfl
@[simp] theorem State.takeIllegal_digest (s : State) : (s.takeIllegal).digest = s.digest := rfl
@[simp] theorem State.takeIllegal_kerr (s : State) : (s.takeIllegal).kerr = s.kerr := rfl
@[simp] theorem State.takeIllegal_dvalid (s : State) : (s.takeIllegal).dvalid = s.dvalid := rfl
@[simp] theorem State.takeIllegal_offset (s : State) : (s.takeIllegal).offset = s.offset := rfl
@[simp] theorem State.takeIllegal_p (s : State) : (s.takeIllegal).p = s.p := rfl
@[simp] theorem State.takeIllegal_code (s : State) : (s.takeIllegal).code = s.code := rfl
@[simp] theorem State.takeIllegal_ovalid (s : State) : (s.takeIllegal).ovalid = s.ovalid := rfl
@[simp] theorem State.takeIllegal_er (s : State) : (s.takeIllegal).er = s.er ||| ErrorCause.illegalCommand.flag := rfl
@[simp] theorem State.takeIllegal_hmacWait (s : State) : (s.takeIllegal).hmacWait = s.hmacWait := rfl
@[simp] theorem State.takeIllegal_host (s : State) : (s.takeIllegal).host = s.host := rfl
@[simp] theorem State.takeIllegal_clock (s : State) : (s.takeIllegal).clock = s.clock := rfl
@[simp] theorem State.takeIllegal_answers (s : State) : (s.takeIllegal).answers = s.answers := rfl
@[simp] theorem State.takeIllegal_draws (s : State) : (s.takeIllegal).draws = s.draws := rfl
@[simp] theorem State.takeIllegal_requests (s : State) : (s.takeIllegal).requests = s.requests := rfl
@[simp] theorem State.takeIllegal_responses (s : State) : (s.takeIllegal).responses = s.responses ++ [rspWord ErrorCause.illegalCommand.status 0#64] := rfl

/-! ### `State.clearSecretFlags` -/

@[simp] theorem State.clearSecretFlags_cfg (s : State) : (s.clearSecretFlags).cfg = s.cfg := rfl
@[simp] theorem State.clearSecretFlags_kdone (s : State) : (s.clearSecretFlags).kdone = s.kdone := rfl
@[simp] theorem State.clearSecretFlags_accn (s : State) : (s.clearSecretFlags).accn = s.accn := rfl
@[simp] theorem State.clearSecretFlags_accb (s : State) : (s.clearSecretFlags).accb = s.accb := rfl
@[simp] theorem State.clearSecretFlags_nch (s : State) : (s.clearSecretFlags).nch = s.nch := rfl
@[simp] theorem State.clearSecretFlags_klen (s : State) : (s.clearSecretFlags).klen = s.klen := rfl
@[simp] theorem State.clearSecretFlags_kbuf (s : State) : (s.clearSecretFlags).kbuf = s.kbuf := rfl
@[simp] theorem State.clearSecretFlags_epoch (s : State) : (s.clearSecretFlags).epoch = s.epoch := rfl
@[simp] theorem State.clearSecretFlags_ctr (s : State) : (s.clearSecretFlags).ctr = s.ctr := rfl
@[simp] theorem State.clearSecretFlags_cvalid (s : State) : (s.clearSecretFlags).cvalid = s.cvalid := rfl
@[simp] theorem State.clearSecretFlags_digest (s : State) : (s.clearSecretFlags).digest = s.digest := rfl
@[simp] theorem State.clearSecretFlags_kerr (s : State) : (s.clearSecretFlags).kerr = s.kerr := rfl
@[simp] theorem State.clearSecretFlags_dvalid (s : State) : (s.clearSecretFlags).dvalid = s.dvalid := rfl
@[simp] theorem State.clearSecretFlags_offset (s : State) : (s.clearSecretFlags).offset = s.offset := rfl
@[simp] theorem State.clearSecretFlags_p (s : State) : (s.clearSecretFlags).p = s.p := rfl
@[simp] theorem State.clearSecretFlags_code (s : State) : (s.clearSecretFlags).code = s.code := rfl
@[simp] theorem State.clearSecretFlags_ovalid (s : State) : (s.clearSecretFlags).ovalid = s.ovalid := rfl
@[simp] theorem State.clearSecretFlags_er (s : State) : (s.clearSecretFlags).er = s.er &&& ~~~secretFlags := rfl
@[simp] theorem State.clearSecretFlags_hmacWait (s : State) : (s.clearSecretFlags).hmacWait = s.hmacWait := rfl
@[simp] theorem State.clearSecretFlags_host (s : State) : (s.clearSecretFlags).host = s.host := rfl
@[simp] theorem State.clearSecretFlags_clock (s : State) : (s.clearSecretFlags).clock = s.clock := rfl
@[simp] theorem State.clearSecretFlags_answers (s : State) : (s.clearSecretFlags).answers = s.answers := rfl
@[simp] theorem State.clearSecretFlags_draws (s : State) : (s.clearSecretFlags).draws = s.draws := rfl
@[simp] theorem State.clearSecretFlags_requests (s : State) : (s.clearSecretFlags).requests = s.requests := rfl
@[simp] theorem State.clearSecretFlags_responses (s : State) : (s.clearSecretFlags).responses = s.responses := rfl

/-! ### `State.clearOtherFlags` -/

@[simp] theorem State.clearOtherFlags_cfg (s : State) : (s.clearOtherFlags).cfg = s.cfg := rfl
@[simp] theorem State.clearOtherFlags_kdone (s : State) : (s.clearOtherFlags).kdone = s.kdone := rfl
@[simp] theorem State.clearOtherFlags_accn (s : State) : (s.clearOtherFlags).accn = s.accn := rfl
@[simp] theorem State.clearOtherFlags_accb (s : State) : (s.clearOtherFlags).accb = s.accb := rfl
@[simp] theorem State.clearOtherFlags_nch (s : State) : (s.clearOtherFlags).nch = s.nch := rfl
@[simp] theorem State.clearOtherFlags_klen (s : State) : (s.clearOtherFlags).klen = s.klen := rfl
@[simp] theorem State.clearOtherFlags_kbuf (s : State) : (s.clearOtherFlags).kbuf = s.kbuf := rfl
@[simp] theorem State.clearOtherFlags_epoch (s : State) : (s.clearOtherFlags).epoch = s.epoch := rfl
@[simp] theorem State.clearOtherFlags_ctr (s : State) : (s.clearOtherFlags).ctr = s.ctr := rfl
@[simp] theorem State.clearOtherFlags_cvalid (s : State) : (s.clearOtherFlags).cvalid = s.cvalid := rfl
@[simp] theorem State.clearOtherFlags_digest (s : State) : (s.clearOtherFlags).digest = s.digest := rfl
@[simp] theorem State.clearOtherFlags_kerr (s : State) : (s.clearOtherFlags).kerr = s.kerr := rfl
@[simp] theorem State.clearOtherFlags_dvalid (s : State) : (s.clearOtherFlags).dvalid = s.dvalid := rfl
@[simp] theorem State.clearOtherFlags_offset (s : State) : (s.clearOtherFlags).offset = s.offset := rfl
@[simp] theorem State.clearOtherFlags_p (s : State) : (s.clearOtherFlags).p = s.p := rfl
@[simp] theorem State.clearOtherFlags_code (s : State) : (s.clearOtherFlags).code = s.code := rfl
@[simp] theorem State.clearOtherFlags_ovalid (s : State) : (s.clearOtherFlags).ovalid = s.ovalid := rfl
@[simp] theorem State.clearOtherFlags_er (s : State) : (s.clearOtherFlags).er = s.er &&& ~~~otherFlags := rfl
@[simp] theorem State.clearOtherFlags_hmacWait (s : State) : (s.clearOtherFlags).hmacWait = s.hmacWait := rfl
@[simp] theorem State.clearOtherFlags_host (s : State) : (s.clearOtherFlags).host = s.host := rfl
@[simp] theorem State.clearOtherFlags_clock (s : State) : (s.clearOtherFlags).clock = s.clock := rfl
@[simp] theorem State.clearOtherFlags_answers (s : State) : (s.clearOtherFlags).answers = s.answers := rfl
@[simp] theorem State.clearOtherFlags_draws (s : State) : (s.clearOtherFlags).draws = s.draws := rfl
@[simp] theorem State.clearOtherFlags_requests (s : State) : (s.clearOtherFlags).requests = s.requests := rfl
@[simp] theorem State.clearOtherFlags_responses (s : State) : (s.clearOtherFlags).responses = s.responses := rfl

/-! ### `State.dropDigest` -/

@[simp] theorem State.dropDigest_cfg (s : State) : (s.dropDigest).cfg = s.cfg := rfl
@[simp] theorem State.dropDigest_kdone (s : State) : (s.dropDigest).kdone = s.kdone := rfl
@[simp] theorem State.dropDigest_accn (s : State) : (s.dropDigest).accn = s.accn := rfl
@[simp] theorem State.dropDigest_accb (s : State) : (s.dropDigest).accb = s.accb := rfl
@[simp] theorem State.dropDigest_nch (s : State) : (s.dropDigest).nch = s.nch := rfl
@[simp] theorem State.dropDigest_klen (s : State) : (s.dropDigest).klen = s.klen := rfl
@[simp] theorem State.dropDigest_kbuf (s : State) : (s.dropDigest).kbuf = s.kbuf := rfl
@[simp] theorem State.dropDigest_epoch (s : State) : (s.dropDigest).epoch = s.epoch := rfl
@[simp] theorem State.dropDigest_ctr (s : State) : (s.dropDigest).ctr = s.ctr := rfl
@[simp] theorem State.dropDigest_cvalid (s : State) : (s.dropDigest).cvalid = s.cvalid := rfl
@[simp] theorem State.dropDigest_digest (s : State) : (s.dropDigest).digest = s.digest := rfl
@[simp] theorem State.dropDigest_kerr (s : State) : (s.dropDigest).kerr = s.kerr := rfl
@[simp] theorem State.dropDigest_dvalid (s : State) : (s.dropDigest).dvalid = false := rfl
@[simp] theorem State.dropDigest_offset (s : State) : (s.dropDigest).offset = s.offset := rfl
@[simp] theorem State.dropDigest_p (s : State) : (s.dropDigest).p = s.p := rfl
@[simp] theorem State.dropDigest_code (s : State) : (s.dropDigest).code = s.code := rfl
@[simp] theorem State.dropDigest_ovalid (s : State) : (s.dropDigest).ovalid = false := rfl
@[simp] theorem State.dropDigest_er (s : State) : (s.dropDigest).er = s.er := rfl
@[simp] theorem State.dropDigest_hmacWait (s : State) : (s.dropDigest).hmacWait = s.hmacWait := rfl
@[simp] theorem State.dropDigest_host (s : State) : (s.dropDigest).host = s.host := rfl
@[simp] theorem State.dropDigest_clock (s : State) : (s.dropDigest).clock = s.clock := rfl
@[simp] theorem State.dropDigest_answers (s : State) : (s.dropDigest).answers = s.answers := rfl
@[simp] theorem State.dropDigest_draws (s : State) : (s.dropDigest).draws = s.draws := rfl
@[simp] theorem State.dropDigest_requests (s : State) : (s.dropDigest).requests = s.requests := rfl
@[simp] theorem State.dropDigest_responses (s : State) : (s.dropDigest).responses = s.responses := rfl

/-! ### `State.emptyDecoder` -/

@[simp] theorem State.emptyDecoder_cfg (s : State) : (s.emptyDecoder).cfg = s.cfg := rfl
@[simp] theorem State.emptyDecoder_kdone (s : State) : (s.emptyDecoder).kdone = false := rfl
@[simp] theorem State.emptyDecoder_accn (s : State) : (s.emptyDecoder).accn = 0#2 := rfl
@[simp] theorem State.emptyDecoder_accb (s : State) : (s.emptyDecoder).accb = 0#3 := rfl
@[simp] theorem State.emptyDecoder_nch (s : State) : (s.emptyDecoder).nch = 0#16 := rfl
@[simp] theorem State.emptyDecoder_klen (s : State) : (s.emptyDecoder).klen = 0#17 := rfl
@[simp] theorem State.emptyDecoder_kbuf (s : State) : (s.emptyDecoder).kbuf = [] := rfl
@[simp] theorem State.emptyDecoder_epoch (s : State) : (s.emptyDecoder).epoch = s.epoch := rfl
@[simp] theorem State.emptyDecoder_ctr (s : State) : (s.emptyDecoder).ctr = s.ctr := rfl
@[simp] theorem State.emptyDecoder_cvalid (s : State) : (s.emptyDecoder).cvalid = s.cvalid := rfl
@[simp] theorem State.emptyDecoder_digest (s : State) : (s.emptyDecoder).digest = s.digest := rfl
@[simp] theorem State.emptyDecoder_kerr (s : State) : (s.emptyDecoder).kerr = s.kerr := rfl
@[simp] theorem State.emptyDecoder_dvalid (s : State) : (s.emptyDecoder).dvalid = s.dvalid := rfl
@[simp] theorem State.emptyDecoder_offset (s : State) : (s.emptyDecoder).offset = s.offset := rfl
@[simp] theorem State.emptyDecoder_p (s : State) : (s.emptyDecoder).p = s.p := rfl
@[simp] theorem State.emptyDecoder_code (s : State) : (s.emptyDecoder).code = s.code := rfl
@[simp] theorem State.emptyDecoder_ovalid (s : State) : (s.emptyDecoder).ovalid = s.ovalid := rfl
@[simp] theorem State.emptyDecoder_er (s : State) : (s.emptyDecoder).er = s.er := rfl
@[simp] theorem State.emptyDecoder_hmacWait (s : State) : (s.emptyDecoder).hmacWait = s.hmacWait := rfl
@[simp] theorem State.emptyDecoder_host (s : State) : (s.emptyDecoder).host = s.host := rfl
@[simp] theorem State.emptyDecoder_clock (s : State) : (s.emptyDecoder).clock = s.clock := rfl
@[simp] theorem State.emptyDecoder_answers (s : State) : (s.emptyDecoder).answers = s.answers := rfl
@[simp] theorem State.emptyDecoder_draws (s : State) : (s.emptyDecoder).draws = s.draws := rfl
@[simp] theorem State.emptyDecoder_requests (s : State) : (s.emptyDecoder).requests = s.requests := rfl
@[simp] theorem State.emptyDecoder_responses (s : State) : (s.emptyDecoder).responses = s.responses := rfl

/-! ### `State.closeDecoder` -/

@[simp] theorem State.closeDecoder_cfg (s : State) : (s.closeDecoder).cfg = s.cfg := rfl
@[simp] theorem State.closeDecoder_kdone (s : State) : (s.closeDecoder).kdone = true := rfl
@[simp] theorem State.closeDecoder_accn (s : State) : (s.closeDecoder).accn = 0#2 := rfl
@[simp] theorem State.closeDecoder_accb (s : State) : (s.closeDecoder).accb = 0#3 := rfl
@[simp] theorem State.closeDecoder_nch (s : State) : (s.closeDecoder).nch = s.nch := rfl
@[simp] theorem State.closeDecoder_klen (s : State) : (s.closeDecoder).klen = s.klen := rfl
@[simp] theorem State.closeDecoder_kbuf (s : State) : (s.closeDecoder).kbuf = s.kbuf := rfl
@[simp] theorem State.closeDecoder_epoch (s : State) : (s.closeDecoder).epoch = s.epoch := rfl
@[simp] theorem State.closeDecoder_ctr (s : State) : (s.closeDecoder).ctr = s.ctr := rfl
@[simp] theorem State.closeDecoder_cvalid (s : State) : (s.closeDecoder).cvalid = s.cvalid := rfl
@[simp] theorem State.closeDecoder_digest (s : State) : (s.closeDecoder).digest = s.digest := rfl
@[simp] theorem State.closeDecoder_kerr (s : State) : (s.closeDecoder).kerr = s.kerr := rfl
@[simp] theorem State.closeDecoder_dvalid (s : State) : (s.closeDecoder).dvalid = s.dvalid := rfl
@[simp] theorem State.closeDecoder_offset (s : State) : (s.closeDecoder).offset = s.offset := rfl
@[simp] theorem State.closeDecoder_p (s : State) : (s.closeDecoder).p = s.p := rfl
@[simp] theorem State.closeDecoder_code (s : State) : (s.closeDecoder).code = s.code := rfl
@[simp] theorem State.closeDecoder_ovalid (s : State) : (s.closeDecoder).ovalid = s.ovalid := rfl
@[simp] theorem State.closeDecoder_er (s : State) : (s.closeDecoder).er = s.er := rfl
@[simp] theorem State.closeDecoder_hmacWait (s : State) : (s.closeDecoder).hmacWait = s.hmacWait := rfl
@[simp] theorem State.closeDecoder_host (s : State) : (s.closeDecoder).host = s.host := rfl
@[simp] theorem State.closeDecoder_clock (s : State) : (s.closeDecoder).clock = s.clock := rfl
@[simp] theorem State.closeDecoder_answers (s : State) : (s.closeDecoder).answers = s.answers := rfl
@[simp] theorem State.closeDecoder_draws (s : State) : (s.closeDecoder).draws = s.draws := rfl
@[simp] theorem State.closeDecoder_requests (s : State) : (s.closeDecoder).requests = s.requests := rfl
@[simp] theorem State.closeDecoder_responses (s : State) : (s.closeDecoder).responses = s.responses := rfl

/-! ### `State.wipeKey` -/

@[simp] theorem State.wipeKey_cfg (s : State) : (s.wipeKey).cfg = s.cfg := rfl
@[simp] theorem State.wipeKey_kdone (s : State) : (s.wipeKey).kdone = s.kdone := rfl
@[simp] theorem State.wipeKey_accn (s : State) : (s.wipeKey).accn = s.accn := rfl
@[simp] theorem State.wipeKey_accb (s : State) : (s.wipeKey).accb = s.accb := rfl
@[simp] theorem State.wipeKey_nch (s : State) : (s.wipeKey).nch = s.nch := rfl
@[simp] theorem State.wipeKey_klen (s : State) : (s.wipeKey).klen = 0#17 := rfl
@[simp] theorem State.wipeKey_kbuf (s : State) : (s.wipeKey).kbuf = [] := rfl
@[simp] theorem State.wipeKey_epoch (s : State) : (s.wipeKey).epoch = s.epoch := rfl
@[simp] theorem State.wipeKey_ctr (s : State) : (s.wipeKey).ctr = s.ctr := rfl
@[simp] theorem State.wipeKey_cvalid (s : State) : (s.wipeKey).cvalid = s.cvalid := rfl
@[simp] theorem State.wipeKey_digest (s : State) : (s.wipeKey).digest = s.digest := rfl
@[simp] theorem State.wipeKey_kerr (s : State) : (s.wipeKey).kerr = s.kerr := rfl
@[simp] theorem State.wipeKey_dvalid (s : State) : (s.wipeKey).dvalid = s.dvalid := rfl
@[simp] theorem State.wipeKey_offset (s : State) : (s.wipeKey).offset = s.offset := rfl
@[simp] theorem State.wipeKey_p (s : State) : (s.wipeKey).p = s.p := rfl
@[simp] theorem State.wipeKey_code (s : State) : (s.wipeKey).code = s.code := rfl
@[simp] theorem State.wipeKey_ovalid (s : State) : (s.wipeKey).ovalid = s.ovalid := rfl
@[simp] theorem State.wipeKey_er (s : State) : (s.wipeKey).er = s.er := rfl
@[simp] theorem State.wipeKey_hmacWait (s : State) : (s.wipeKey).hmacWait = s.hmacWait := rfl
@[simp] theorem State.wipeKey_host (s : State) : (s.wipeKey).host = s.host := rfl
@[simp] theorem State.wipeKey_clock (s : State) : (s.wipeKey).clock = s.clock := rfl
@[simp] theorem State.wipeKey_answers (s : State) : (s.wipeKey).answers = s.answers := rfl
@[simp] theorem State.wipeKey_draws (s : State) : (s.wipeKey).draws = s.draws := rfl
@[simp] theorem State.wipeKey_requests (s : State) : (s.wipeKey).requests = s.requests := rfl
@[simp] theorem State.wipeKey_responses (s : State) : (s.wipeKey).responses = s.responses := rfl

/-! ### `State.append` -/

@[simp] theorem State.append_cfg (s : State) (v : BitVec 5) : (s.append v).cfg = s.cfg := rfl
@[simp] theorem State.append_kdone (s : State) (v : BitVec 5) : (s.append v).kdone = s.kdone := rfl
@[simp] theorem State.append_accn (s : State) (v : BitVec 5) : (s.append v).accn = newAccn s.accn := rfl
@[simp] theorem State.append_accb (s : State) (v : BitVec 5) : (s.append v).accb = newAccb s.accn s.accb v := rfl
@[simp] theorem State.append_nch (s : State) (v : BitVec 5) : (s.append v).nch = s.nch + 1#16 := rfl
@[simp] theorem State.append_klen (s : State) (v : BitVec 5) : (s.append v).klen = s.klen + BitVec.ofNat 17 (newNibbles s.accn s.accb v).length := rfl
@[simp] theorem State.append_kbuf (s : State) (v : BitVec 5) : (s.append v).kbuf = Memory.writeAll s.kbuf s.klen.toNat (newNibbles s.accn s.accb v) := rfl
@[simp] theorem State.append_epoch (s : State) (v : BitVec 5) : (s.append v).epoch = s.epoch := rfl
@[simp] theorem State.append_ctr (s : State) (v : BitVec 5) : (s.append v).ctr = s.ctr := rfl
@[simp] theorem State.append_cvalid (s : State) (v : BitVec 5) : (s.append v).cvalid = s.cvalid := rfl
@[simp] theorem State.append_digest (s : State) (v : BitVec 5) : (s.append v).digest = s.digest := rfl
@[simp] theorem State.append_kerr (s : State) (v : BitVec 5) : (s.append v).kerr = s.kerr := rfl
@[simp] theorem State.append_dvalid (s : State) (v : BitVec 5) : (s.append v).dvalid = s.dvalid := rfl
@[simp] theorem State.append_offset (s : State) (v : BitVec 5) : (s.append v).offset = s.offset := rfl
@[simp] theorem State.append_p (s : State) (v : BitVec 5) : (s.append v).p = s.p := rfl
@[simp] theorem State.append_code (s : State) (v : BitVec 5) : (s.append v).code = s.code := rfl
@[simp] theorem State.append_ovalid (s : State) (v : BitVec 5) : (s.append v).ovalid = s.ovalid := rfl
@[simp] theorem State.append_er (s : State) (v : BitVec 5) : (s.append v).er = s.er := rfl
@[simp] theorem State.append_hmacWait (s : State) (v : BitVec 5) : (s.append v).hmacWait = s.hmacWait := rfl
@[simp] theorem State.append_host (s : State) (v : BitVec 5) : (s.append v).host = s.host := rfl
@[simp] theorem State.append_clock (s : State) (v : BitVec 5) : (s.append v).clock = s.clock := rfl
@[simp] theorem State.append_answers (s : State) (v : BitVec 5) : (s.append v).answers = s.answers := rfl
@[simp] theorem State.append_draws (s : State) (v : BitVec 5) : (s.append v).draws = s.draws := rfl
@[simp] theorem State.append_requests (s : State) (v : BitVec 5) : (s.append v).requests = s.requests := rfl
@[simp] theorem State.append_responses (s : State) (v : BitVec 5) : (s.append v).responses = s.responses := rfl

/-! ### `State.loadCounter` -/

@[simp] theorem State.loadCounter_cfg (s : State) (e : Word64) : (s.loadCounter e).cfg = s.cfg := rfl
@[simp] theorem State.loadCounter_kdone (s : State) (e : Word64) : (s.loadCounter e).kdone = s.kdone := rfl
@[simp] theorem State.loadCounter_accn (s : State) (e : Word64) : (s.loadCounter e).accn = s.accn := rfl
@[simp] theorem State.loadCounter_accb (s : State) (e : Word64) : (s.loadCounter e).accb = s.accb := rfl
@[simp] theorem State.loadCounter_nch (s : State) (e : Word64) : (s.loadCounter e).nch = s.nch := rfl
@[simp] theorem State.loadCounter_klen (s : State) (e : Word64) : (s.loadCounter e).klen = s.klen := rfl
@[simp] theorem State.loadCounter_kbuf (s : State) (e : Word64) : (s.loadCounter e).kbuf = s.kbuf := rfl
@[simp] theorem State.loadCounter_epoch (s : State) (e : Word64) : (s.loadCounter e).epoch = e := rfl
@[simp] theorem State.loadCounter_ctr (s : State) (e : Word64) : (s.loadCounter e).ctr = counterOf s.cfg e := rfl
@[simp] theorem State.loadCounter_cvalid (s : State) (e : Word64) : (s.loadCounter e).cvalid = true := rfl
@[simp] theorem State.loadCounter_digest (s : State) (e : Word64) : (s.loadCounter e).digest = s.digest := rfl
@[simp] theorem State.loadCounter_kerr (s : State) (e : Word64) : (s.loadCounter e).kerr = s.kerr := rfl
@[simp] theorem State.loadCounter_dvalid (s : State) (e : Word64) : (s.loadCounter e).dvalid = s.dvalid := rfl
@[simp] theorem State.loadCounter_offset (s : State) (e : Word64) : (s.loadCounter e).offset = s.offset := rfl
@[simp] theorem State.loadCounter_p (s : State) (e : Word64) : (s.loadCounter e).p = s.p := rfl
@[simp] theorem State.loadCounter_code (s : State) (e : Word64) : (s.loadCounter e).code = s.code := rfl
@[simp] theorem State.loadCounter_ovalid (s : State) (e : Word64) : (s.loadCounter e).ovalid = s.ovalid := rfl
@[simp] theorem State.loadCounter_er (s : State) (e : Word64) : (s.loadCounter e).er = s.er := rfl
@[simp] theorem State.loadCounter_hmacWait (s : State) (e : Word64) : (s.loadCounter e).hmacWait = s.hmacWait := rfl
@[simp] theorem State.loadCounter_host (s : State) (e : Word64) : (s.loadCounter e).host = s.host := rfl
@[simp] theorem State.loadCounter_clock (s : State) (e : Word64) : (s.loadCounter e).clock = s.clock := rfl
@[simp] theorem State.loadCounter_answers (s : State) (e : Word64) : (s.loadCounter e).answers = s.answers := rfl
@[simp] theorem State.loadCounter_draws (s : State) (e : Word64) : (s.loadCounter e).draws = s.draws := rfl
@[simp] theorem State.loadCounter_requests (s : State) (e : Word64) : (s.loadCounter e).requests = s.requests := rfl
@[simp] theorem State.loadCounter_responses (s : State) (e : Word64) : (s.loadCounter e).responses = s.responses := rfl

/-! ### `State.dropCounter` -/

@[simp] theorem State.dropCounter_cfg (s : State) : (s.dropCounter).cfg = s.cfg := rfl
@[simp] theorem State.dropCounter_kdone (s : State) : (s.dropCounter).kdone = s.kdone := rfl
@[simp] theorem State.dropCounter_accn (s : State) : (s.dropCounter).accn = s.accn := rfl
@[simp] theorem State.dropCounter_accb (s : State) : (s.dropCounter).accb = s.accb := rfl
@[simp] theorem State.dropCounter_nch (s : State) : (s.dropCounter).nch = s.nch := rfl
@[simp] theorem State.dropCounter_klen (s : State) : (s.dropCounter).klen = s.klen := rfl
@[simp] theorem State.dropCounter_kbuf (s : State) : (s.dropCounter).kbuf = s.kbuf := rfl
@[simp] theorem State.dropCounter_epoch (s : State) : (s.dropCounter).epoch = s.epoch := rfl
@[simp] theorem State.dropCounter_ctr (s : State) : (s.dropCounter).ctr = s.ctr := rfl
@[simp] theorem State.dropCounter_cvalid (s : State) : (s.dropCounter).cvalid = false := rfl
@[simp] theorem State.dropCounter_digest (s : State) : (s.dropCounter).digest = s.digest := rfl
@[simp] theorem State.dropCounter_kerr (s : State) : (s.dropCounter).kerr = s.kerr := rfl
@[simp] theorem State.dropCounter_dvalid (s : State) : (s.dropCounter).dvalid = s.dvalid := rfl
@[simp] theorem State.dropCounter_offset (s : State) : (s.dropCounter).offset = s.offset := rfl
@[simp] theorem State.dropCounter_p (s : State) : (s.dropCounter).p = s.p := rfl
@[simp] theorem State.dropCounter_code (s : State) : (s.dropCounter).code = s.code := rfl
@[simp] theorem State.dropCounter_ovalid (s : State) : (s.dropCounter).ovalid = s.ovalid := rfl
@[simp] theorem State.dropCounter_er (s : State) : (s.dropCounter).er = s.er := rfl
@[simp] theorem State.dropCounter_hmacWait (s : State) : (s.dropCounter).hmacWait = s.hmacWait := rfl
@[simp] theorem State.dropCounter_host (s : State) : (s.dropCounter).host = s.host := rfl
@[simp] theorem State.dropCounter_clock (s : State) : (s.dropCounter).clock = s.clock := rfl
@[simp] theorem State.dropCounter_answers (s : State) : (s.dropCounter).answers = s.answers := rfl
@[simp] theorem State.dropCounter_draws (s : State) : (s.dropCounter).draws = s.draws := rfl
@[simp] theorem State.dropCounter_requests (s : State) : (s.dropCounter).requests = s.requests := rfl
@[simp] theorem State.dropCounter_responses (s : State) : (s.dropCounter).responses = s.responses := rfl

/-! ### `State.sendRequest` -/

@[simp] theorem State.sendRequest_cfg (s : State) : (s.sendRequest).cfg = s.cfg := rfl
@[simp] theorem State.sendRequest_kdone (s : State) : (s.sendRequest).kdone = s.kdone := rfl
@[simp] theorem State.sendRequest_accn (s : State) : (s.sendRequest).accn = s.accn := rfl
@[simp] theorem State.sendRequest_accb (s : State) : (s.sendRequest).accb = s.accb := rfl
@[simp] theorem State.sendRequest_nch (s : State) : (s.sendRequest).nch = s.nch := rfl
@[simp] theorem State.sendRequest_klen (s : State) : (s.sendRequest).klen = s.klen := rfl
@[simp] theorem State.sendRequest_kbuf (s : State) : (s.sendRequest).kbuf = s.kbuf := rfl
@[simp] theorem State.sendRequest_epoch (s : State) : (s.sendRequest).epoch = s.epoch := rfl
@[simp] theorem State.sendRequest_ctr (s : State) : (s.sendRequest).ctr = s.ctr := rfl
@[simp] theorem State.sendRequest_cvalid (s : State) : (s.sendRequest).cvalid = s.cvalid := rfl
@[simp] theorem State.sendRequest_digest (s : State) : (s.sendRequest).digest = s.digest := rfl
@[simp] theorem State.sendRequest_kerr (s : State) : (s.sendRequest).kerr = s.kerr := rfl
@[simp] theorem State.sendRequest_dvalid (s : State) : (s.sendRequest).dvalid = s.dvalid := rfl
@[simp] theorem State.sendRequest_offset (s : State) : (s.sendRequest).offset = s.offset := rfl
@[simp] theorem State.sendRequest_p (s : State) : (s.sendRequest).p = s.p := rfl
@[simp] theorem State.sendRequest_code (s : State) : (s.sendRequest).code = s.code := rfl
@[simp] theorem State.sendRequest_ovalid (s : State) : (s.sendRequest).ovalid = s.ovalid := rfl
@[simp] theorem State.sendRequest_er (s : State) : (s.sendRequest).er = s.er := rfl
@[simp] theorem State.sendRequest_hmacWait (s : State) : (s.sendRequest).hmacWait = true := rfl
@[simp] theorem State.sendRequest_host (s : State) : (s.sendRequest).host = s.host := rfl
@[simp] theorem State.sendRequest_clock (s : State) : (s.sendRequest).clock = s.clock := rfl
@[simp] theorem State.sendRequest_answers (s : State) : (s.sendRequest).answers = s.answers := rfl
@[simp] theorem State.sendRequest_draws (s : State) : (s.sendRequest).draws = s.draws := rfl
@[simp] theorem State.sendRequest_requests (s : State) : (s.sendRequest).requests = s.requests ++ [s.hmacRequest] := rfl
@[simp] theorem State.sendRequest_responses (s : State) : (s.sendRequest).responses = s.responses := rfl

/-! ### `State.waitOver` -/

@[simp] theorem State.waitOver_cfg (s : State) : (s.waitOver).cfg = s.cfg := rfl
@[simp] theorem State.waitOver_kdone (s : State) : (s.waitOver).kdone = s.kdone := rfl
@[simp] theorem State.waitOver_accn (s : State) : (s.waitOver).accn = s.accn := rfl
@[simp] theorem State.waitOver_accb (s : State) : (s.waitOver).accb = s.accb := rfl
@[simp] theorem State.waitOver_nch (s : State) : (s.waitOver).nch = s.nch := rfl
@[simp] theorem State.waitOver_klen (s : State) : (s.waitOver).klen = s.klen := rfl
@[simp] theorem State.waitOver_kbuf (s : State) : (s.waitOver).kbuf = s.kbuf := rfl
@[simp] theorem State.waitOver_epoch (s : State) : (s.waitOver).epoch = s.epoch := rfl
@[simp] theorem State.waitOver_ctr (s : State) : (s.waitOver).ctr = s.ctr := rfl
@[simp] theorem State.waitOver_cvalid (s : State) : (s.waitOver).cvalid = s.cvalid := rfl
@[simp] theorem State.waitOver_digest (s : State) : (s.waitOver).digest = s.digest := rfl
@[simp] theorem State.waitOver_kerr (s : State) : (s.waitOver).kerr = s.kerr := rfl
@[simp] theorem State.waitOver_dvalid (s : State) : (s.waitOver).dvalid = s.dvalid := rfl
@[simp] theorem State.waitOver_offset (s : State) : (s.waitOver).offset = s.offset := rfl
@[simp] theorem State.waitOver_p (s : State) : (s.waitOver).p = s.p := rfl
@[simp] theorem State.waitOver_code (s : State) : (s.waitOver).code = s.code := rfl
@[simp] theorem State.waitOver_ovalid (s : State) : (s.waitOver).ovalid = s.ovalid := rfl
@[simp] theorem State.waitOver_er (s : State) : (s.waitOver).er = s.er := rfl
@[simp] theorem State.waitOver_hmacWait (s : State) : (s.waitOver).hmacWait = false := rfl
@[simp] theorem State.waitOver_host (s : State) : (s.waitOver).host = s.host := rfl
@[simp] theorem State.waitOver_clock (s : State) : (s.waitOver).clock = s.clock := rfl
@[simp] theorem State.waitOver_answers (s : State) : (s.waitOver).answers = s.answers := rfl
@[simp] theorem State.waitOver_draws (s : State) : (s.waitOver).draws = s.draws := rfl
@[simp] theorem State.waitOver_requests (s : State) : (s.waitOver).requests = s.requests := rfl
@[simp] theorem State.waitOver_responses (s : State) : (s.waitOver).responses = s.responses := rfl

/-! ### `State.latchDigest` -/

@[simp] theorem State.latchDigest_cfg (s : State) (r : HmacReply) : (s.latchDigest r).cfg = s.cfg := rfl
@[simp] theorem State.latchDigest_kdone (s : State) (r : HmacReply) : (s.latchDigest r).kdone = s.kdone := rfl
@[simp] theorem State.latchDigest_accn (s : State) (r : HmacReply) : (s.latchDigest r).accn = s.accn := rfl
@[simp] theorem State.latchDigest_accb (s : State) (r : HmacReply) : (s.latchDigest r).accb = s.accb := rfl
@[simp] theorem State.latchDigest_nch (s : State) (r : HmacReply) : (s.latchDigest r).nch = s.nch := rfl
@[simp] theorem State.latchDigest_klen (s : State) (r : HmacReply) : (s.latchDigest r).klen = s.klen := rfl
@[simp] theorem State.latchDigest_kbuf (s : State) (r : HmacReply) : (s.latchDigest r).kbuf = s.kbuf := rfl
@[simp] theorem State.latchDigest_epoch (s : State) (r : HmacReply) : (s.latchDigest r).epoch = s.epoch := rfl
@[simp] theorem State.latchDigest_ctr (s : State) (r : HmacReply) : (s.latchDigest r).ctr = s.ctr := rfl
@[simp] theorem State.latchDigest_cvalid (s : State) (r : HmacReply) : (s.latchDigest r).cvalid = s.cvalid := rfl
@[simp] theorem State.latchDigest_digest (s : State) (r : HmacReply) : (s.latchDigest r).digest = r.digest := rfl
@[simp] theorem State.latchDigest_kerr (s : State) (r : HmacReply) : (s.latchDigest r).kerr = r.kerr := rfl
@[simp] theorem State.latchDigest_dvalid (s : State) (r : HmacReply) : (s.latchDigest r).dvalid = true := rfl
@[simp] theorem State.latchDigest_offset (s : State) (r : HmacReply) : (s.latchDigest r).offset = s.offset := rfl
@[simp] theorem State.latchDigest_p (s : State) (r : HmacReply) : (s.latchDigest r).p = s.p := rfl
@[simp] theorem State.latchDigest_code (s : State) (r : HmacReply) : (s.latchDigest r).code = s.code := rfl
@[simp] theorem State.latchDigest_ovalid (s : State) (r : HmacReply) : (s.latchDigest r).ovalid = false := rfl
@[simp] theorem State.latchDigest_er (s : State) (r : HmacReply) : (s.latchDigest r).er = s.er := rfl
@[simp] theorem State.latchDigest_hmacWait (s : State) (r : HmacReply) : (s.latchDigest r).hmacWait = s.hmacWait := rfl
@[simp] theorem State.latchDigest_host (s : State) (r : HmacReply) : (s.latchDigest r).host = s.host := rfl
@[simp] theorem State.latchDigest_clock (s : State) (r : HmacReply) : (s.latchDigest r).clock = s.clock := rfl
@[simp] theorem State.latchDigest_answers (s : State) (r : HmacReply) : (s.latchDigest r).answers = s.answers := rfl
@[simp] theorem State.latchDigest_draws (s : State) (r : HmacReply) : (s.latchDigest r).draws = s.draws := rfl
@[simp] theorem State.latchDigest_requests (s : State) (r : HmacReply) : (s.latchDigest r).requests = s.requests := rfl
@[simp] theorem State.latchDigest_responses (s : State) (r : HmacReply) : (s.latchDigest r).responses = s.responses := rfl

/-! ### `State.latchCode` -/

@[simp] theorem State.latchCode_cfg (s : State) : (s.latchCode).cfg = s.cfg := rfl
@[simp] theorem State.latchCode_kdone (s : State) : (s.latchCode).kdone = s.kdone := rfl
@[simp] theorem State.latchCode_accn (s : State) : (s.latchCode).accn = s.accn := rfl
@[simp] theorem State.latchCode_accb (s : State) : (s.latchCode).accb = s.accb := rfl
@[simp] theorem State.latchCode_nch (s : State) : (s.latchCode).nch = s.nch := rfl
@[simp] theorem State.latchCode_klen (s : State) : (s.latchCode).klen = s.klen := rfl
@[simp] theorem State.latchCode_kbuf (s : State) : (s.latchCode).kbuf = s.kbuf := rfl
@[simp] theorem State.latchCode_epoch (s : State) : (s.latchCode).epoch = s.epoch := rfl
@[simp] theorem State.latchCode_ctr (s : State) : (s.latchCode).ctr = s.ctr := rfl
@[simp] theorem State.latchCode_cvalid (s : State) : (s.latchCode).cvalid = s.cvalid := rfl
@[simp] theorem State.latchCode_digest (s : State) : (s.latchCode).digest = s.digest := rfl
@[simp] theorem State.latchCode_kerr (s : State) : (s.latchCode).kerr = s.kerr := rfl
@[simp] theorem State.latchCode_dvalid (s : State) : (s.latchCode).dvalid = s.dvalid := rfl
@[simp] theorem State.latchCode_offset (s : State) : (s.latchCode).offset = truncOffset s.digest s.kerr := rfl
@[simp] theorem State.latchCode_p (s : State) : (s.latchCode).p = truncMask (truncWindow s.digest (truncOffset s.digest s.kerr)) := rfl
@[simp] theorem State.latchCode_code (s : State) : (s.latchCode).code = codeOf (reduce (truncMask (truncWindow s.digest (truncOffset s.digest s.kerr)))) := rfl
@[simp] theorem State.latchCode_ovalid (s : State) : (s.latchCode).ovalid = true := rfl
@[simp] theorem State.latchCode_er (s : State) : (s.latchCode).er = s.er := rfl
@[simp] theorem State.latchCode_hmacWait (s : State) : (s.latchCode).hmacWait = s.hmacWait := rfl
@[simp] theorem State.latchCode_host (s : State) : (s.latchCode).host = s.host := rfl
@[simp] theorem State.latchCode_clock (s : State) : (s.latchCode).clock = s.clock := rfl
@[simp] theorem State.latchCode_answers (s : State) : (s.latchCode).answers = s.answers := rfl
@[simp] theorem State.latchCode_draws (s : State) : (s.latchCode).draws = s.draws := rfl
@[simp] theorem State.latchCode_requests (s : State) : (s.latchCode).requests = s.requests := rfl
@[simp] theorem State.latchCode_responses (s : State) : (s.latchCode).responses = s.responses := rfl

/-! ### `State.zeroRegs` -/

@[simp] theorem State.zeroRegs_cfg (s : State) : (s.zeroRegs).cfg = s.cfg := rfl
@[simp] theorem State.zeroRegs_kdone (s : State) : (s.zeroRegs).kdone = false := rfl
@[simp] theorem State.zeroRegs_accn (s : State) : (s.zeroRegs).accn = 0#2 := rfl
@[simp] theorem State.zeroRegs_accb (s : State) : (s.zeroRegs).accb = 0#3 := rfl
@[simp] theorem State.zeroRegs_nch (s : State) : (s.zeroRegs).nch = 0#16 := rfl
@[simp] theorem State.zeroRegs_klen (s : State) : (s.zeroRegs).klen = 0#17 := rfl
@[simp] theorem State.zeroRegs_kbuf (s : State) : (s.zeroRegs).kbuf = [] := rfl
@[simp] theorem State.zeroRegs_epoch (s : State) : (s.zeroRegs).epoch = 0#64 := rfl
@[simp] theorem State.zeroRegs_ctr (s : State) : (s.zeroRegs).ctr = 0#64 := rfl
@[simp] theorem State.zeroRegs_cvalid (s : State) : (s.zeroRegs).cvalid = false := rfl
@[simp] theorem State.zeroRegs_digest (s : State) : (s.zeroRegs).digest = 0#160 := rfl
@[simp] theorem State.zeroRegs_kerr (s : State) : (s.zeroRegs).kerr = false := rfl
@[simp] theorem State.zeroRegs_dvalid (s : State) : (s.zeroRegs).dvalid = false := rfl
@[simp] theorem State.zeroRegs_offset (s : State) : (s.zeroRegs).offset = 0#4 := rfl
@[simp] theorem State.zeroRegs_p (s : State) : (s.zeroRegs).p = 0#32 := rfl
@[simp] theorem State.zeroRegs_code (s : State) : (s.zeroRegs).code = 0#48 := rfl
@[simp] theorem State.zeroRegs_ovalid (s : State) : (s.zeroRegs).ovalid = false := rfl
@[simp] theorem State.zeroRegs_er (s : State) : (s.zeroRegs).er = 0#6 := rfl
@[simp] theorem State.zeroRegs_hmacWait (s : State) : (s.zeroRegs).hmacWait = s.hmacWait := rfl
@[simp] theorem State.zeroRegs_host (s : State) : (s.zeroRegs).host = s.host := rfl
@[simp] theorem State.zeroRegs_clock (s : State) : (s.zeroRegs).clock = s.clock := rfl
@[simp] theorem State.zeroRegs_answers (s : State) : (s.zeroRegs).answers = s.answers := rfl
@[simp] theorem State.zeroRegs_draws (s : State) : (s.zeroRegs).draws = s.draws := rfl
@[simp] theorem State.zeroRegs_requests (s : State) : (s.zeroRegs).requests = s.requests := rfl
@[simp] theorem State.zeroRegs_responses (s : State) : (s.zeroRegs).responses = s.responses := rfl

/-! ### `State.hardReset` -/

@[simp] theorem State.hardReset_cfg (s : State) : (s.hardReset).cfg = s.cfg := rfl
@[simp] theorem State.hardReset_kdone (s : State) : (s.hardReset).kdone = false := rfl
@[simp] theorem State.hardReset_accn (s : State) : (s.hardReset).accn = 0#2 := rfl
@[simp] theorem State.hardReset_accb (s : State) : (s.hardReset).accb = 0#3 := rfl
@[simp] theorem State.hardReset_nch (s : State) : (s.hardReset).nch = 0#16 := rfl
@[simp] theorem State.hardReset_klen (s : State) : (s.hardReset).klen = 0#17 := rfl
@[simp] theorem State.hardReset_kbuf (s : State) : (s.hardReset).kbuf = [] := rfl
@[simp] theorem State.hardReset_epoch (s : State) : (s.hardReset).epoch = 0#64 := rfl
@[simp] theorem State.hardReset_ctr (s : State) : (s.hardReset).ctr = 0#64 := rfl
@[simp] theorem State.hardReset_cvalid (s : State) : (s.hardReset).cvalid = false := rfl
@[simp] theorem State.hardReset_digest (s : State) : (s.hardReset).digest = 0#160 := rfl
@[simp] theorem State.hardReset_kerr (s : State) : (s.hardReset).kerr = false := rfl
@[simp] theorem State.hardReset_dvalid (s : State) : (s.hardReset).dvalid = false := rfl
@[simp] theorem State.hardReset_offset (s : State) : (s.hardReset).offset = 0#4 := rfl
@[simp] theorem State.hardReset_p (s : State) : (s.hardReset).p = 0#32 := rfl
@[simp] theorem State.hardReset_code (s : State) : (s.hardReset).code = 0#48 := rfl
@[simp] theorem State.hardReset_ovalid (s : State) : (s.hardReset).ovalid = false := rfl
@[simp] theorem State.hardReset_er (s : State) : (s.hardReset).er = 0#6 := rfl
@[simp] theorem State.hardReset_hmacWait (s : State) : (s.hardReset).hmacWait = false := rfl
@[simp] theorem State.hardReset_host (s : State) : (s.hardReset).host = s.host := rfl
@[simp] theorem State.hardReset_clock (s : State) : (s.hardReset).clock = s.clock := rfl
@[simp] theorem State.hardReset_answers (s : State) : (s.hardReset).answers = s.answers := rfl
@[simp] theorem State.hardReset_draws (s : State) : (s.hardReset).draws = s.draws := rfl
@[simp] theorem State.hardReset_requests (s : State) : (s.hardReset).requests = s.requests := rfl
@[simp] theorem State.hardReset_responses (s : State) : (s.hardReset).responses = s.responses := rfl

/-! ### `State.popHost` -/

@[simp] theorem State.popHost_cfg (s : State) : (s.popHost).cfg = s.cfg := rfl
@[simp] theorem State.popHost_kdone (s : State) : (s.popHost).kdone = s.kdone := rfl
@[simp] theorem State.popHost_accn (s : State) : (s.popHost).accn = s.accn := rfl
@[simp] theorem State.popHost_accb (s : State) : (s.popHost).accb = s.accb := rfl
@[simp] theorem State.popHost_nch (s : State) : (s.popHost).nch = s.nch := rfl
@[simp] theorem State.popHost_klen (s : State) : (s.popHost).klen = s.klen := rfl
@[simp] theorem State.popHost_kbuf (s : State) : (s.popHost).kbuf = s.kbuf := rfl
@[simp] theorem State.popHost_epoch (s : State) : (s.popHost).epoch = s.epoch := rfl
@[simp] theorem State.popHost_ctr (s : State) : (s.popHost).ctr = s.ctr := rfl
@[simp] theorem State.popHost_cvalid (s : State) : (s.popHost).cvalid = s.cvalid := rfl
@[simp] theorem State.popHost_digest (s : State) : (s.popHost).digest = s.digest := rfl
@[simp] theorem State.popHost_kerr (s : State) : (s.popHost).kerr = s.kerr := rfl
@[simp] theorem State.popHost_dvalid (s : State) : (s.popHost).dvalid = s.dvalid := rfl
@[simp] theorem State.popHost_offset (s : State) : (s.popHost).offset = s.offset := rfl
@[simp] theorem State.popHost_p (s : State) : (s.popHost).p = s.p := rfl
@[simp] theorem State.popHost_code (s : State) : (s.popHost).code = s.code := rfl
@[simp] theorem State.popHost_ovalid (s : State) : (s.popHost).ovalid = s.ovalid := rfl
@[simp] theorem State.popHost_er (s : State) : (s.popHost).er = s.er := rfl
@[simp] theorem State.popHost_hmacWait (s : State) : (s.popHost).hmacWait = s.hmacWait := rfl
@[simp] theorem State.popHost_host (s : State) : (s.popHost).host = s.host.tail := rfl
@[simp] theorem State.popHost_clock (s : State) : (s.popHost).clock = s.clock := rfl
@[simp] theorem State.popHost_answers (s : State) : (s.popHost).answers = s.answers := rfl
@[simp] theorem State.popHost_draws (s : State) : (s.popHost).draws = s.draws := rfl
@[simp] theorem State.popHost_requests (s : State) : (s.popHost).requests = s.requests := rfl
@[simp] theorem State.popHost_responses (s : State) : (s.popHost).responses = s.responses := rfl

/-! ### `State.presentWord` -/

@[simp] theorem State.presentWord_cfg (s : State) (w : CmdWord) : (s.presentWord w).cfg = s.cfg := rfl
@[simp] theorem State.presentWord_kdone (s : State) (w : CmdWord) : (s.presentWord w).kdone = s.kdone := rfl
@[simp] theorem State.presentWord_accn (s : State) (w : CmdWord) : (s.presentWord w).accn = s.accn := rfl
@[simp] theorem State.presentWord_accb (s : State) (w : CmdWord) : (s.presentWord w).accb = s.accb := rfl
@[simp] theorem State.presentWord_nch (s : State) (w : CmdWord) : (s.presentWord w).nch = s.nch := rfl
@[simp] theorem State.presentWord_klen (s : State) (w : CmdWord) : (s.presentWord w).klen = s.klen := rfl
@[simp] theorem State.presentWord_kbuf (s : State) (w : CmdWord) : (s.presentWord w).kbuf = s.kbuf := rfl
@[simp] theorem State.presentWord_epoch (s : State) (w : CmdWord) : (s.presentWord w).epoch = s.epoch := rfl
@[simp] theorem State.presentWord_ctr (s : State) (w : CmdWord) : (s.presentWord w).ctr = s.ctr := rfl
@[simp] theorem State.presentWord_cvalid (s : State) (w : CmdWord) : (s.presentWord w).cvalid = s.cvalid := rfl
@[simp] theorem State.presentWord_digest (s : State) (w : CmdWord) : (s.presentWord w).digest = s.digest := rfl
@[simp] theorem State.presentWord_kerr (s : State) (w : CmdWord) : (s.presentWord w).kerr = s.kerr := rfl
@[simp] theorem State.presentWord_dvalid (s : State) (w : CmdWord) : (s.presentWord w).dvalid = s.dvalid := rfl
@[simp] theorem State.presentWord_offset (s : State) (w : CmdWord) : (s.presentWord w).offset = s.offset := rfl
@[simp] theorem State.presentWord_p (s : State) (w : CmdWord) : (s.presentWord w).p = s.p := rfl
@[simp] theorem State.presentWord_code (s : State) (w : CmdWord) : (s.presentWord w).code = s.code := rfl
@[simp] theorem State.presentWord_ovalid (s : State) (w : CmdWord) : (s.presentWord w).ovalid = s.ovalid := rfl
@[simp] theorem State.presentWord_er (s : State) (w : CmdWord) : (s.presentWord w).er = s.er := rfl
@[simp] theorem State.presentWord_hmacWait (s : State) (w : CmdWord) : (s.presentWord w).hmacWait = false := rfl
@[simp] theorem State.presentWord_host (s : State) (w : CmdWord) : (s.presentWord w).host = .command w :: s.host := rfl
@[simp] theorem State.presentWord_clock (s : State) (w : CmdWord) : (s.presentWord w).clock = s.clock := rfl
@[simp] theorem State.presentWord_answers (s : State) (w : CmdWord) : (s.presentWord w).answers = s.answers := rfl
@[simp] theorem State.presentWord_draws (s : State) (w : CmdWord) : (s.presentWord w).draws = s.draws := rfl
@[simp] theorem State.presentWord_requests (s : State) (w : CmdWord) : (s.presentWord w).requests = s.requests := rfl
@[simp] theorem State.presentWord_responses (s : State) (w : CmdWord) : (s.presentWord w).responses = s.responses := rfl

/-! ### `State.takeEpoch` -/

@[simp] theorem State.takeEpoch_cfg (s : State) (e : Word64) : (s.takeEpoch e).cfg = s.cfg := rfl
@[simp] theorem State.takeEpoch_kdone (s : State) (e : Word64) : (s.takeEpoch e).kdone = s.kdone := rfl
@[simp] theorem State.takeEpoch_accn (s : State) (e : Word64) : (s.takeEpoch e).accn = s.accn := rfl
@[simp] theorem State.takeEpoch_accb (s : State) (e : Word64) : (s.takeEpoch e).accb = s.accb := rfl
@[simp] theorem State.takeEpoch_nch (s : State) (e : Word64) : (s.takeEpoch e).nch = s.nch := rfl
@[simp] theorem State.takeEpoch_klen (s : State) (e : Word64) : (s.takeEpoch e).klen = s.klen := rfl
@[simp] theorem State.takeEpoch_kbuf (s : State) (e : Word64) : (s.takeEpoch e).kbuf = s.kbuf := rfl
@[simp] theorem State.takeEpoch_epoch (s : State) (e : Word64) : (s.takeEpoch e).epoch = e := rfl
@[simp] theorem State.takeEpoch_ctr (s : State) (e : Word64) : (s.takeEpoch e).ctr = counterOf s.cfg e := rfl
@[simp] theorem State.takeEpoch_cvalid (s : State) (e : Word64) : (s.takeEpoch e).cvalid = true := rfl
@[simp] theorem State.takeEpoch_digest (s : State) (e : Word64) : (s.takeEpoch e).digest = s.digest := rfl
@[simp] theorem State.takeEpoch_kerr (s : State) (e : Word64) : (s.takeEpoch e).kerr = s.kerr := rfl
@[simp] theorem State.takeEpoch_dvalid (s : State) (e : Word64) : (s.takeEpoch e).dvalid = false := rfl
@[simp] theorem State.takeEpoch_offset (s : State) (e : Word64) : (s.takeEpoch e).offset = s.offset := rfl
@[simp] theorem State.takeEpoch_p (s : State) (e : Word64) : (s.takeEpoch e).p = s.p := rfl
@[simp] theorem State.takeEpoch_code (s : State) (e : Word64) : (s.takeEpoch e).code = s.code := rfl
@[simp] theorem State.takeEpoch_ovalid (s : State) (e : Word64) : (s.takeEpoch e).ovalid = false := rfl
@[simp] theorem State.takeEpoch_er (s : State) (e : Word64) : (s.takeEpoch e).er = s.er := rfl
@[simp] theorem State.takeEpoch_hmacWait (s : State) (e : Word64) : (s.takeEpoch e).hmacWait = s.hmacWait := rfl
@[simp] theorem State.takeEpoch_host (s : State) (e : Word64) : (s.takeEpoch e).host = s.host := rfl
@[simp] theorem State.takeEpoch_clock (s : State) (e : Word64) : (s.takeEpoch e).clock = s.clock := rfl
@[simp] theorem State.takeEpoch_answers (s : State) (e : Word64) : (s.takeEpoch e).answers = s.answers := rfl
@[simp] theorem State.takeEpoch_draws (s : State) (e : Word64) : (s.takeEpoch e).draws = s.draws := rfl
@[simp] theorem State.takeEpoch_requests (s : State) (e : Word64) : (s.takeEpoch e).requests = s.requests := rfl
@[simp] theorem State.takeEpoch_responses (s : State) (e : Word64) : (s.takeEpoch e).responses = s.responses ++ [rspWord statusOk (counterOf s.cfg e)] := rfl

/-! ### `State.clockTaken` -/

@[simp] theorem State.clockTaken_cfg (s : State) : s.clockTaken.cfg = s.cfg := by unfold State.clockTaken; split <;> rfl
@[simp] theorem State.clockTaken_kdone (s : State) : s.clockTaken.kdone = s.kdone := by unfold State.clockTaken; split <;> rfl
@[simp] theorem State.clockTaken_accn (s : State) : s.clockTaken.accn = s.accn := by unfold State.clockTaken; split <;> rfl
@[simp] theorem State.clockTaken_accb (s : State) : s.clockTaken.accb = s.accb := by unfold State.clockTaken; split <;> rfl
@[simp] theorem State.clockTaken_nch (s : State) : s.clockTaken.nch = s.nch := by unfold State.clockTaken; split <;> rfl
@[simp] theorem State.clockTaken_klen (s : State) : s.clockTaken.klen = s.klen := by unfold State.clockTaken; split <;> rfl
@[simp] theorem State.clockTaken_kbuf (s : State) : s.clockTaken.kbuf = s.kbuf := by unfold State.clockTaken; split <;> rfl
@[simp] theorem State.clockTaken_epoch (s : State) : s.clockTaken.epoch = s.epoch := by unfold State.clockTaken; split <;> rfl
@[simp] theorem State.clockTaken_ctr (s : State) : s.clockTaken.ctr = s.ctr := by unfold State.clockTaken; split <;> rfl
@[simp] theorem State.clockTaken_cvalid (s : State) : s.clockTaken.cvalid = s.cvalid := by unfold State.clockTaken; split <;> rfl
@[simp] theorem State.clockTaken_digest (s : State) : s.clockTaken.digest = s.digest := by unfold State.clockTaken; split <;> rfl
@[simp] theorem State.clockTaken_kerr (s : State) : s.clockTaken.kerr = s.kerr := by unfold State.clockTaken; split <;> rfl
@[simp] theorem State.clockTaken_dvalid (s : State) : s.clockTaken.dvalid = s.dvalid := by unfold State.clockTaken; split <;> rfl
@[simp] theorem State.clockTaken_offset (s : State) : s.clockTaken.offset = s.offset := by unfold State.clockTaken; split <;> rfl
@[simp] theorem State.clockTaken_p (s : State) : s.clockTaken.p = s.p := by unfold State.clockTaken; split <;> rfl
@[simp] theorem State.clockTaken_code (s : State) : s.clockTaken.code = s.code := by unfold State.clockTaken; split <;> rfl
@[simp] theorem State.clockTaken_ovalid (s : State) : s.clockTaken.ovalid = s.ovalid := by unfold State.clockTaken; split <;> rfl
@[simp] theorem State.clockTaken_er (s : State) : s.clockTaken.er = s.er := by unfold State.clockTaken; split <;> rfl
@[simp] theorem State.clockTaken_hmacWait (s : State) : s.clockTaken.hmacWait = s.hmacWait := by unfold State.clockTaken; split <;> rfl
@[simp] theorem State.clockTaken_host (s : State) : s.clockTaken.host = s.host := by unfold State.clockTaken; split <;> rfl
@[simp] theorem State.clockTaken_answers (s : State) : s.clockTaken.answers = s.answers := by unfold State.clockTaken; split <;> rfl
@[simp] theorem State.clockTaken_requests (s : State) : s.clockTaken.requests = s.requests := by unfold State.clockTaken; split <;> rfl
@[simp] theorem State.clockTaken_responses (s : State) : s.clockTaken.responses = s.responses := by unfold State.clockTaken; split <;> rfl

/-! ### `State.answerTaken` -/

@[simp] theorem State.answerTaken_cfg (s : State) : s.answerTaken.cfg = s.cfg := by unfold State.answerTaken; split <;> rfl
@[simp] theorem State.answerTaken_kdone (s : State) : s.answerTaken.kdone = s.kdone := by unfold State.answerTaken; split <;> rfl
@[simp] theorem State.answerTaken_accn (s : State) : s.answerTaken.accn = s.accn := by unfold State.answerTaken; split <;> rfl
@[simp] theorem State.answerTaken_accb (s : State) : s.answerTaken.accb = s.accb := by unfold State.answerTaken; split <;> rfl
@[simp] theorem State.answerTaken_nch (s : State) : s.answerTaken.nch = s.nch := by unfold State.answerTaken; split <;> rfl
@[simp] theorem State.answerTaken_klen (s : State) : s.answerTaken.klen = s.klen := by unfold State.answerTaken; split <;> rfl
@[simp] theorem State.answerTaken_kbuf (s : State) : s.answerTaken.kbuf = s.kbuf := by unfold State.answerTaken; split <;> rfl
@[simp] theorem State.answerTaken_epoch (s : State) : s.answerTaken.epoch = s.epoch := by unfold State.answerTaken; split <;> rfl
@[simp] theorem State.answerTaken_ctr (s : State) : s.answerTaken.ctr = s.ctr := by unfold State.answerTaken; split <;> rfl
@[simp] theorem State.answerTaken_cvalid (s : State) : s.answerTaken.cvalid = s.cvalid := by unfold State.answerTaken; split <;> rfl
@[simp] theorem State.answerTaken_digest (s : State) : s.answerTaken.digest = s.digest := by unfold State.answerTaken; split <;> rfl
@[simp] theorem State.answerTaken_kerr (s : State) : s.answerTaken.kerr = s.kerr := by unfold State.answerTaken; split <;> rfl
@[simp] theorem State.answerTaken_dvalid (s : State) : s.answerTaken.dvalid = s.dvalid := by unfold State.answerTaken; split <;> rfl
@[simp] theorem State.answerTaken_offset (s : State) : s.answerTaken.offset = s.offset := by unfold State.answerTaken; split <;> rfl
@[simp] theorem State.answerTaken_p (s : State) : s.answerTaken.p = s.p := by unfold State.answerTaken; split <;> rfl
@[simp] theorem State.answerTaken_code (s : State) : s.answerTaken.code = s.code := by unfold State.answerTaken; split <;> rfl
@[simp] theorem State.answerTaken_ovalid (s : State) : s.answerTaken.ovalid = s.ovalid := by unfold State.answerTaken; split <;> rfl
@[simp] theorem State.answerTaken_er (s : State) : s.answerTaken.er = s.er := by unfold State.answerTaken; split <;> rfl
@[simp] theorem State.answerTaken_hmacWait (s : State) : s.answerTaken.hmacWait = s.hmacWait := by unfold State.answerTaken; split <;> rfl
@[simp] theorem State.answerTaken_host (s : State) : s.answerTaken.host = s.host := by unfold State.answerTaken; split <;> rfl
@[simp] theorem State.answerTaken_clock (s : State) : s.answerTaken.clock = s.clock := by unfold State.answerTaken; split <;> rfl
@[simp] theorem State.answerTaken_requests (s : State) : s.answerTaken.requests = s.requests := by unfold State.answerTaken; split <;> rfl
@[simp] theorem State.answerTaken_responses (s : State) : s.answerTaken.responses = s.responses := by unfold State.answerTaken; split <;> rfl

/-! ### `State.resetOf` -/

@[simp] theorem State.resetOf_cfg (cfg : Params) : (State.resetOf cfg).cfg = cfg := rfl
@[simp] theorem State.resetOf_kdone (cfg : Params) : (State.resetOf cfg).kdone = false := rfl
@[simp] theorem State.resetOf_accn (cfg : Params) : (State.resetOf cfg).accn = 0#2 := rfl
@[simp] theorem State.resetOf_accb (cfg : Params) : (State.resetOf cfg).accb = 0#3 := rfl
@[simp] theorem State.resetOf_nch (cfg : Params) : (State.resetOf cfg).nch = 0#16 := rfl
@[simp] theorem State.resetOf_klen (cfg : Params) : (State.resetOf cfg).klen = 0#17 := rfl
@[simp] theorem State.resetOf_kbuf (cfg : Params) : (State.resetOf cfg).kbuf = [] := rfl
@[simp] theorem State.resetOf_epoch (cfg : Params) : (State.resetOf cfg).epoch = 0#64 := rfl
@[simp] theorem State.resetOf_ctr (cfg : Params) : (State.resetOf cfg).ctr = 0#64 := rfl
@[simp] theorem State.resetOf_cvalid (cfg : Params) : (State.resetOf cfg).cvalid = false := rfl
@[simp] theorem State.resetOf_digest (cfg : Params) : (State.resetOf cfg).digest = 0#160 := rfl
@[simp] theorem State.resetOf_kerr (cfg : Params) : (State.resetOf cfg).kerr = false := rfl
@[simp] theorem State.resetOf_dvalid (cfg : Params) : (State.resetOf cfg).dvalid = false := rfl
@[simp] theorem State.resetOf_offset (cfg : Params) : (State.resetOf cfg).offset = 0#4 := rfl
@[simp] theorem State.resetOf_p (cfg : Params) : (State.resetOf cfg).p = 0#32 := rfl
@[simp] theorem State.resetOf_code (cfg : Params) : (State.resetOf cfg).code = 0#48 := rfl
@[simp] theorem State.resetOf_ovalid (cfg : Params) : (State.resetOf cfg).ovalid = false := rfl
@[simp] theorem State.resetOf_er (cfg : Params) : (State.resetOf cfg).er = 0#6 := rfl
@[simp] theorem State.resetOf_hmacWait (cfg : Params) : (State.resetOf cfg).hmacWait = false := rfl
@[simp] theorem State.resetOf_host (cfg : Params) : (State.resetOf cfg).host = [] := rfl
@[simp] theorem State.resetOf_clock (cfg : Params) : (State.resetOf cfg).clock = [] := rfl
@[simp] theorem State.resetOf_answers (cfg : Params) : (State.resetOf cfg).answers = [] := rfl
@[simp] theorem State.resetOf_draws (cfg : Params) : (State.resetOf cfg).draws = 0 := rfl
@[simp] theorem State.resetOf_requests (cfg : Params) : (State.resetOf cfg).requests = [] := rfl
@[simp] theorem State.resetOf_responses (cfg : Params) : (State.resetOf cfg).responses = [] := rfl

/-! ### The named reads of a state depend only on the registers they read -/

theorem State.hasError_congr {s t : State} (h : t.er = s.er) (c : ErrorCause) : t.hasError c = s.hasError c := by
  unfold State.hasError; rw [h]

theorem State.keyNibble_congr {s t : State} (hk : t.klen = s.klen) (hb : t.kbuf = s.kbuf) (i : Nat) :
    t.keyNibble i = s.keyNibble i := by
  unfold State.keyNibble; rw [hk, hb]

theorem State.key_congr {s t : State} (hk : t.klen = s.klen) (hb : t.kbuf = s.kbuf) : t.key = s.key := by
  unfold State.key; rw [hk]; exact List.map_congr_left fun i _ => State.keyNibble_congr hk hb i

theorem State.hmacRequest_congr {s t : State} (hk : t.klen = s.klen) (hb : t.kbuf = s.kbuf) (hc : t.ctr = s.ctr) :
    t.hmacRequest = s.hmacRequest := by
  unfold State.hmacRequest; rw [hk, hc, State.key_congr hk hb]

@[simp] theorem State.hasError_respond (s : State) (st : BitVec 8) (data : Word64) (c : ErrorCause) :
    (s.respond st data).hasError c = s.hasError c := rfl

/-- Raising an error sets its own flag and leaves every other flag as it was (R39, R241). -/
theorem State.hasError_raise (s : State) (c d : ErrorCause) (info : Word64) :
    (s.raise c info).hasError d = (s.hasError d || c == d) := by
  simp only [State.hasError, State.raise_er]
  generalize s.er = e
  revert e
  cases c <;> cases d <;> decide

end Sys2Proof.Machine
end

