-- ==== Sys2Proof/Laws/Ops.lean ====
section
/-! SUPPORT. One lemma for each shared operation that says once what it can do. -/

namespace Sys2Proof.Machine

/-! ### The repacker -/

/-- An append writes one cell, or two when the residue is three bits (R115 (b)). -/
theorem newNibbles_length (s : State) (v : BitVec 5) : (newNibbles s.accn s.accb v).length = s.appendCount := by
  unfold newNibbles State.appendCount
  by_cases h : s.accn.toNat + 5 < 8 <;> simp [h]

/-- The residue's five new bits go into whole nibbles and the new residue (R115 (a)). -/
theorem appendCount_bits (s : State) : 4 * s.appendCount + (newAccn s.accn).toNat = s.accn.toNat + 5 := by
  have h : s.accn.toNat < 4 := s.accn.isLt
  unfold State.appendCount newAccn
  simp only []
  split
  · simp only [BitVec.toNat_ofNat]; omega
  · simp only [BitVec.toNat_ofNat]; omega

theorem appendCount_le (s : State) : s.appendCount ≤ 2 := by unfold State.appendCount; split <;> decide

/-- The new residue has no bit beyond its own length (R27 (c)). -/
theorem newAccb_lt (accn : BitVec 2) (accb : BitVec 3) (v : BitVec 5) :
    (newAccb accn accb v).toNat < 2 ^ (newAccn accn).toNat := by
  have h : accn.toNat < 4 := accn.isLt
  unfold newAccb newAccn
  simp only []
  split
  · have e : accn.toNat + 5 - 4 = accn.toNat + 1 := by omega
    rw [e, BitVec.toNat_ofNat, BitVec.toNat_ofNat, Nat.mod_eq_of_lt (b := 2 ^ 2) (by omega)]
    have hlt : (groupBits accb v).toNat % 2 ^ (accn.toNat + 1) < 2 ^ (accn.toNat + 1) := Nat.mod_lt _ (by positivity)
    exact Nat.lt_of_le_of_lt (Nat.mod_le _ _) hlt
  · decide

theorem hasRoom_iff (s : State) : s.hasRoom = true ↔ s.klen.toNat + s.appendCount ≤ s.cfg.kcap := by
  unfold State.hasRoom; exact decide_eq_true_iff

/-- Where an append fits, the new `KLEN` is the old one and the cells written, with no wrap. -/
theorem append_klen_toNat {s : State} (v : BitVec 5) (h : s.hasRoom = true) :
    (s.append v).klen.toNat = s.klen.toNat + s.appendCount := by
  have hm : s.cfg.maxch.toNat < 2 ^ 16 := s.cfg.maxch.isLt
  have hc := appendCount_le s
  rw [hasRoom_iff, Params.kcap] at h
  rw [State.append_klen, newNibbles_length, BitVec.toNat_add, BitVec.toNat_ofNat]
  omega

/-- An open, unfilled decoder that meets the invariant has the cells of its next append (R115 (e)). -/
theorem hasRoom_of_inv {s : State} (h : s.Inv) (ho : s.kdone = false) (hn : s.nch ≠ s.cfg.maxch) :
    s.hasRoom = true := by
  have h1 := h.openCount ho
  have h2 := h.nchLe
  have h3 : s.nch.toNat ≠ s.cfg.maxch.toNat := fun e => hn (BitVec.eq_of_toNat_eq e)
  have h4 := appendCount_bits s
  rw [hasRoom_iff, Params.kcap]
  omega

/-! ### Values of the units -/

/-- No counter exceeds `floor((2^64 - 1) / 30)` (R144). -/
theorem counterOf_le (cfg : Params) (e : Word64) : (counterOf cfg e).toNat ≤ (2 ^ 64 - 1) / 30 := by
  have h : (e >>> cfg.frac.toNat).toNat < 2 ^ 64 := (e >>> cfg.frac.toNat).isLt
  unfold counterOf Config.step
  rw [BitVec.toNat_ofNat]
  omega

/-- The counter as a number: the division does not wrap (R144). -/
theorem counterOf_toNat (cfg : Params) (e : Word64) :
    (counterOf cfg e).toNat = e.toNat / 2 ^ cfg.frac.toNat / 30 := by
  have h : e.toNat < 2 ^ 64 := e.isLt
  have h2 : e.toNat / 2 ^ cfg.frac.toNat ≤ e.toNat := Nat.div_le_self _ _
  unfold counterOf Config.step
  rw [BitVec.toNat_ofNat, BitVec.toNat_ushiftRight, Nat.shiftRight_eq_div_pow]
  exact Nat.mod_eq_of_lt (by omega)

/-- The mask clears bit 31 (R183). -/
theorem truncMask_top (w : BitVec 32) : (truncMask w).getLsbD 31 = false := by
  simp [truncMask, Config.mask31]

/-- A decimal digit is at most 9 (R185). -/
theorem decimalDigit_lt (r k : Nat) : decimalDigit r k < 10 := Nat.mod_lt _ (by decide)

/-- The registers with a number are those numbered 0x00 to 0x0D (R41). -/
theorem reg_none_iff (s : State) (n : BitVec 8) : s.reg n = none ↔ 0x0D < n.toNat := by
  unfold State.reg
  constructor
  · intro h
    by_contra hn
    have hle : n.toNat ≤ 13 := by omega
    interval_cases n.toNat <;> simp at h
  · intro h
    split <;> first | omega | rfl

/-! ### The sticky flags as bits of `ER` (R39) -/

/-- The flag of a cause is set when its bit of `ER` is. -/
theorem hasError_bit (s : State) (c : ErrorCause) (k : Nat) (hk : k < 6) (h : c.flag = BitVec.twoPow 6 k) :
    s.hasError c = s.er.getLsbD k := by
  unfold State.hasError
  rw [h]
  generalize s.er = e
  clear h
  revert e k
  decide

theorem hasError_echr (s : State) : s.hasError .invalidCharacter = s.er.getLsbD 0 := hasError_bit s _ 0 (by decide) rfl

theorem hasError_esec (s : State) : s.hasError .invalidSecret = s.er.getLsbD 1 := hasError_bit s _ 1 (by decide) rfl

theorem hasError_eclk (s : State) : s.hasError .clockError = s.er.getLsbD 2 := hasError_bit s _ 2 (by decide) rfl

theorem hasError_eovf (s : State) : s.hasError .keyOverflow = s.er.getLsbD 3 := hasError_bit s _ 3 (by decide) rfl

theorem hasError_eseq (s : State) : s.hasError .sequenceError = s.er.getLsbD 4 := hasError_bit s _ 4 (by decide) rfl

theorem hasError_eill (s : State) : s.hasError .illegalCommand = s.er.getLsbD 5 := hasError_bit s _ 5 (by decide) rfl

/-! ### The ports -/

/-- What a step finds at the command port (R68, R166, R271). -/
theorem fetch_cases (s : State) :
    (∃ rest, s.host = .reset :: rest ∧ s.fetch = .reset s.popHost) ∨
    (s.hmacWait = true ∧ (s.fetch = .waiting s ∨ s.fetch = .waiting s.popHost)) ∨
    (s.hmacWait = false ∧ (s.fetch = .idle s ∨ s.fetch = .idle s.popHost)) ∨
    (∃ w rest, s.host = .command w :: rest ∧ s.hmacWait = false ∧ s.fetch = .word w s.popHost) := by
  unfold State.fetch
  rcases hh : s.host with _ | ⟨e, rest⟩
  · cases hw : s.hmacWait <;> simp
  · cases e <;> cases hw : s.hmacWait <;> simp

@[simp] theorem clockNow_cons {s : State} {c : ClockSample} {rest : List ClockSample} (h : s.clock = c :: rest) :
    s.clockNow = c := by unfold State.clockNow; rw [h]

@[simp] theorem hmacShown_cons {s : State} {a : Option HmacReply} {rest : List (Option HmacReply)}
    (h : s.answers = a :: rest) : s.hmacShown = a := by unfold State.hmacShown; rw [h]

theorem clockTaken_cons {s : State} {c : ClockSample} {rest : List ClockSample} (h : s.clock = c :: rest) :
    s.clockTaken = { s with clock := rest } := by unfold State.clockTaken; rw [h]

theorem answerTaken_cons {s : State} {a : Option HmacReply} {rest : List (Option HmacReply)}
    (h : s.answers = a :: rest) : s.answerTaken = { s with answers := rest } := by unfold State.answerTaken; rw [h]

/-- R160 step 5. -/
theorem takeReply_refused {s : State} {r : HmacReply} (hk : r.kerr = true) (ho : s.cfg.oddKey = .error) :
    s.takeReply r = s.waitOver.dropDigest.raise .invalidSecret 0#64 := if_pos ⟨hk, ho⟩

/-- R160 step 6. -/
theorem takeReply_latched {s : State} {r : HmacReply} (h : ¬(r.kerr = true ∧ s.cfg.oddKey = .error)) :
    s.takeReply r = (s.waitOver.latchDigest r).respond statusOk ((BitVec.ofBool r.kerr).setWidth 64) := if_neg h

theorem pollHmac_none {s : State} (h : s.hmacShown = none) : s.pollHmac = s.answerTaken := by
  unfold State.pollHmac; rw [h]

theorem pollHmac_some {s : State} {r : HmacReply} (h : s.hmacShown = some r) :
    s.pollHmac = s.answerTaken.takeReply r := by
  unfold State.pollHmac; rw [h]

/-- What the reply does when it has come (R160 steps 5 and 6). -/
theorem takeReply_cases (s : State) (r : HmacReply) :
    (r.kerr = true ∧ s.cfg.oddKey = .error ∧ s.takeReply r = s.waitOver.dropDigest.raise .invalidSecret 0#64) ∨
    (¬(r.kerr = true ∧ s.cfg.oddKey = .error) ∧
      s.takeReply r = (s.waitOver.latchDigest r).respond statusOk ((BitVec.ofBool r.kerr).setWidth 64)) := by
  unfold State.takeReply
  by_cases h : r.kerr = true ∧ s.cfg.oddKey = .error
  · exact .inl ⟨h.1, h.2, if_pos h⟩
  · exact .inr ⟨h, if_neg h⟩

/-- What one look at the HMAC port does (R166). -/
theorem pollHmac_cases (s : State) :
    (s.hmacShown = none ∧ s.pollHmac = s.answerTaken) ∨
    (∃ r, s.hmacShown = some r ∧ s.pollHmac = s.answerTaken.takeReply r) := by
  unfold State.pollHmac
  cases h : s.hmacShown with
  | none => exact .inl ⟨rfl, rfl⟩
  | some r => exact .inr ⟨r, rfl, rfl⟩

end Sys2Proof.Machine
end

