-- ==== Sys2Proof/Laws/Exec.lean ====
section
/-! SUPPORT. For each command with several outcomes, one equation per outcome and one inversion lemma; for the step, one
inversion lemma: what a next state can be. -/

namespace Sys2Proof.Machine

/-! ### One equation per outcome -/

theorem execRdreg_reserved {n : BitVec 8} {s : State} (h : 0x0D < n.toNat) :
    execRdreg n s = .next (s.raise .illegalCommand 0#64) := by
  unfold execRdreg; rw [(reg_none_iff s n).mpr h]

theorem execB32ch_closed {c : Byte} {s : State} (h : s.kdone = true) :
    execB32ch c s = .next (s.raise .sequenceError 0#64) := if_pos h

/-- The outcome of an open decoder, an invalid character apart. -/
theorem execB32ch_valid {c : Byte} {s : State} {v : BitVec 5} (h : s.kdone = false) (hv : charIndex c = some v) :
    execB32ch c s =
      if s.hasError .keyOverflow || s.nch == s.cfg.maxch then .next (s.raise .keyOverflow (c.setWidth 64))
      else if s.hasError .invalidCharacter then .next (s.respond statusOk (v.setWidth 64))
      else if s.hasRoom then .next ((s.append v).respond statusOk (v.setWidth 64))
      else .fault .keyCellAbsent := by
  unfold execB32ch
  rw [if_neg (by rw [h]; decide), hv]

theorem execB32ch_invalid {c : Byte} {s : State} (h : s.kdone = false) (hv : charIndex c = none) :
    execB32ch c s = .next (s.raise .invalidCharacter (c.setWidth 64)) := by
  unfold execB32ch
  rw [if_neg (by rw [h]; decide), hv]

theorem execB32ch_overflow {c : Byte} {s : State} {v : BitVec 5} (h : s.kdone = false) (hv : charIndex c = some v)
    (ho : s.hasError .keyOverflow = true ∨ s.nch = s.cfg.maxch) :
    execB32ch c s = .next (s.raise .keyOverflow (c.setWidth 64)) := by
  rw [execB32ch_valid h hv]; exact if_pos (by simpa using ho)

theorem execB32ch_poisoned {c : Byte} {s : State} {v : BitVec 5} (h : s.kdone = false) (hv : charIndex c = some v)
    (ho : s.hasError .keyOverflow = false) (hn : s.nch ≠ s.cfg.maxch) (he : s.hasError .invalidCharacter = true) :
    execB32ch c s = .next (s.respond statusOk (v.setWidth 64)) := by
  rw [execB32ch_valid h hv, if_neg (by simp [ho, hn])]; exact if_pos he

theorem execB32ch_append {c : Byte} {s : State} {v : BitVec 5} (h : s.kdone = false) (hv : charIndex c = some v)
    (ho : s.hasError .keyOverflow = false) (hn : s.nch ≠ s.cfg.maxch) (he : s.hasError .invalidCharacter = false)
    (hr : s.hasRoom = true) :
    execB32ch c s = .next ((s.append v).respond statusOk (v.setWidth 64)) := by
  rw [execB32ch_valid h hv, if_neg (by simp [ho, hn]), if_neg (by simp [he])]; exact if_pos hr

theorem execB32end_closed {s : State} (h : s.kdone = true) :
    execB32end s = .next (s.raise .sequenceError 0#64) := if_pos h

theorem execB32end_unusable {s : State} (h : s.kdone = false) (hu : s.keyUnusable = true) :
    execB32end s = .next (s.closeDecoder.wipeKey.raise .invalidSecret 0#64) := by
  unfold execB32end; rw [if_neg (by rw [h]; decide)]; exact if_pos hu

theorem execB32end_good {s : State} (h : s.kdone = false) (hu : s.keyUnusable = false) :
    execB32end s = .next (s.closeDecoder.respond statusOk (s.klen.setWidth 64)) := by
  unfold execB32end; rw [if_neg (by rw [h]; decide)]; exact if_neg (by rw [hu]; decide)

theorem keyUnusable_iff (s : State) : s.keyUnusable = true ↔
    s.er.getLsbD 0 = true ∨ s.er.getLsbD 3 = true ∨ s.klen = 0#17 ∨
      (s.cfg.oddKey = .error ∧ s.klen.getLsbD 0 = true) := by
  simp only [State.keyUnusable, hasError_echr, hasError_eovf, Bool.or_eq_true, Bool.and_eq_true, beq_iff_eq, or_assoc]

theorem execKeyrd_open {b : BitVec 16} {s : State} (h : s.kdone = false) :
    execKeyrd b s = .next (s.raise .sequenceError 0#64) := if_pos h

theorem execKeyrd_invalid {b : BitVec 16} {s : State} (h : s.kdone = true) (he : s.hasError .invalidSecret = true) :
    execKeyrd b s = .next (s.respond ErrorCause.invalidSecret.status 0#64) := by
  unfold execKeyrd; rw [if_neg (by rw [h]; decide)]; exact if_pos he

theorem execKeyrd_read {b : BitVec 16} {s : State} (h : s.kdone = true) (he : s.hasError .invalidSecret = false) :
    execKeyrd b s = .next (s.respond statusOk (BitVec.ofNat 64 (s.memRead (16 * b.toNat) 16))) := by
  unfold execKeyrd; rw [if_neg (by rw [h]; decide)]; exact if_neg (by rw [he]; decide)

theorem execCtrnow_ok {s : State} (h : s.clockNow.ok = true) :
    execCtrnow s = .next (s.clockTaken.takeEpoch s.clockNow.t) := congrArg _ (if_pos h)

theorem execCtrnow_fails {s : State} (h : s.clockNow.ok = false) :
    execCtrnow s = .next (s.clockTaken.dropCounter.dropDigest.raise .clockError 0#64) :=
  congrArg _ (if_neg (by rw [h]; decide))

theorem execHmac_open {s : State} (h : s.kdone = false) :
    execHmac s = .next (s.raise .sequenceError 0#64) := if_pos h

theorem execHmac_invalid {s : State} (h : s.kdone = true) (he : s.hasError .invalidSecret = true) :
    execHmac s = .next (s.respond ErrorCause.invalidSecret.status 0#64) := by
  unfold execHmac; rw [if_neg (by rw [h]; decide)]; exact if_pos he

theorem execHmac_noCounter {s : State} (he : s.hasError .invalidSecret = false) (hc : s.cvalid = false) :
    execHmac s = .next (s.raise .sequenceError 0#64) := by
  unfold execHmac
  cases h : s.kdone
  · exact if_pos rfl
  · rw [if_neg (by decide), if_neg (by rw [he]; decide)]; exact if_pos hc

theorem execHmac_asks {s : State} (h : s.kdone = true) (he : s.hasError .invalidSecret = false)
    (hc : s.cvalid = true) : execHmac s = .next s.sendRequest.pollHmac := by
  unfold execHmac
  rw [if_neg (by rw [h]; decide), if_neg (by rw [he]; decide)]
  exact if_neg (by rw [hc]; decide)

theorem execTrunc_noDigest {s : State} (h : s.dvalid = false) :
    execTrunc s = .next (s.raise .sequenceError 0#64) := if_pos h

theorem execTrunc_code {s : State} (h : s.dvalid = true) :
    execTrunc s = .next (s.latchCode.respond statusOk (s.latchCode.code.setWidth 64)) := if_neg (by rw [h]; decide)

/-! ### Inversion: what a next state can be -/

/-- `RDREG` (R203). -/
theorem execRdreg_cases {n : BitVec 8} {s t : State} (h : execRdreg n s = .next t) :
    (∃ v, s.reg n = some v ∧ t = s.respond statusOk v) ∨
    (s.reg n = none ∧ t = s.raise .illegalCommand 0#64) := by
  unfold execRdreg at h
  split at h <;> cases h
  · exact .inl ⟨_, ‹_›, rfl⟩
  · exact .inr ⟨‹_›, rfl⟩

/-- `B32CH` (R115, R251). -/
theorem execB32ch_cases {c : Byte} {s t : State} (h : execB32ch c s = .next t) :
    (s.kdone = true ∧ t = s.raise .sequenceError 0#64) ∨
    (s.kdone = false ∧ charIndex c = none ∧ t = s.raise .invalidCharacter (c.setWidth 64)) ∨
    (∃ v, s.kdone = false ∧ charIndex c = some v ∧ (s.hasError .keyOverflow = true ∨ s.nch = s.cfg.maxch) ∧
      t = s.raise .keyOverflow (c.setWidth 64)) ∨
    (∃ v, s.kdone = false ∧ charIndex c = some v ∧ s.hasError .keyOverflow = false ∧ s.nch ≠ s.cfg.maxch ∧
      s.hasError .invalidCharacter = true ∧ t = s.respond statusOk (v.setWidth 64)) ∨
    (∃ v, s.kdone = false ∧ charIndex c = some v ∧ s.hasError .keyOverflow = false ∧ s.nch ≠ s.cfg.maxch ∧
      s.hasError .invalidCharacter = false ∧ s.hasRoom = true ∧
      t = (s.append v).respond statusOk (v.setWidth 64)) := by
  unfold execB32ch at h
  split at h
  · cases h; exact .inl ⟨‹_›, rfl⟩
  · next hk =>
    have hk : s.kdone = false := by simpa using hk
    split at h
    · cases h; exact .inr (.inl ⟨hk, ‹_›, rfl⟩)
    · next v hv =>
      split at h
      · next ho => cases h; exact .inr (.inr (.inl ⟨v, hk, hv, by simpa using ho, rfl⟩))
      · next ho =>
        simp only [Bool.or_eq_true, beq_iff_eq, not_or, Bool.not_eq_true] at ho
        split at h
        · cases h; exact .inr (.inr (.inr (.inl ⟨v, hk, hv, ho.1, ho.2, ‹_›, rfl⟩)))
        · next he =>
          split at h
          · cases h; exact .inr (.inr (.inr (.inr ⟨v, hk, hv, ho.1, ho.2, by simpa using he, ‹_›, rfl⟩)))
          · cases h

/-- `B32END` (R117). -/
theorem execB32end_cases {s t : State} (h : execB32end s = .next t) :
    (s.kdone = true ∧ t = s.raise .sequenceError 0#64) ∨
    (s.kdone = false ∧ s.keyUnusable = true ∧ t = s.closeDecoder.wipeKey.raise .invalidSecret 0#64) ∨
    (s.kdone = false ∧ s.keyUnusable = false ∧ t = s.closeDecoder.respond statusOk (s.klen.setWidth 64)) := by
  unfold execB32end at h
  split at h
  · cases h; exact .inl ⟨‹_›, rfl⟩
  · next hk =>
    split at h <;> cases h
    · exact .inr (.inl ⟨by simpa using hk, ‹_›, rfl⟩)
    · next hu => exact .inr (.inr ⟨by simpa using hk, by simpa using hu, rfl⟩)

/-- `KEYRD` (R118). -/
theorem execKeyrd_cases {b : BitVec 16} {s t : State} (h : execKeyrd b s = .next t) :
    (s.kdone = false ∧ t = s.raise .sequenceError 0#64) ∨
    (s.kdone = true ∧ s.hasError .invalidSecret = true ∧ t = s.respond ErrorCause.invalidSecret.status 0#64) ∨
    (s.kdone = true ∧ s.hasError .invalidSecret = false ∧
      t = s.respond statusOk (BitVec.ofNat 64 (s.memRead (16 * b.toNat) 16))) := by
  unfold execKeyrd at h
  split at h
  · cases h; exact .inl ⟨‹_›, rfl⟩
  · next hk =>
    split at h <;> cases h
    · exact .inr (.inl ⟨by simpa using hk, ‹_›, rfl⟩)
    · next he => exact .inr (.inr ⟨by simpa using hk, by simpa using he, rfl⟩)

/-- `CTRNOW` (R146). -/
theorem execCtrnow_cases {s t : State} (h : execCtrnow s = .next t) :
    (s.clockNow.ok = true ∧ t = s.clockTaken.takeEpoch s.clockNow.t) ∨
    (s.clockNow.ok = false ∧ t = s.clockTaken.dropCounter.dropDigest.raise .clockError 0#64) := by
  unfold execCtrnow at h
  split at h <;> cases h
  · exact .inl ⟨‹_›, rfl⟩
  · next hk => exact .inr ⟨by simpa using hk, rfl⟩

/-- `HMAC` (R160). -/
theorem execHmac_cases {s t : State} (h : execHmac s = .next t) :
    ((s.kdone = false ∨ (s.hasError .invalidSecret = false ∧ s.cvalid = false)) ∧
      t = s.raise .sequenceError 0#64) ∨
    (s.kdone = true ∧ s.hasError .invalidSecret = true ∧ t = s.respond ErrorCause.invalidSecret.status 0#64) ∨
    (s.kdone = true ∧ s.hasError .invalidSecret = false ∧ s.cvalid = true ∧ t = s.sendRequest.pollHmac) := by
  unfold execHmac at h
  split at h
  · cases h; exact .inl ⟨.inl ‹_›, rfl⟩
  · next hk =>
    split at h
    · cases h; exact .inr (.inl ⟨by simpa using hk, ‹_›, rfl⟩)
    · next he =>
      split at h <;> cases h
      · exact .inl ⟨.inr ⟨by simpa using he, ‹_›⟩, rfl⟩
      · next hc => exact .inr (.inr ⟨by simpa using hk, by simpa using he, by simpa using hc, rfl⟩)

/-- `TRUNC` (R180). -/
theorem execTrunc_cases {s t : State} (h : execTrunc s = .next t) :
    (s.dvalid = false ∧ t = s.raise .sequenceError 0#64) ∨
    (s.dvalid = true ∧ t = s.latchCode.respond statusOk (s.latchCode.code.setWidth 64)) := by
  unfold execTrunc at h
  split at h <;> cases h
  · exact .inl ⟨‹_›, rfl⟩
  · next hk => exact .inr ⟨by simpa using hk, rfl⟩

/-- No command is refused: every constructor has its meaning. -/
theorem exec_not_refused (i : Instr) (s : State) (r : Refusal) : exec i s ≠ .refused r := by
  cases i <;> simp only [exec, execNop, execSrst, execErclr, execRdreg, execB32clr, execB32ch, execB32end, execKeyrd,
    execCtrset, execCtrnow, execHmac, execTrunc] <;> (try split) <;> (try split) <;> (try split) <;> (try split) <;>
    (try split) <;> simp

/-- What one step can lead to. -/
theorem step_cases {s t : State} (h : step s = .next t) :
    (∃ rest, s.host = .reset :: rest ∧ t = s.popHost.hardReset) ∨
    (s.hmacWait = true ∧ (t = s.pollHmac ∨ t = s.popHost.pollHmac)) ∨
    (s.hmacWait = false ∧ (t = s ∨ t = s.popHost)) ∨
    (∃ w rest e, s.host = .command w :: rest ∧ s.hmacWait = false ∧ decode w = .error e ∧ t = s.popHost.takeIllegal) ∨
    (∃ w rest i, s.host = .command w :: rest ∧ s.hmacWait = false ∧ decode w = .ok i ∧
      exec i s.popHost = .next t) := by
  unfold step at h
  rcases fetch_cases s with ⟨rest, hh, hf⟩ | ⟨hw, hf | hf⟩ | ⟨hw, hf | hf⟩ | ⟨w, rest, hh, hw, hf⟩ <;>
    rw [hf] at h <;> simp only [Host.Outcome.next.injEq] at h
  · exact .inl ⟨rest, hh, h.symm⟩
  · exact .inr (.inl ⟨hw, .inl h.symm⟩)
  · exact .inr (.inl ⟨hw, .inr h.symm⟩)
  · exact .inr (.inr (.inl ⟨hw, .inl h.symm⟩))
  · exact .inr (.inr (.inl ⟨hw, .inr h.symm⟩))
  · cases hd : decode w with
    | error e =>
      rw [hd] at h
      simp only [Host.Outcome.next.injEq] at h
      exact .inr (.inr (.inr (.inl ⟨w, rest, e, hh, hw, hd, h.symm⟩)))
    | ok i =>
      rw [hd] at h
      exact .inr (.inr (.inr (.inr ⟨w, rest, i, hh, hw, hd, h⟩)))

end Sys2Proof.Machine
end

