-- ==== Sys2Proof/Laws/Memory.lean ====
section
/-! SUPPORT. The laws of the key buffer: a read after a write, and that every operation keeps the canonical form. -/

namespace Sys2Proof.Machine

/-- A read of the cell just written gives what was written. -/
theorem Memory.read_write_same (m : Memory) (i : Nat) (v : Nibble) (h : Memory.wf m = true) :
    Memory.read (Memory.write m i v) i = v := by
  induction m with
  | nil => unfold Memory.write; split <;> simp_all [Memory.read]
  | cons c rest ih =>
    obtain ⟨a, x⟩ := c
    have hrest : Memory.wf rest = true := by cases rest <;> simp_all [Memory.wf]
    have above : ∀ (l : Memory) (b : Nat) (y : Nibble), Memory.wf ((b, y) :: l) = true → ∀ j ≤ b, Memory.read l j = 0#4 := by
      intro l
      induction l with
      | nil => intros; rfl
      | cons d l ihl =>
        obtain ⟨b', y'⟩ := d
        intro b y hw j hj
        simp only [Memory.wf, Bool.and_eq_true, decide_eq_true_eq] at hw
        have hne : b' ≠ j := by omega
        simp only [Memory.read, if_neg hne]
        exact ihl b' y' hw.2 j (by omega)
    unfold Memory.write
    split
    · split
      · next hlt hv =>
        have hne : a ≠ i := by omega
        simp only [Memory.read, if_neg hne, hv]
        exact above rest a x h i (by omega)
      · simp [Memory.read]
    · split
      · next _ hia =>
        split
        · next hv => rw [hv]; exact above rest a x h i (by omega)
        · simp [Memory.read]
      · next _ hia =>
        have hne : a ≠ i := fun e => hia e.symm
        simp only [Memory.read, if_neg hne]
        exact ih hrest

/-- A write leaves every other cell alone. -/
theorem Memory.read_write_other (m : Memory) (i j : Nat) (v : Nibble) (h : i ≠ j) :
    Memory.read (Memory.write m i v) j = Memory.read m j := by
  induction m with
  | nil => unfold Memory.write; split <;> simp [Memory.read, h]
  | cons c rest ih =>
    obtain ⟨a, x⟩ := c
    unfold Memory.write
    split
    · split <;> simp [Memory.read, h]
    · split
      · next _ hia => split <;> simp [Memory.read, ← hia, h]
      · simp only [Memory.read, ih]

/-- A cell below the first listed one: a well-formed tail may be headed by it. -/
theorem Memory.wf_cons {a : Nat} {x : Nibble} {m : Memory} :
    Memory.wf ((a, x) :: m) = true ↔ x ≠ 0#4 ∧ Memory.wf m = true ∧ ∀ c ∈ m.head?, a < c.1 := by
  cases m with
  | nil => simp [Memory.wf]
  | cons d l =>
    obtain ⟨b, y⟩ := d
    simp only [Memory.wf, List.head?_cons, Option.mem_some_iff, Bool.and_eq_true, bne_iff_ne, decide_eq_true_eq]
    constructor
    · rintro ⟨⟨hx, hab⟩, hw⟩; exact ⟨hx, hw, by rintro c rfl; exact hab⟩
    · rintro ⟨hx, hw, hab⟩; exact ⟨⟨hx, hab _ rfl⟩, hw⟩

/-- The first index a write can leave in front. -/
theorem Memory.head_write (m : Memory) (i : Nat) (v : Nibble) {b : Nat} (hb : b < i) (h : ∀ c ∈ m.head?, b < c.1)
    (hw : Memory.wf m = true) : ∀ c ∈ (Memory.write m i v).head?, b < c.1 := by
  cases m with
  | nil => unfold Memory.write; split <;> simp [hb]
  | cons d l =>
    obtain ⟨a, x⟩ := d
    have ha : b < a := h (a, x) rfl
    have hl : ∀ c ∈ l.head?, b < c.1 := fun c hc => Nat.lt_trans ha ((Memory.wf_cons.mp hw).2.2 c hc)
    unfold Memory.write
    split
    · split <;> simp [hb, ha]
    · split
      · split
        · exact hl
        · simp [hb]
      · simp [ha]

/-- A write keeps the canonical form. -/
theorem Memory.wf_write (m : Memory) (i : Nat) (v : Nibble) (h : Memory.wf m = true) :
    Memory.wf (Memory.write m i v) = true := by
  induction m with
  | nil =>
    unfold Memory.write
    split
    · rfl
    · next hv => simpa [Memory.wf] using hv
  | cons c rest ih =>
    obtain ⟨a, x⟩ := c
    obtain ⟨hx, hr, hh⟩ := Memory.wf_cons.mp h
    unfold Memory.write
    split
    · next hlt =>
      split
      · exact h
      · next hv => exact Memory.wf_cons.mpr ⟨hv, h, by simpa using hlt⟩
    · next hlt =>
      split
      · next hia =>
        split
        · exact hr
        · next hv => subst hia; exact Memory.wf_cons.mpr ⟨hv, hr, hh⟩
      · next hia =>
        exact Memory.wf_cons.mpr ⟨hx, ih hr, Memory.head_write rest i v (by omega) hh hr⟩

/-- Writing nibbles in a row keeps the canonical form. -/
theorem Memory.wf_writeAll (m : Memory) (i : Nat) (vs : List Nibble) (h : Memory.wf m = true) :
    Memory.wf (Memory.writeAll m i vs) = true := by
  induction vs generalizing m i with
  | nil => exact h
  | cons v rest ih => exact ih _ _ (Memory.wf_write m i v h)

/-- Cells outside a row of written nibbles are left alone. -/
theorem Memory.read_writeAll_other (m : Memory) (i j : Nat) (vs : List Nibble) (h : j < i ∨ i + vs.length ≤ j) :
    Memory.read (Memory.writeAll m i vs) j = Memory.read m j := by
  induction vs generalizing m i with
  | nil => rfl
  | cons v rest ih =>
    simp only [List.length_cons] at h
    rw [Memory.writeAll, ih _ _ (by omega), Memory.read_write_other _ _ _ _ (by omega)]

/-- Cell `i + k` of a row of written nibbles holds the `k`-th of them. -/
theorem Memory.read_writeAll_same (m : Memory) (i k : Nat) (vs : List Nibble) (hw : Memory.wf m = true)
    (h : k < vs.length) : Memory.read (Memory.writeAll m i vs) (i + k) = vs[k] := by
  induction vs generalizing m i k with
  | nil => simp at h
  | cons v rest ih =>
    cases k with
    | zero =>
      rw [Memory.writeAll, Memory.read_writeAll_other _ _ _ _ (by omega)]
      exact Memory.read_write_same m i v hw
    | succ k =>
      have := ih (Memory.write m i v) (i + 1) k (Memory.wf_write m i v hw) (by simpa using h)
      rw [Memory.writeAll, show i + (k + 1) = i + 1 + k by omega, this]
      rfl

/-- No write goes beyond its own cell. -/
theorem Memory.below_write (m : Memory) (i n : Nat) (v : Nibble) (h : Memory.below m n = true) (hi : i < n) :
    Memory.below (Memory.write m i v) n = true := by
  induction m with
  | nil => unfold Memory.write; split <;> simp [Memory.below, hi]
  | cons c rest ih =>
    obtain ⟨a, x⟩ := c
    simp only [Memory.below, List.all_cons, Bool.and_eq_true, decide_eq_true_eq] at h ih ⊢
    unfold Memory.write
    split
    · split <;> simp [h.1, h.2, hi]
    · split
      · split <;> simp [h.2, hi]
      · simp [h.1, ih h.2]

/-- A bound on the listed cells may be raised. -/
theorem Memory.below_mono {m : Memory} {n k : Nat} (h : Memory.below m n = true) (hnk : n ≤ k) :
    Memory.below m k = true := by
  simp only [Memory.below, List.all_eq_true, decide_eq_true_eq] at h ⊢
  exact fun c hc => Nat.lt_of_lt_of_le (h c hc) hnk

/-- Writing nibbles in a row stays below the row's end. -/
theorem Memory.below_writeAll (m : Memory) (i : Nat) (vs : List Nibble) (h : Memory.below m i = true) :
    Memory.below (Memory.writeAll m i vs) (i + vs.length) = true := by
  induction vs generalizing m i with
  | nil => simpa [Memory.writeAll] using h
  | cons v rest ih =>
    have h1 : Memory.below (Memory.write m i v) (i + 1) = true :=
      Memory.below_write m i (i + 1) v (Memory.below_mono h (by omega)) (by omega)
    have := ih _ _ h1
    rwa [show i + 1 + rest.length = i + (v :: rest).length by simp; omega] at this

/-- A cell at or beyond a bound on the listed cells reads 0 (R27 (c)). -/
theorem Memory.read_of_below {m : Memory} {n i : Nat} (h : Memory.below m n = true) (hi : n ≤ i) :
    Memory.read m i = 0#4 := by
  induction m with
  | nil => rfl
  | cons c rest ih =>
    obtain ⟨a, x⟩ := c
    simp only [Memory.below, List.all_cons, Bool.and_eq_true, decide_eq_true_eq] at h ih
    have hne : a ≠ i := by omega
    simp only [Memory.read, if_neg hne]
    exact ih h.2

/-- The key buffer is in its canonical form at reset. -/
theorem Memory.wf_reset : Memory.wf State.reset.kbuf = true := rfl

end Sys2Proof.Machine
end

