-- ==== Sys2Proof/Laws/PerInstr.lean ====
section
/-! SUPPORT. What holds of every command as syntax, one lemma for each constructor: its word carries its opcode and its
argument, and its argument fits its format (R80, R81, R85). -/

namespace Sys2Proof.Laws.EncodedFields

/-- The fields of the word of a command. -/
def Statement (i : Instr) : Prop :=
  opField (encode i) = i.opcode ∧ argField (encode i) = i.arg ∧ i.wellFormed = true

theorem opField_append (op : BitVec 8) (arg : Word64) : opField (op ++ arg) = op := by
  unfold opField
  ext k hk
  rw [BitVec.getElem_extractLsb', ← BitVec.getLsbD_eq_getElem]
  refine (BitVec.getLsbD_append (x := op) (y := arg) (i := 64 + k)).trans ?_
  simp

theorem argField_append (op : BitVec 8) (arg : Word64) : argField (op ++ arg) = arg := by
  unfold argField
  ext k hk
  rw [BitVec.getElem_extractLsb', ← BitVec.getLsbD_eq_getElem, Nat.zero_add]
  refine (BitVec.getLsbD_append (x := op) (y := arg) (i := k)).trans ?_
  simp [hk]

/-- An operand of `k` bits, zero-extended, has no bit above its field. -/
theorem fits_setWidth {f : Format} {k : Nat} (n : BitVec k) (hk : k ≤ f.operandBits) :
    f.fits (n.setWidth 64) = true := by
  simp only [Format.fits, beq_iff_eq]
  apply BitVec.eq_of_toNat_eq
  have h : n.toNat < 2 ^ f.operandBits := Nat.lt_of_lt_of_le n.isLt (Nat.pow_le_pow_right (by decide) hk)
  have h2 : n.toNat % 2 ^ 64 ≤ n.toNat := Nat.mod_le _ _
  rw [BitVec.toNat_ushiftRight, BitVec.toNat_setWidth, Nat.shiftRight_eq_div_pow,
    Nat.div_eq_of_lt (Nat.lt_of_le_of_lt h2 h)]
  rfl

theorem of_fits {i : Instr} (h : i.format.fits i.arg = true) : Statement i :=
  ⟨opField_append _ _, argField_append _ _, h⟩

theorem nop : Statement .nop := of_fits rfl
theorem srst : Statement .srst := of_fits rfl
theorem erclr : Statement .erclr := of_fits rfl
theorem rdreg (n : BitVec 8) : Statement (.rdreg n) := of_fits (fits_setWidth n (Nat.le_refl 8))
theorem b32clr : Statement .b32clr := of_fits rfl
theorem b32ch (c : Byte) : Statement (.b32ch c) := of_fits (fits_setWidth c (Nat.le_refl 8))
theorem b32end : Statement .b32end := of_fits rfl
theorem keyrd (b : BitVec 16) : Statement (.keyrd b) := of_fits (fits_setWidth b (Nat.le_refl 16))
theorem ctrset (e : Word64) : Statement (.ctrset e) := of_fits (by
  have := fits_setWidth (f := .Q) e (Nat.le_refl 64); rwa [BitVec.setWidth_eq] at this)
theorem ctrnow : Statement .ctrnow := of_fits rfl
theorem hmac : Statement .hmac := of_fits rfl
theorem trunc : Statement .trunc := of_fits rfl

end Sys2Proof.Laws.EncodedFields
end

