-- ==== Sys2Proof/Laws/Realisation.lean ====
section
/-! SUPPORT. What the restoring divider and one shift of the double-dabble digits compute. -/

namespace Sys2Proof.Machine

/-- The restoring divider is exact where the quotient fits `k` bits. -/
theorem restoringDivide_eq {d : Nat} (hd : 0 < d) :
    ∀ (k r : Nat), r < d * 2 ^ k → restoringDivide d k r = (r / d, r % d) := by
  intro k
  induction k with
  | zero =>
    intro r h
    rw [pow_zero, mul_one] at h
    rw [restoringDivide, Nat.div_eq_of_lt h, Nat.mod_eq_of_lt h]
  | succ k ih =>
    intro r h
    rw [pow_succ, ← mul_assoc] at h
    unfold restoringDivide
    split
    next hle =>
      have e := ih (r - d * 2 ^ k) (by omega)
      obtain ⟨m, rfl⟩ := Nat.exists_eq_add_of_le hle
      rw [Nat.add_sub_cancel_left] at e ⊢
      rw [e, Nat.mul_add_div hd, Nat.mul_add_mod]
    next hle => exact ih r (by omega)

/-- The number whose decimal digits, lowest first, are given. -/
def digitsValue (ds : List Nat) : Nat := ds.foldr (fun x v => x + 10 * v) 0

/-- One shift keeps decimal digits decimal, keeps their number, and doubles their value where it fits. -/
theorem dabble_value (ds : List Nat) : ∀ c, (∀ x ∈ ds, x < 10) → c < 2 →
    (∀ x ∈ dabble ds c, x < 10) ∧ (dabble ds c).length = ds.length ∧
    (2 * digitsValue ds + c < 10 ^ ds.length → digitsValue (dabble ds c) = 2 * digitsValue ds + c) := by
  induction ds with
  | nil => intro c _ hc; simp [dabble, digitsValue]; omega
  | cons x xs ih =>
    intro c h hc
    have hx := h x (by simp)
    simp only [dabble]
    obtain ⟨a, b, e⟩ := ih ((2 * (if 5 ≤ x then x + 3 else x) + c) / 16) (fun y hy => h y (by simp [hy]))
      (by split <;> omega)
    refine ⟨fun y hy => ?_, congrArg (· + 1) b, fun hv => ?_⟩
    · rcases List.mem_cons.mp hy with rfl | hy
      · split <;> omega
      · exact a y hy
    · simp only [digitsValue, List.foldr_cons, List.length_cons, pow_succ] at *
      rw [e (by split <;> omega)]
      split <;> omega

end Sys2Proof.Machine
end

