-- ==== Sys2Proof/Machine/Assembler.lean ====
section
/-! DEFINITION. The assembler syntax of rule R88: one line of characters to a command word. -/

namespace Sys2Proof.Machine

/-- The operand a line gives. -/
inductive AsmOperand where
  | none
  | number (n : Nat)
  | quoted (c : Nat)
deriving DecidableEq, Repr

/-- The value of a digit in the given base, upper or lower case. -/
def digitValue (base : Nat) (c : Char) : Option Nat :=
  let n := c.toNat
  let v := if 48 ≤ n ∧ n ≤ 57 then n - 48 else if 65 ≤ n ∧ n ≤ 70 then n - 55 else if 97 ≤ n ∧ n ≤ 102 then n - 87 else base
  if v < base then some v else .none

/-- A numeral in the given base, read onto what is already read. -/
def numeralFrom (base acc : Nat) : List Char → Option Nat
  | [] => some acc
  | c :: rest =>
    match digitValue base c with
    | some v => numeralFrom base (base * acc + v) rest
    | .none => .none

/-- A number: hexadecimal with `0x`, else decimal; at least one digit (R88). -/
def numeral : List Char → Option Nat
  | '0' :: 'x' :: c :: rest => numeralFrom 16 0 (c :: rest)
  | c :: rest => numeralFrom 10 0 (c :: rest)
  | [] => .none

/-- Blanks before the next word. -/
def skipBlanks (cs : List Char) : List Char := cs.dropWhile (· == ' ')

/-- The characters of a word: all but a blank and the start of a comment. -/
def inWord (c : Char) : Bool := c != ' ' && c != ';'

/-- What follows the last word of a line: nothing, or a comment (R88). -/
def lineEnds (cs : List Char) : Bool :=
  match skipBlanks cs with
  | [] => true
  | c :: _ => c == ';'

/-- The operand part of a line: nothing, a quoted printable ASCII character, or a number (R88). -/
def asmOperand (cs : List Char) : Option AsmOperand :=
  if lineEnds cs then some .none
  else
    let word := skipBlanks cs
    match word with
    | q :: c :: q' :: rest =>
      if q.toNat = 39 ∧ q'.toNat = 39 then
        if 32 ≤ c.toNat ∧ c.toNat ≤ 126 ∧ lineEnds rest = true then some (.quoted c.toNat) else .none
      else if lineEnds (word.dropWhile inWord) then (numeral (word.takeWhile inWord)).map .number else .none
    | _ => if lineEnds (word.dropWhile inWord) then (numeral (word.takeWhile inWord)).map .number else .none

/-- A command of format `N`: it takes no operand. -/
def asmPlain (o : AsmOperand) (i : Instr) : Option Instr := if o = .none then some i else .none

/-- A command whose operand is a number of `bits` bits. -/
def asmNumber (bits : Nat) (o : AsmOperand) (mk : Nat → Instr) : Option Instr :=
  match o with
  | .number n => if n < 2 ^ bits then some (mk n) else .none
  | _ => .none

/-- `B32CH`: a number of 8 bits or a quoted character, meaning its code (R88). -/
def asmChar (o : AsmOperand) : Option Instr :=
  match o with
  | .quoted c => some (.b32ch (BitVec.ofNat 8 c))
  | o => asmNumber 8 o fun n => .b32ch (BitVec.ofNat 8 n)

/-- The command a mnemonic in capitals names, with its operand (R85, R88). -/
def asmCommand (name : List Char) (o : AsmOperand) : Option Instr :=
  if name = ['N', 'O', 'P'] then asmPlain o .nop
  else if name = ['S', 'R', 'S', 'T'] then asmPlain o .srst
  else if name = ['E', 'R', 'C', 'L', 'R'] then asmPlain o .erclr
  else if name = ['R', 'D', 'R', 'E', 'G'] then asmNumber 8 o fun n => .rdreg (BitVec.ofNat 8 n)
  else if name = ['B', '3', '2', 'C', 'L', 'R'] then asmPlain o .b32clr
  else if name = ['B', '3', '2', 'C', 'H'] then asmChar o
  else if name = ['B', '3', '2', 'E', 'N', 'D'] then asmPlain o .b32end
  else if name = ['K', 'E', 'Y', 'R', 'D'] then asmNumber 16 o fun n => .keyrd (BitVec.ofNat 16 n)
  else if name = ['C', 'T', 'R', 'S', 'E', 'T'] then asmNumber 64 o fun n => .ctrset (BitVec.ofNat 64 n)
  else if name = ['C', 'T', 'R', 'N', 'O', 'W'] then asmPlain o .ctrnow
  else if name = ['H', 'M', 'A', 'C'] then asmPlain o .hmac
  else if name = ['T', 'R', 'U', 'N', 'C'] then asmPlain o .trunc
  else .none

/-- The word of one line (R88, assumption 12); a line that is no command has none. -/
def assemble (line : List Char) : Option CmdWord :=
  let cs := skipBlanks line
  match asmOperand (cs.dropWhile inWord) with
  | some o => (asmCommand (cs.takeWhile inWord) o).map encode
  | .none => .none

end Sys2Proof.Machine
end

