-- ==== Sys2Proof/Tests/Slice0.lean ====
section
/-! SUPPORT. Tests whose expected values come from spec/95_test_vectors.md and spec/96_test_vectors_more.md, and for every
statement with hypotheses a state and operands that meet them. -/

namespace Sys2Proof.Tests

open Sys2Proof Sys2Proof.Machine

/-! ### Helpers -/

/-- The command completes and the next state has this property. -/
def after (o : Host.Outcome State Fault Refusal) (p : State → Bool) : Bool :=
  match o with
  | .next t => p t
  | .fault _ => false
  | .refused _ => false

/-- The last response is this status with these data. -/
def answered (st : BitVec 8) (data : Word64) (t : State) : Bool := t.responses.getLast? == some (rspWord st data)

/-- The codes of the characters of a string. -/
def chars (s : String) : List Byte := s.toList.map fun c => BitVec.ofNat 8 c.toNat

/-- An instance with `MAXCH = 4` and `ODDKEY = ERROR`. -/
def strict4 : Params := { maxch := 4#16, frac := 0#6, oddKey := .error }

/-- After `MFR` is fed to the open decoder (spec/96, section 11). -/
def fedMfr : State :=
  { State.reset with accn := 3#2, accb := 1#3, nch := 3#16, klen := 3#17, kbuf := [(0, 6#4), (1, 1#4), (2, 6#4)] }

/-- After `DECODE "MFRGG"` (spec/95, section 1). -/
def keyAbc : State :=
  { State.reset with
    kdone := true, nch := 5#16, klen := 6#17
    kbuf := [(0, 6#4), (1, 1#4), (2, 6#4), (3, 2#4), (4, 6#4), (5, 3#4)] }

/-- After `DECODE "MFR"`: an odd key. -/
def keyOdd : State :=
  { State.reset with kdone := true, nch := 3#16, klen := 3#17, kbuf := [(0, 6#4), (1, 1#4), (2, 6#4)] }

/-- After `DECODE "MFRGG1"` (spec/95, section 2). -/
def keyBad : State := { State.reset with kdone := true, nch := 5#16, er := 0b000011#6 }

/-- `keyAbc` with the counter of epoch 59. -/
def readyToAsk : State := { keyAbc with epoch := 59#64, ctr := 1#64, cvalid := true }

/-- The reply with the digest of spec/95, section 4.1. -/
def replyOf (kerr : Bool) : HmacReply := { digest := 0x1f8698690e02ca16618550ef7f19da8e945b555a#160, kerr := kerr }

/-- `readyToAsk` with the `HMAC` command in progress. -/
def asking : State := { readyToAsk with requests := [readyToAsk.hmacRequest], hmacWait := true }

/-- The digest of spec/95, section 4.1, latched. -/
def withDigest : State :=
  { readyToAsk with
    requests := [readyToAsk.hmacRequest], digest := 0x1f8698690e02ca16618550ef7f19da8e945b555a#160, dvalid := true }

/-- The same digest with `kerr = 1`. -/
def withKerr : State := { withDigest with kerr := true }

/-! ### Well-formedness: the ill-formed is refused -/

theorem test_format_N_refuses_bit0 : Format.fits .N 1#64 = false := by decide
theorem test_format_B_refuses_bit8 : Format.fits .B 0x14D#64 = false := by decide
theorem test_format_H_refuses_bit16 : Format.fits .H 0x10000#64 = false := by decide
theorem test_format_Q_takes_all : Format.fits .Q 0xFFFFFFFFFFFFFFFF#64 = true := by decide
theorem test_params_refuse_no_characters :
    Params.wellFormed { maxch := 0#16, frac := 0#6, oddKey := .fallback } = false := by decide
theorem test_params_refuse_33_fraction_bits :
    Params.wellFormed { maxch := 128#16, frac := 33#6, oddKey := .fallback } = false := by decide
theorem test_params_defaults : Config.defaults.wellFormed = true := by decide
theorem test_command_wellFormed : (Instr.keyrd 0xFFFF#16).wellFormed = true := by decide

/-! ### Decoding, by words written out from R85 (`op` in bits 71:64) -/

theorem test_decode_system :
    decode (0x00#8 ++ 0#64) = .ok .nop ∧ decode (0x01#8 ++ 0#64) = .ok .srst ∧ decode (0x02#8 ++ 0#64) = .ok .erclr ∧
    decode 0x03000000000000000D#72 = .ok (.rdreg 0x0D#8) := by decide
theorem test_decode_base32 :
    decode 0x100000000000000000#72 = .ok .b32clr ∧ decode 0x110000000000000052#72 = .ok (.b32ch 0x52#8) ∧
    decode 0x120000000000000000#72 = .ok .b32end ∧ decode 0x13000000000000FFFF#72 = .ok (.keyrd 0xFFFF#16) := by decide
theorem test_decode_counter :
    decode 0x20FFFFFFFFFFFFFFFF#72 = .ok (.ctrset 0xFFFFFFFFFFFFFFFF#64) ∧
    decode 0x210000000000000000#72 = .ok .ctrnow := by decide
theorem test_decode_digest :
    decode 0x300000000000000000#72 = .ok .hmac ∧ decode 0x400000000000000000#72 = .ok .trunc := by decide
theorem test_encode_ctrset : encode (.ctrset 1111111109#64) = 0x2000000000423A35C5#72 := by decide
theorem test_decode_unused_opcodes :
    ([0x04, 0x05, 0x0F, 0x14, 0x22, 0x31, 0x41, 0xFF].all fun op =>
      decode (BitVec.ofNat 8 op ++ 0#64) == .error .unusedOpcode) = true := by decide
theorem test_decode_reserved_bits :
    decode 0x000000000000000001#72 = .error .reservedField ∧ decode 0x120000000000000001#72 = .error .reservedField ∧
    decode 0x010000000000000100#72 = .error .reservedField ∧
    decode 0x130000000000010000#72 = .error .reservedField := by decide
theorem test_decodeTableWord : decodeTableWord 72 0x11000000000000004D = some (.b32ch 0x4D#8) := by decide

/-- The five lines R88 gives. -/
theorem test_assembler :
    assemble "NOP".toList = some 0x000000000000000000#72 ∧
    assemble "B32CH 'M'".toList = some 0x11000000000000004D#72 ∧
    assemble "KEYRD 1".toList = some 0x130000000000000001#72 ∧
    assemble "CTRSET 59".toList = some 0x20000000000000003B#72 ∧
    assemble "RDREG 0x0D".toList = some 0x03000000000000000D#72 := by decide

/-- R88: a comment, and lines that are no command. -/
theorem test_assembler_refuses :
    assemble "RDREG 0x0D ; the code".toList = some 0x03000000000000000D#72 ∧
    assemble "B32CH 256".toList = none ∧ assemble "NOP 1".toList = none ∧ assemble "nop".toList = none := by decide

/-! ### One command each -/

theorem test_nop : after (exec .nop keyBad) (fun t => answered 0x00#8 0#64 t && t.er == 0b000011#6) = true := by decide

/-- spec/96, section 11. -/
theorem test_srst : after (exec .srst { withDigest with er := 0x3F#6 })
    (fun t => answered 0x00#8 0#64 t && t.sr == 0#8 && t.er == 0#6 && t.kbuf == [] && t.ctr == 0#64) = true := by decide

/-- spec/96, section 11: `ER = 0x3F` and `ER = 0x15`. -/
theorem test_erclr :
    after (exec .erclr { State.reset with er := 0x3F#6 }) (fun t => answered 0x00#8 0x3F#64 t && t.er == 0x0B#6) = true ∧
    after (exec .erclr { State.reset with er := 0x15#6 }) (fun t => answered 0x00#8 0x15#64 t && t.er == 0x01#6) = true := by
  decide

theorem test_rdreg_acc : after (exec (.rdreg 0x05#8) fedMfr) (answered 0x00#8 0x13#64) = true := by decide
theorem test_rdreg_cfg :
    after (exec (.rdreg 0x02#8) (State.resetOf { maxch := 128#16, frac := 10#6, oddKey := .error }))
      (answered 0x00#8 0x10A0080#64) = true := by decide

/-- spec/96, section 11. -/
theorem test_b32clr : after (exec .b32clr { keyAbc with er := 0x3F#6 })
    (fun t => answered 0x00#8 0#64 t && t.er == 0x34#6 && !t.kdone && t.kbuf == []) = true := by decide

/-- spec/95, section 1: the fourth character of `MFRGG` appends two nibbles. -/
theorem test_b32ch_two_nibbles : after (exec (.b32ch 0x47#8) fedMfr)
    (fun t => answered 0x00#8 0x6#64 t && t.klen == 5#17 && t.accn == 0#2 && t.nch == 4#16 &&
      t.kbuf == [(0, 6#4), (1, 1#4), (2, 6#4), (3, 2#4), (4, 6#4)]) = true := by decide

/-- spec/95, section 2: the digit 1 is invalid. -/
theorem test_b32ch_invalid : after (exec (.b32ch 0x31#8) fedMfr)
    (fun t => answered 0x01#8 0x31#64 t && t.er == 0x01#6 && t.klen == 3#17) = true := by decide

/-- spec/95, section 1. -/
theorem test_b32end : after (exec .b32end { keyAbc with kdone := false, accn := 1#2 })
    (fun t => answered 0x00#8 0x6#64 t && t.sr == 0x01#8 && t.accn == 0#2 && t.er == 0#6) = true := by decide

/-- spec/95, section 2. -/
theorem test_b32end_poisoned : after (exec .b32end { fedMfr with er := 0x01#6 })
    (fun t => answered 0x02#8 0#64 t && t.er == 0x03#6 && t.klen == 0#17 && t.kbuf == [] && t.sr == 0x01#8) = true := by
  decide

theorem test_keyrd : after (exec (.keyrd 0#16) keyAbc) (answered 0x00#8 0x6162630000000000#64) = true := by decide
theorem test_keyrd_invalid : after (exec (.keyrd 0#16) keyBad) (answered 0x02#8 0#64) = true := by decide

/-- spec/95, section 3: epoch 59 and the greatest operand. -/
theorem test_ctrset :
    after (exec (.ctrset 59#64) State.reset) (answered 0x00#8 1#64) = true ∧
    after (exec (.ctrset 0xFFFFFFFFFFFFFFFF#64) State.reset) (answered 0x00#8 0x0888888888888888#64) = true := by decide

/-- spec/95, section 3, `F = 10`: 59.999 s is still step 1. -/
theorem test_ctrset_fraction :
    after (exec (.ctrset 61439#64) (State.resetOf { maxch := 128#16, frac := 10#6, oddKey := .fallback }))
      (answered 0x00#8 1#64) = true := by decide

theorem test_ctrnow : after (exec .ctrnow { State.reset with clock := [⟨true, 59#64⟩] })
    (fun t => answered 0x00#8 1#64 t && t.epoch == 59#64 && t.cvalid) = true := by decide
theorem test_ctrnow_fails : after (exec .ctrnow { withDigest with clock := [⟨false, 12345#64⟩] })
    (fun t => answered 0x03#8 0#64 t && t.er == 0x04#6 && t.epoch == 59#64 && !t.cvalid && !t.dvalid) = true := by decide

/-- R160, R161: the request carries the key `616263` and counter 1. -/
theorem test_hmac : after (exec .hmac { readyToAsk with answers := [some (replyOf false)] })
    (fun t => answered 0x00#8 0#64 t && t.sr == 0x0D#8 &&
      t.requests == [⟨6#17, [6#4, 1#4, 6#4, 2#4, 6#4, 3#4], 1#64⟩]) = true := by decide
theorem test_hmac_no_counter : after (exec .hmac { keyAbc with er := 0x04#6 })
    (fun t => answered 0x05#8 0#64 t && t.er == 0x14#6 && t.requests == []) = true := by decide

/-- spec/95, section 4.1. -/
theorem test_trunc : after (exec .trunc withDigest)
    (fun t => answered 0x00#8 0x383732393231#64 t && t.offset == 10#4 && t.p == 0x50EF7F19#32 && t.ovalid) = true := by decide
theorem test_trunc_fallback : after (exec .trunc withKerr)
    (fun t => answered 0x00#8 0x393134353337#64 t && t.offset == 0#4) = true := by decide

/-! ### Steps -/

theorem test_step_illegal : after (step { withDigest with host := [.command 0x050000000000000000#72] })
    (fun t => answered 0x06#8 0#64 t && t.er == 0x20#6 && t.dvalid && t.host == []) = true := by decide
theorem test_step_withFetchWord : after (step (State.reset.withFetchWord 72 0x11000000000000004D))
    (fun t => answered 0x00#8 0xC#64 t && t.kbuf == [(0, 6#4)] && t.host == []) = true := by decide
theorem test_step_reset_while_waiting : after (step { asking with host := [.reset] })
    (fun t => !t.hmacWait && !t.kdone && t.responses == []) = true := by decide
theorem test_step_waits : after (step { asking with host := [.command 0#72], answers := [none] })
    (fun t => t.hmacWait && t.responses == [] && t.host == [.command 0#72]) = true := by decide

/-! ### Witnesses: states and operands that meet the hypotheses of the statements -/

theorem witness_EncodeOfDecode : decode 0x13000000000000FFFF#72 = .ok (.keyrd 0xFFFF#16) := by decide

theorem witness_IllegalWordsAreRefused :
    let s : State := { State.reset with host := [.command 0x130000000000010000#72] }
    s.host = .command 0x130000000000010000#72 :: [] ∧ s.hmacWait = false ∧
    ∀ i, decode 0x130000000000010000#72 ≠ .ok i := by
  refine ⟨rfl, rfl, fun i h => ?_⟩
  rw [show decode 0x130000000000010000#72 = .error .reservedField by decide] at h
  cases h

theorem witness_StepRunsDecodedCommand :
    let s : State := { State.reset with host := [.command 0x120000000000000000#72, .idle] }
    s.host = .command 0x120000000000000000#72 :: [.idle] ∧ s.hmacWait = false ∧
    decode 0x120000000000000000#72 = .ok .b32end := by decide

theorem witness_WaitingHmacTakesNoCommand_noReply :
    let s : State := { asking with answers := [none], host := [.idle, .command 0#72] }
    s.hmacWait = true ∧ s.host.head? ≠ some .reset ∧ s.hmacShown = none ∧ s.host.head? = some .idle := by decide
theorem witness_WaitingHmacTakesNoCommand_reply :
    let s : State := { asking with answers := [some (replyOf false)], host := [.command 0#72] }
    s.hmacWait = true ∧ s.host.head? ≠ some .reset ∧ s.hmacShown = some (replyOf false) ∧
    ¬ ((replyOf false).kerr = true ∧ s.cfg.oddKey = .error) := by decide
theorem witness_WaitingHmacTakesNoCommand_kerr :
    let s : State := { asking with cfg := { Config.defaults with oddKey := .error }, answers := [some (replyOf true)] }
    s.hmacWait = true ∧ s.host.head? ≠ some .reset ∧ s.hmacShown = some (replyOf true) ∧
    (replyOf true).kerr = true ∧ s.cfg.oddKey = .error := by decide

theorem witness_HmacHasNoTimeOut :
    let s : State := { asking with answers := [none, none, none], host := [.idle, .command 0#72] }
    s.hmacWait = true ∧ .reset ∉ s.host ∧ s.answers = List.replicate 3 none := by decide

theorem witness_ResetTakesTheResetState_event :
    ({ asking with host := [.reset, .command 0#72] } : State).host = .reset :: [.command 0#72] := rfl
theorem witness_ResetTakesTheResetState_quiet : State.reset.hmacWait = false ∧ State.reset.host = [] := ⟨rfl, rfl⟩

theorem witness_OneResponsePerCommand_response : ∃ t, exec .trunc State.reset = .next t := ⟨_, rfl⟩
theorem witness_OneResponsePerCommand_waiting :
    ∃ t, exec .hmac { readyToAsk with answers := [none] } = .next t ∧ t.hmacWait = true := ⟨_, rfl, rfl⟩

theorem witness_RdregReturnsTheRegister_reserved : 0x0D < (0x0E#8).toNat ∧ 0x0D < (0xFF#8).toNat := by decide

theorem witness_CfgIsConstant : ∃ t, step { asking with host := [.reset] } = .next t := ⟨_, rfl⟩

theorem witness_B32chFollowsItsChecks_closed : keyAbc.kdone = true := rfl
theorem witness_B32chFollowsItsChecks_invalid :
    State.reset.kdone = false ∧ charIndex 0x31#8 = none ∧ charIndex 0x5B#8 = none ∧ charIndex 0xFF#8 = none := by decide
theorem witness_B32chFollowsItsChecks_poisonedOverflow :
    let s : State := { State.reset with er := 0x08#6 }
    s.kdone = false ∧ charIndex 0x41#8 = some 0#5 ∧ s.er.getLsbD 3 = true := by decide
theorem witness_B32chFollowsItsChecks_full :
    let s : State := { State.resetOf strict4 with nch := 4#16 }
    s.kdone = false ∧ charIndex 0x41#8 = some 0#5 ∧ s.er.getLsbD 3 = false ∧ s.nch = s.cfg.maxch := by decide
theorem witness_B32chFollowsItsChecks_poisoned :
    let s : State := { fedMfr with er := 0x01#6 }
    s.kdone = false ∧ charIndex 0x37#8 = some 31#5 ∧ s.er.getLsbD 3 = false ∧ s.nch ≠ s.cfg.maxch ∧
    s.er.getLsbD 0 = true := by decide

/-- The decoder of `fedMfr` after two characters: `ACCN = 2`, the last value with one nibble to write. -/
def fedMf : State := { State.reset with accn := 2#2, accb := 1#3, nch := 2#16, klen := 2#17, kbuf := [(0, 6#4), (1, 1#4)] }

theorem fedMf_inv : fedMf.Inv := by constructor <;> decide
theorem fedMfr_inv : fedMfr.Inv := by constructor <;> decide
theorem keyAbc_inv : keyAbc.Inv := by constructor <;> decide
theorem keyOdd_inv : keyOdd.Inv := by constructor <;> decide
theorem keyBad_inv : keyBad.Inv := by constructor <;> decide
theorem asking_inv : asking.Inv := by constructor <;> decide
theorem withDigest_inv : withDigest.Inv := by constructor <;> decide
theorem reset_inv : State.reset.Inv := by constructor <;> decide

theorem witness_B32chFollowsItsChecks_oneNibble :
    fedMf.kdone = false ∧ charIndex 0x52#8 = some 17#5 ∧ fedMf.er.getLsbD 3 = false ∧ fedMf.nch ≠ fedMf.cfg.maxch ∧
    fedMf.er.getLsbD 0 = false ∧ fedMf.Inv ∧ fedMf.accn.toNat < 3 :=
  ⟨rfl, by decide, by decide, by decide, by decide, fedMf_inv, by decide⟩
theorem witness_B32chFollowsItsChecks_twoNibbles :
    fedMfr.kdone = false ∧ charIndex 0x67#8 = some 6#5 ∧ fedMfr.er.getLsbD 3 = false ∧ fedMfr.nch ≠ fedMfr.cfg.maxch ∧
    fedMfr.er.getLsbD 0 = false ∧ fedMfr.Inv ∧ fedMfr.accn = 3#2 :=
  ⟨rfl, by decide, by decide, by decide, by decide, fedMfr_inv, by decide⟩

theorem witness_PoisonedDecoderGivesNoKey_character :
    let s : State := { fedMfr with er := 0x01#6 }
    s.er.getLsbD 0 = true ∧ s.kdone = false ∧ (.erclr : Instr) ≠ .b32clr ∧ (.erclr : Instr) ≠ .srst ∧
    ∃ t, exec .erclr s = .next t := ⟨rfl, rfl, by decide, by decide, _, rfl⟩
theorem witness_PoisonedDecoderGivesNoKey_overflow :
    let s : State := { fedMfr with er := 0x08#6 }
    s.er.getLsbD 3 = true ∧ s.kdone = false := by decide

theorem witness_B32endJudgesTheKey_closed : keyBad.kdone = true := rfl
theorem witness_B32endJudgesTheKey_empty : State.reset.kdone = false ∧ State.reset.klen = 0#17 := by decide
theorem witness_B32endJudgesTheKey_odd :
    let s : State := { fedMfr with cfg := strict4 }
    s.kdone = false ∧ s.klen ≠ 0#17 ∧ s.cfg.oddKey = .error ∧ s.klen.getLsbD 0 = true := by decide
theorem witness_B32endJudgesTheKey_good :
    fedMf.kdone = false ∧ ¬ (fedMf.er.getLsbD 0 = true ∨ fedMf.er.getLsbD 3 = true ∨ fedMf.klen = 0#17 ∨
      (fedMf.cfg.oddKey = .error ∧ fedMf.klen.getLsbD 0 = true)) := by decide

theorem witness_KeyrdReturnsTheBlock_open : fedMfr.kdone = false := rfl
theorem witness_KeyrdReturnsTheBlock_invalid : keyBad.kdone = true ∧ keyBad.er.getLsbD 1 = true := by decide
theorem witness_KeyrdReturnsTheBlock_read :
    keyAbc.kdone = true ∧ keyAbc.er.getLsbD 1 = false ∧ 16 * (0#16).toNat + 5 < keyAbc.klen.toNat ∧
    ¬ 16 * (0#16).toNat + 6 < keyAbc.klen.toNat := by decide

theorem witness_DecodeSequenceComputesHex :
    (chars "MfRgG").map charIndex = [12#5, 5#5, 17#5, 6#5, 6#5].map some ∧ 1 ≤ (chars "MfRgG").length ∧
    (chars "MfRgG").length ≤ keyBad.cfg.maxch.toNat ∧ keyBad.cfg.oddKey = .fallback := by decide
theorem witness_DecodeSequenceComputesHex_strict :
    (chars "77").map charIndex = [31#5, 31#5].map some ∧ 1 ≤ (chars "77").length ∧
    (chars "77").length ≤ (State.resetOf strict4).cfg.maxch.toNat ∧ 5 * (chars "77").length / 4 % 2 = 0 := by decide

theorem witness_DecodeSequenceIsPure :
    keyBad.cfg.maxch = withDigest.cfg.maxch ∧ keyBad.cfg.oddKey = withDigest.cfg.oddKey := by decide

theorem witness_DecodeIgnoresCase :
    (chars "Mf1").map upcase = (chars "mF1").map upcase ∧
    ∃ t, execAll (Pseudo.decode (chars "Mf1")).expand keyAbc = .next t := ⟨by decide, _, rfl⟩

theorem witness_TimeStepsOfThirtySeconds :
    Config.defaults.wellFormed = true ∧ 30 * 0 + 29 < 2 ^ (64 - Config.defaults.frac.toNat) ∧
    0 < 2 ^ Config.defaults.frac.toNat ∧ 29 < 30 := by decide
theorem witness_TimeStepsOfThirtySeconds_fraction :
    let cfg : Params := { maxch := 1#16, frac := 32#6, oddKey := .error }
    cfg.wellFormed = true ∧ 30 * 143165575 + 29 < 2 ^ (64 - cfg.frac.toNat) ∧
    4294967295 < 2 ^ cfg.frac.toNat ∧ 0 < 30 := by decide

theorem witness_CtrnowTakesOneSample_ok :
    ({ State.reset with clock := [⟨true, 59#64⟩] } : State).clock = ⟨true, 59#64⟩ :: [] := rfl
theorem witness_CtrnowTakesOneSample_fails :
    ({ State.reset with clock := [⟨false, 59#64⟩] } : State).clock = ⟨false, 59#64⟩ :: [] := rfl
theorem witness_PortsPastTheScript_clock : State.reset.clock = [] := rfl

theorem witness_HmacAsksOnceAndLatches_open : State.reset.kdone = false := rfl
theorem witness_HmacAsksOnceAndLatches_noCounter :
    keyAbc.kdone = true ∧ keyAbc.er.getLsbD 1 = false ∧ keyAbc.cvalid = false := by decide
theorem witness_HmacAsksOnceAndLatches_invalid : keyBad.kdone = true ∧ keyBad.er.getLsbD 1 = true := by decide
theorem witness_HmacAsksOnceAndLatches_reply :
    let s : State := { readyToAsk with answers := [some (replyOf true)] }
    s.kdone = true ∧ s.er.getLsbD 1 = false ∧ s.cvalid = true ∧ s.answers = some (replyOf true) :: [] ∧
    ¬ ((replyOf true).kerr = true ∧ s.cfg.oddKey = .error) := by decide
theorem witness_HmacAsksOnceAndLatches_kerr :
    let s : State := { readyToAsk with
      cfg := { Config.defaults with oddKey := .error }, answers := [some (replyOf true), none] }
    s.kdone = true ∧ s.er.getLsbD 1 = false ∧ s.cvalid = true ∧ s.answers = some (replyOf true) :: [none] ∧
    (replyOf true).kerr = true ∧ s.cfg.oddKey = .error := by decide
theorem witness_PortsPastTheScript_noReply :
    let s : State := { readyToAsk with answers := [none] }
    s.kdone = true ∧ s.er.getLsbD 1 = false ∧ s.cvalid = true ∧ s.answers = none :: [] := by decide
theorem witness_PortsPastTheScript_answers :
    readyToAsk.kdone = true ∧ readyToAsk.er.getLsbD 1 = false ∧ readyToAsk.cvalid = true ∧
    readyToAsk.answers = [] := by decide

theorem witness_TruncComputesTheCode_noDigest : readyToAsk.dvalid = false := rfl
theorem witness_TruncComputesTheCode_offset : withDigest.dvalid = true ∧ withDigest.kerr = false := ⟨rfl, rfl⟩
theorem witness_TruncComputesTheCode_fallback : withKerr.dvalid = true ∧ withKerr.kerr = true := ⟨rfl, rfl⟩

theorem witness_CodeIsSixDecimalDigits :
    withDigest.dvalid = true ∧ ∃ t, exec .trunc withDigest = .next t := ⟨rfl, _, rfl⟩

/-- The reply that keeps the contract for the key `616263` and counter 1; its digest is the uninterpreted function's. -/
theorem witness_GenerateIsOneFunction :
    let vs : List (BitVec 5) := [12#5, 5#5, 17#5, 6#5, 6#5]
    let q : HmacRequest := { klen := BitVec.ofNat 17 (5 * (chars "MFRGG").length / 4), key := hexString vs, msg := 1#64 }
    let r : HmacReply := { digest := Config.hmacSha1 (bytesOf (hexString vs)) (messageBytes 1#64), kerr := false }
    let s : State := { keyBad with answers := [some r] }
    (chars "MFRGG").map charIndex = vs.map some ∧ 1 ≤ (chars "MFRGG").length ∧
    (chars "MFRGG").length ≤ s.cfg.maxch.toNat ∧ 5 * (chars "MFRGG").length / 4 % 2 = 0 ∧ s.cfg.frac = 0#6 ∧
    s.answers = some r :: [] ∧ BitVec.ofNat 64 ((59#64).toNat / 30) = 1#64 ∧ Conforms q r :=
  ⟨by decide, by decide, by decide, by decide, rfl, rfl, by decide, rfl, rfl⟩

theorem witness_WindowGivesOneCode :
    let s : State := { keyBad with answers := [some (replyOf false)] }
    s.cfg.wellFormed = true ∧ 30 * 1 + 29 < 2 ^ (64 - s.cfg.frac.toNat) ∧ 0 < 30 ∧ 29 < 30 ∧
    0 < 2 ^ s.cfg.frac.toNat ∧
    ∃ t, execAll (Pseudo.gen (chars "MFRGG") (BitVec.ofNat 64 ((30 * 1 + 29) * 2 ^ s.cfg.frac.toNat + 0))).expand s = .next t :=
  ⟨by decide, by decide, by decide, by decide, by decide, _, rfl⟩

theorem witness_CallsAreIndependentOfThePast :
    State.reset.cfg = withDigest.cfg ∧ State.reset.clock = withDigest.clock ∧ State.reset.answers = withDigest.answers ∧
    State.reset.draws = withDigest.draws ∧ State.reset.hmacWait = false ∧ withDigest.hmacWait = false ∧
    ∃ t, execAll (.srst :: [.b32ch 0x4D#8, .b32end, .trunc]) State.reset = .next t :=
  ⟨rfl, rfl, rfl, rfl, rfl, rfl, _, rfl⟩

theorem witness_NoCodeFromABadSecret :
    withDigest.Inv ∧ ∃ t, exec .trunc withDigest = .next t ∧
      ∃ data, t.responses.getLast? = some (rspWord 0x00#8 data) := ⟨withDigest_inv, _, rfl, _, rfl⟩

theorem witness_SequenceErrorsByPhase_closed : keyAbc.kdone = true := rfl
theorem witness_SequenceErrorsByPhase_open : State.reset.kdone = false ∧ State.reset.dvalid = false := ⟨rfl, rfl⟩
theorem witness_SequenceErrorsByPhase_noCounter :
    keyAbc.kdone = true ∧ keyAbc.er.getLsbD 1 = false ∧ keyAbc.cvalid = false := by decide
theorem witness_SequenceErrorsByPhase_invalid : keyBad.kdone = true ∧ keyBad.er.getLsbD 1 = true := by decide
theorem witness_SequenceErrorsByPhase_never :
    (.ctrnow : Instr) ∈ [.nop, .srst, .erclr, .b32clr, .ctrnow] ∧
    ∃ t, exec .ctrnow { State.reset with clock := [⟨false, 0#64⟩] } = .next t := ⟨by decide, _, rfl⟩

theorem witness_ErrorFlagsHaveOwners :
    ∃ t, exec .b32clr keyBad = .next t ∧ (.erclr : Instr) ≠ .srst ∧ (.erclr : Instr) ≠ .b32clr ∧
      ∃ u, exec .erclr keyBad = .next u := ⟨_, rfl, by decide, by decide, _, rfl⟩

theorem witness_PhaseFlagTable_reply :
    let s : State := { readyToAsk with answers := [some (replyOf false)] }
    s.kdone = true ∧ s.er.getLsbD 1 = false ∧ s.cvalid = true ∧ s.hmacShown = some (replyOf false) ∧
    ∃ t, exec .hmac s = .next t := ⟨rfl, by decide, rfl, rfl, _, rfl⟩
theorem witness_PhaseFlagTable_refused :
    keyBad.er.getLsbD 1 = true ∧ ∃ t, exec .hmac keyBad = .next t := ⟨by decide, _, rfl⟩
theorem witness_PhaseFlagTable_illegal :
    let s : State := { withDigest with host := [.command 0x050000000000000000#72] }
    s.host = .command 0x050000000000000000#72 :: [] ∧ s.hmacWait = false ∧
    (∀ i, decode 0x050000000000000000#72 ≠ .ok i) ∧ ∃ t, step s = .next t := by
  refine ⟨rfl, rfl, fun i h => ?_, _, rfl⟩
  rw [show decode 0x050000000000000000#72 = .error .unusedOpcode by decide] at h
  cases h

theorem witness_PhaseFlagTable_reset :
    let s : State := { asking with host := [.reset] }
    s.host = .reset :: [] ∧ ∃ t, step s = .next t := ⟨rfl, _, rfl⟩

theorem witness_ResetRegistersAreZero :
    (∃ t, step { asking with host := [.reset] } = .next t) ∧ ∃ t, exec .srst withDigest = .next t := ⟨⟨_, rfl⟩, _, rfl⟩

theorem witness_StepKeepsTheInvariant :
    asking.Inv ∧ ∃ t, step { asking with answers := [some (replyOf false)] } = .next t := ⟨asking_inv, _, rfl⟩
theorem witness_StepKeepsTheInvariant_reset : State.reset.Inv ∧ ∃ t, step State.reset = .next t := ⟨reset_inv, _, rfl⟩
theorem witness_InvariantStepNeverStops : keyBad.Inv := keyBad_inv

theorem witness_OddKeyLengths_even :
    keyAbc.Inv ∧ keyAbc.kdone = true ∧ keyAbc.er.getLsbD 1 = false ∧ keyAbc.klen.getLsbD 0 = false :=
  ⟨keyAbc_inv, rfl, by decide, by decide⟩
theorem witness_OddKeyLengths_odd :
    keyOdd.Inv ∧ keyOdd.kdone = true ∧ keyOdd.er.getLsbD 1 = false ∧ keyOdd.klen.getLsbD 0 = true :=
  ⟨keyOdd_inv, rfl, by decide, by decide⟩

theorem witness_ReadingCommandsFrame :
    (∃ t, exec .nop keyAbc = .next t) ∧ (∃ t, exec .erclr keyAbc = .next t) ∧
    (∃ t, exec (.rdreg 0x0E#8) keyAbc = .next t) ∧ ∃ t, exec (.keyrd 0#16) keyAbc = .next t :=
  ⟨⟨_, rfl⟩, ⟨_, rfl⟩, ⟨_, rfl⟩, ⟨_, rfl⟩⟩
theorem witness_DecoderCommandsFrame :
    (∃ t, exec .b32clr fedMfr = .next t) ∧ charIndex 0x47#8 = some 6#5 ∧ (∃ t, exec (.b32ch 0x47#8) fedMfr = .next t) ∧
    charIndex 0x31#8 = none ∧ (∃ t, exec (.b32ch 0x31#8) fedMfr = .next t) ∧ fedMf.keyUnusable = false ∧
    ∃ t, exec .b32end fedMf = .next t :=
  ⟨⟨_, rfl⟩, by decide, ⟨_, rfl⟩, by decide, ⟨_, rfl⟩, by decide, ⟨_, rfl⟩⟩
theorem witness_CounterCommandsFrame :
    (∃ t, exec (.ctrset 30#64) keyAbc = .next t) ∧
    let s : State := { keyAbc with clock := [⟨false, 30#64⟩] }
    s.clockNow.ok = false ∧ ∃ t, exec .ctrnow s = .next t := ⟨⟨_, rfl⟩, rfl, _, rfl⟩
theorem witness_DigestCommandsFrame :
    (∃ t, exec .hmac readyToAsk = .next t) ∧ keyAbc.cvalid = false ∧ (∃ t, exec .hmac keyAbc = .next t) ∧
    readyToAsk.dvalid = false ∧ (∃ t, exec .trunc readyToAsk = .next t) ∧ ∃ t, exec .trunc withDigest = .next t :=
  ⟨⟨_, rfl⟩, rfl, ⟨_, rfl⟩, rfl, ⟨_, rfl⟩, ⟨_, rfl⟩⟩

theorem witness_RepeatedErrorIsTheSame :
    (.hmac : Instr) ≠ .ctrnow ∧ ∃ t, exec .hmac keyAbc = .next t ∧ t.responses = keyAbc.responses ++ [rspWord 0x05#8 0#64] ∧
      0x05#8 ≠ 0x00#8 ∧ ¬ ((.hmac : Instr) = .b32end ∧ 0x05#8 = 0x02#8) :=
  ⟨by decide, _, rfl, rfl, by decide, by decide⟩
theorem witness_RepeatedErrorIsTheSame_b32end :
    (.b32end : Instr) ≠ .ctrnow ∧ ∃ t, exec .b32end State.reset = .next t ∧
      t.responses = State.reset.responses ++ [rspWord 0x02#8 0#64] ∧ 0x02#8 ≠ 0x00#8 :=
  ⟨by decide, _, rfl, rfl, by decide⟩

theorem witness_RealisationsAreExact : (0x7FFFFFFF#32).getLsbD 31 = false ∧ (0#32).getLsbD 31 = false := by decide

/-- spec/95, section 4.2: the greatest `P`, by double-dabble and by the decimal string. -/
theorem test_realisations_greatest :
    lastSix (doubleDabble 2147483647 31) = chars "483647" ∧ lastSix (paddedDigits 2147483647) = chars "483647" ∧
    lastSix (paddedDigits 42) = chars "000042" := by decide +kernel

/-- A call that gets its code, from a state with a valid key and from one with an invalid one. -/
theorem witness_CallsBegunWithB32clr_code :
    let s : State := { keyBad with answers := [some (replyOf false)] }
    let s' : State := { withDigest with answers := [some (replyOf false)] }
    s.cfg = s'.cfg ∧ s.clock = s'.clock ∧ s.answers = s'.answers ∧ s.draws = s'.draws ∧ s.hmacWait = false ∧
    s'.hmacWait = false ∧
    ∃ t, execAll (callSequence .b32clr (chars "MY") (.ctrset 59#64)) s = .next t ∧ t.cvalid = true ∧ t.ovalid = true :=
  ⟨rfl, rfl, rfl, rfl, rfl, rfl, _, rfl, rfl, rfl⟩

/-- A call whose clock fails: no counter, no code. -/
theorem witness_CallsBegunWithB32clr_noCounter :
    let s : State := { keyBad with clock := [⟨false, 0#64⟩] }
    let s' : State := { withDigest with clock := [⟨false, 0#64⟩] }
    s.cfg = s'.cfg ∧ s.clock = s'.clock ∧ s.answers = s'.answers ∧ s.draws = s'.draws ∧ s.hmacWait = false ∧
    s'.hmacWait = false ∧
    ∃ t, execAll (callSequence .b32clr (chars "MY") .ctrnow) s = .next t ∧ t.cvalid = false ∧ t.ovalid = false :=
  ⟨rfl, rfl, rfl, rfl, rfl, rfl, _, rfl, rfl, rfl⟩

end Sys2Proof.Tests
end

namespace Sys2Proof.Machine

/-! ### The message and the views -/

/-- The first `m` of the `n` base-`B` digits of `x`, most significant first, read as a number. -/
theorem foldl_baseDigits (B n x m : Nat) (hm : m ≤ n) :
    (List.range m).foldl (fun a i => B * a + x / B ^ (n - 1 - i) % B) 0 = x / B ^ (n - m) % B ^ m := by
  induction m with
  | zero => simp [Nat.mod_one]
  | succ m ih =>
    have hdiv : x / B ^ (n - m) = x / B ^ (n - (m + 1)) / B := by
      rw [Nat.div_div_eq_div_mul, ← pow_succ, show n - (m + 1) + 1 = n - m by omega]
    rw [List.range_succ, List.foldl_append, ih (by omega), hdiv]
    simp only [List.foldl_cons, List.foldl_nil]
    rw [pow_succ', Nat.mod_mul, show n - 1 - m = n - (m + 1) by omega]
    omega

/-- The `n` fields of `b` bits of a word, most significant first, read as the word. -/
theorem foldl_fields (b n : Nat) (x : BitVec (b * n)) :
    ((List.range n).map fun i => x.extractLsb' (b * (n - 1 - i)) b).foldl (fun a d => 2 ^ b * a + d.toNat) 0 =
      x.toNat := by
  simp only [List.foldl_map, BitVec.extractLsb'_toNat, Nat.shiftRight_eq_div_pow, pow_mul]
  rw [foldl_baseDigits _ n _ n le_rfl, Nat.mod_eq_of_lt]
  · simp
  · simpa [pow_mul] using x.isLt

theorem messageBytes_eq (ctr : Word64) :
    messageBytes ctr = (List.range 8).map fun i => ctr.extractLsb' (8 * (8 - 1 - i)) 8 := by
  refine List.map_congr_left fun i hi => ?_
  rw [msgByte, show 56 - 8 * i = 8 * (8 - 1 - i) by omega]

theorem msgDigits_eq (ctr : Word64) :
    (List.range 16).map (msgDigit ctr) = (List.range 16).map fun i => ctr.extractLsb' (4 * (16 - 1 - i)) 4 := by
  refine List.map_congr_left fun i hi => ?_
  rw [msgDigit, show 60 - 4 * i = 4 * (16 - 1 - i) by omega]

/-- Settles O30: the bytes and the digits are the fields of the counter word. -/
theorem messageIsBigEndian : Obligations.MessageIsBigEndian := by
  unfold Obligations.MessageIsBigEndian
  intro ctr
  refine ⟨by simp [messageBytes], ?_, ?_⟩
  · rw [messageBytes_eq]; exact foldl_fields 8 8 ctr
  · rw [msgDigits_eq]; exact foldl_fields 4 16 ctr

/-- Settles O15: `SR` is put together from six bits, so there are 64 cases. -/
theorem statusViewBits : Obligations.StatusViewBits := by
  unfold Obligations.StatusViewBits
  intro s
  unfold State.sr State.kodd
  generalize s.klen.getLsbD 0 = odd
  generalize s.kdone = kdone, s.cvalid = cvalid, s.dvalid = dvalid, s.kerr = kerr, s.ovalid = ovalid
  revert odd kdone cvalid dvalid kerr ovalid
  decide

theorem extractLsb'_append_high {m n : Nat} (x : BitVec m) (y : BitVec n) (i k : Nat) :
    (x ++ y).extractLsb' (n + i) k = x.extractLsb' i k := by
  rw [BitVec.extractLsb'_append_eq_of_le (Nat.le_add_right n i), Nat.add_sub_cancel_left]

theorem getLsbD_append_high {m n : Nat} (x : BitVec m) (y : BitVec n) (i : Nat) :
    (x ++ y).getLsbD (n + i) = x.getLsbD i := by
  rw [BitVec.getLsbD_append, if_neg (Nat.not_lt.mpr (Nat.le_add_right n i)), Nat.add_sub_cancel_left]

/-- Settles O17. -/
theorem residueViewFields : Obligations.ResidueViewFields := by
  unfold Obligations.ResidueViewFields
  intro s
  exact ⟨BitVec.extractLsb'_append_eq_right,
    (extractLsb'_append_high _ s.accn 0 2).trans BitVec.extractLsb'_append_eq_right,
    (extractLsb'_append_high _ s.accn 2 3).trans BitVec.extractLsb'_append_eq_left⟩

/-- The fields of `CFG` (R40). -/
theorem cfgWord_fields (cfg : Params) :
    (cfgWord cfg).extractLsb' 0 16 = cfg.maxch ∧ (cfgWord cfg).extractLsb' 16 6 = cfg.frac ∧
    (cfgWord cfg).extractLsb' 22 2 = 0#2 ∧ (cfgWord cfg).getLsbD 24 = decide (cfg.oddKey = .error) ∧
    (cfgWord cfg).extractLsb' 25 39 = 0#39 := by
  refine ⟨BitVec.extractLsb'_append_eq_right, ?_, ?_, ?_, ?_⟩
  · exact (extractLsb'_append_high _ cfg.maxch 0 6).trans BitVec.extractLsb'_append_eq_right
  · exact (extractLsb'_append_high _ cfg.maxch 6 2).trans
      ((extractLsb'_append_high _ cfg.frac 0 2).trans BitVec.extractLsb'_append_eq_right)
  · refine (getLsbD_append_high _ cfg.maxch 8).trans ((getLsbD_append_high _ cfg.frac 2).trans
      ((getLsbD_append_high (0#39 ++ BitVec.ofBool (cfg.oddKey == .error)) 0#2 0).trans ?_))
    cases cfg.oddKey <;> decide
  · exact (extractLsb'_append_high _ cfg.maxch 9 39).trans ((extractLsb'_append_high _ cfg.frac 3 39).trans
      ((extractLsb'_append_high _ 0#2 1 39).trans BitVec.extractLsb'_append_eq_left))

/-- Settles O41: `raise` is two record updates. -/
theorem raiseSetsFlagAndResponds : Obligations.RaiseSetsFlagAndResponds := by
  unfold Obligations.RaiseSetsFlagAndResponds
  exact fun s info => ⟨rfl, rfl, rfl, rfl, rfl, rfl⟩

/-! ### Every operation keeps the invariant

The ports and the response record are not part of the invariant; the operations of each unit change a few of its clauses,
and only those are argued. -/

section
variable {s : State}

theorem State.Inv.respond (h : s.Inv) (st : BitVec 8) (data : Word64) : (s.respond st data).Inv := { h with }

theorem State.Inv.popHost (h : s.Inv) : s.popHost.Inv := { h with }

theorem State.Inv.clockTaken (h : s.Inv) : s.clockTaken.Inv := by
  unfold State.clockTaken
  split <;> exact { h with }

theorem State.Inv.answerTaken (h : s.Inv) : s.answerTaken.Inv := by
  unfold State.answerTaken
  split <;> exact { h with }

theorem State.Inv.dropDigest (h : s.Inv) : s.dropDigest.Inv :=
  { h with digestCurrent := nofun, codeCurrent := nofun }

theorem State.Inv.waitOver (h : s.Inv) : s.waitOver.Inv := { h with waitCurrent := nofun }

/-- A decoder, a counter and a truncator with every register 0 (R43, R201), no `HMAC` being in progress. -/
theorem State.zeroRegs_inv (hw : s.hmacWait = false) : s.zeroRegs.Inv where
  kbufWf := rfl
  kbufBelow := rfl
  residue := Nat.one_pos
  klenLe := Nat.zero_le _
  nchLe := Nat.zero_le _
  openCount _ := rfl
  openUnjudged _ := by rw [hasError_esec]; simp
  closedResidue := nofun
  closedCount := nofun
  closedKey := nofun
  counterBound := Nat.zero_le _
  pMasked := by simp
  digestCurrent := nofun
  codeCurrent := nofun
  kerrPolicy _ := rfl
  waitCurrent hw' := by simp [hw] at hw'

/-- `ERCLR` clears the flags it owns and no flag of the secret (R202). -/
theorem State.hasError_clearOtherFlags (s : State) (c : ErrorCause) :
    s.clearOtherFlags.hasError c = (s.hasError c && c.flag &&& otherFlags == 0#6) := by
  simp only [State.hasError, State.clearOtherFlags]
  generalize s.er = e
  revert e
  cases c <;> decide

theorem State.Inv.clearOtherFlags (h : s.Inv) : s.clearOtherFlags.Inv := by
  have hflag (c : ErrorCause) (hc : c.flag &&& otherFlags = 0#6) : s.clearOtherFlags.hasError c = s.hasError c := by
    rw [State.hasError_clearOtherFlags, hc]; simp
  exact { h with
    openUnjudged := by rw [hflag _ (by decide)]; exact h.openUnjudged
    closedCount := by rw [hflag .invalidCharacter (by decide), hflag .keyOverflow (by decide)]; exact h.closedCount
    closedKey := by rw [hflag _ (by decide)]; exact h.closedKey
    digestCurrent := by rw [hflag _ (by decide)]; exact h.digestCurrent
    waitCurrent := by rw [hflag _ (by decide)]; exact h.waitCurrent }

/-- An error that judges no secret; only an open decoder is poisoned by one (R115, R241). -/
theorem State.Inv.raise (h : s.Inv) {c : ErrorCause} (info : Word64) (hc : c ≠ .invalidSecret)
    (hk : c = .invalidCharacter ∨ c = .keyOverflow → s.kdone = false) : (s.raise c info).Inv := by
  have hesec : (s.raise c info).hasError .invalidSecret = s.hasError .invalidSecret := by
    simp [State.hasError_raise, hc]
  exact { h with
    openUnjudged := by rw [hesec]; exact h.openUnjudged
    closedCount := fun hd => by
      have hne : c ≠ .invalidCharacter ∧ c ≠ .keyOverflow := not_or.mp fun hp => by simp [hk hp] at hd
      simpa [State.hasError_raise, hne] using h.closedCount hd
    closedKey := by rw [hesec]; exact h.closedKey
    digestCurrent := by rw [hesec]; exact h.digestCurrent
    waitCurrent := by rw [hesec]; exact h.waitCurrent }

/-- A closed key with no digest and no request on the way may be judged invalid (R164). -/
theorem State.Inv.raise_invalidSecret (h : s.Inv) (info : Word64) (hk : s.kdone = true) (hd : s.dvalid = false)
    (hw : s.hmacWait = false) : (s.raise .invalidSecret info).Inv :=
  { h with
    openUnjudged := fun ho => by simp [hk] at ho
    closedCount := by simpa [State.hasError_raise] using h.closedCount
    closedKey := fun _ he => by simp [State.hasError_raise] at he
    digestCurrent := fun hd' => by simp [hd] at hd'
    waitCurrent := fun hw' => by simp [hw] at hw' }

/-- A digest belongs to a closed key (R42). -/
theorem State.Inv.not_dvalid_of_open (h : s.Inv) (ho : s.kdone = false) : s.dvalid = false := by
  by_contra hd
  obtain ⟨hk, -⟩ := h.digestCurrent (by simpa using hd)
  simp [ho] at hk

/-- A request on the way belongs to a closed key (R166). -/
theorem State.Inv.not_hmacWait_of_open (h : s.Inv) (ho : s.kdone = false) : s.hmacWait = false := by
  by_contra hw
  obtain ⟨hk, -⟩ := h.waitCurrent (by simpa using hw)
  simp [ho] at hk

/-- Each character accepted brings five bits: `5·NCH = 4·KLEN + ACCN` goes on (R27 (a), R115). -/
theorem State.Inv.append (h : s.Inv) (v : BitVec 5) (ho : s.kdone = false) (hn : s.nch ≠ s.cfg.maxch) :
    (s.append v).Inv := by
  have hroom := hasRoom_of_inv h ho hn
  have hklen := append_klen_toNat v hroom
  have hbits := appendCount_bits s
  have hlt : s.nch.toNat < s.cfg.maxch.toNat := Nat.lt_of_le_of_ne h.nchLe fun e => hn (BitVec.eq_of_toNat_eq e)
  have hnch : (s.append v).nch.toNat = s.nch.toNat + 1 := by
    have := s.cfg.maxch.isLt
    rw [State.append_nch, BitVec.toNat_add, BitVec.toNat_ofNat]
    omega
  exact { h with
    kbufWf := Memory.wf_writeAll _ _ _ h.kbufWf
    kbufBelow := by
      rw [hklen, ← newNibbles_length s v]
      exact Memory.below_writeAll _ _ _ h.kbufBelow
    residue := newAccb_lt s.accn s.accb v
    klenLe := by rw [hklen]; exact (hasRoom_iff s).mp hroom
    nchLe := by rw [hnch]; exact hlt
    openCount := fun _ => by
      have := h.openCount ho
      rw [hnch, hklen, State.append_accn]
      omega
    closedResidue := fun hk => by simp [ho] at hk
    closedCount := fun hk => by simp [ho] at hk
    closedKey := fun hk => by simp [ho] at hk
    digestCurrent := fun hd => by simp [h.not_dvalid_of_open ho] at hd
    waitCurrent := fun hw => by simp [h.not_hmacWait_of_open ho] at hw }

/-- A secret that is no key leaves an empty, judged decoder (R117 step 3). -/
theorem State.Inv.closeUnusable (h : s.Inv) (info : Word64) (ho : s.kdone = false) :
    (s.closeDecoder.wipeKey.raise .invalidSecret info).Inv :=
  { h with
    kbufWf := rfl
    kbufBelow := rfl
    residue := Nat.one_pos
    klenLe := Nat.zero_le _
    openCount := nofun
    openUnjudged := nofun
    closedResidue := fun _ => rfl
    closedCount := fun _ => .inl rfl
    closedKey := fun _ he => by simp [State.hasError_raise] at he
    digestCurrent := fun hd => by simp [h.not_dvalid_of_open ho] at hd
    waitCurrent := fun hw => by simp [h.not_hmacWait_of_open ho] at hw }

/-- The `ACCN < 4` trailing bits are dropped, so `KLEN = floor(5·NCH / 4)` (R27 (b), R117). -/
theorem State.Inv.closeDecoder (h : s.Inv) (ho : s.kdone = false) (hu : s.keyUnusable = false) :
    s.closeDecoder.Inv := by
  have hgood := (keyUnusable_iff s).not.mp (by simp [hu])
  simp only [not_or, not_and, Bool.not_eq_true] at hgood
  obtain ⟨hchr, hovf, hlen, hodd⟩ := hgood
  exact { h with
    residue := Nat.one_pos
    openCount := nofun
    openUnjudged := nofun
    closedResidue := fun _ => rfl
    closedCount := fun _ => .inr ⟨by
      have := h.openCount ho
      have := s.accn.isLt
      simp only [State.closeDecoder_klen, State.closeDecoder_nch]
      omega, by rw [hasError_echr]; exact hchr, by rw [hasError_eovf]; exact hovf⟩
    closedKey := fun _ _ => ⟨hlen, hodd⟩
    digestCurrent := fun hd => by simp [h.not_dvalid_of_open ho] at hd
    waitCurrent := fun hw => by simp [h.not_hmacWait_of_open ho] at hw }

/-- `B32CLR` opens an unjudged, empty decoder and drops the old key's digest (R42, R110). -/
theorem State.Inv.newSecret (h : s.Inv) (hw : s.hmacWait = false) :
    s.emptyDecoder.clearSecretFlags.dropDigest.Inv :=
  { h with
    kbufWf := rfl
    kbufBelow := rfl
    residue := Nat.one_pos
    klenLe := Nat.zero_le _
    nchLe := Nat.zero_le _
    openCount := fun _ => rfl
    openUnjudged := fun _ => by
      rw [hasError_esec]
      simp [secretFlags]
    closedResidue := nofun
    closedCount := nofun
    closedKey := nofun
    digestCurrent := nofun
    codeCurrent := nofun
    waitCurrent := fun hw' => by simp [hw] at hw' }

/-- A new counter drops the digest of the old one (R42, R141). -/
theorem State.Inv.loadCounter (h : s.Inv) (e : Word64) (hw : s.hmacWait = false) :
    (s.loadCounter e).dropDigest.Inv :=
  { h with
    counterBound := counterOf_le s.cfg e
    digestCurrent := nofun
    codeCurrent := nofun
    waitCurrent := fun hw' => by simp [hw] at hw' }

theorem State.Inv.dropCounter (h : s.Inv) (hw : s.hmacWait = false) : s.dropCounter.dropDigest.Inv :=
  { h with
    digestCurrent := nofun
    codeCurrent := nofun
    waitCurrent := fun hw' => by simp [hw] at hw' }

/-- The request just sent is for the present key and counter (R160, R161). -/
theorem State.Inv.sendRequest (h : s.Inv) (hk : s.kdone = true) (he : s.hasError .invalidSecret = false)
    (hc : s.cvalid = true) : s.sendRequest.Inv := by
  have hasked : s.sendRequest.requests.getLast? = some s.sendRequest.hmacRequest := List.getLast?_concat
  exact { h with
    digestCurrent := fun _ => ⟨hk, hc, he, hasked⟩
    waitCurrent := fun _ => ⟨hk, hc, he, hasked⟩ }

/-- The reply belongs to the last request, which `waitCurrent` holds to the present key and counter. -/
theorem State.Inv.latchDigest (h : s.Inv) {r : HmacReply} (hw : s.hmacWait = true)
    (hr : ¬(r.kerr = true ∧ s.cfg.oddKey = .error)) : (s.latchDigest r).Inv :=
  { h with
    digestCurrent := fun _ => h.waitCurrent hw
    codeCurrent := nofun
    kerrPolicy := fun ho => Bool.eq_false_iff.mpr fun hk => hr ⟨hk, ho⟩ }

/-- `TRUNC` computes its registers from the digest that is valid (R37, R180). -/
theorem State.Inv.latchCode (h : s.Inv) (hd : s.dvalid = true) : s.latchCode.Inv :=
  { h with
    pMasked := truncMask_top _
    codeCurrent := fun _ => ⟨hd, rfl, rfl, rfl⟩ }

theorem State.Inv.takeReply (h : s.Inv) (r : HmacReply) (hw : s.hmacWait = true) : (s.takeReply r).Inv := by
  rcases takeReply_cases s r with ⟨-, -, ht⟩ | ⟨hr, ht⟩ <;> rw [ht]
  · obtain ⟨hk, -⟩ := h.waitCurrent hw
    exact h.waitOver.dropDigest.raise_invalidSecret _ hk rfl rfl
  · exact State.Inv.respond (h.latchDigest hw hr).waitOver _ _

theorem State.Inv.pollHmac (h : s.Inv) (hw : s.hmacWait = true) : s.pollHmac.Inv := by
  rcases pollHmac_cases s with ⟨-, ht⟩ | ⟨r, -, ht⟩ <;> rw [ht]
  · exact h.answerTaken
  · exact h.answerTaken.takeReply r (by simpa using hw)

/-! ### Every command and every step keep it -/

theorem execRdreg_keeps_inv {n : BitVec 8} {t : State} (h : s.Inv) (hx : execRdreg n s = .next t) : t.Inv := by
  rcases execRdreg_cases hx with ⟨v, -, rfl⟩ | ⟨-, rfl⟩
  · exact h.respond _ _
  · exact h.raise _ nofun nofun

theorem execB32ch_keeps_inv {c : Byte} {t : State} (h : s.Inv) (hx : execB32ch c s = .next t) : t.Inv := by
  rcases execB32ch_cases hx with ⟨-, rfl⟩ | ⟨ho, -, rfl⟩ | ⟨v, ho, -, -, rfl⟩ | ⟨v, -, -, -, -, -, rfl⟩ |
    ⟨v, ho, -, -, hn, -, -, rfl⟩
  · exact h.raise _ nofun nofun
  · exact h.raise _ nofun fun _ => ho
  · exact h.raise _ nofun fun _ => ho
  · exact h.respond _ _
  · exact (h.append v ho hn).respond _ _

theorem execB32end_keeps_inv {t : State} (h : s.Inv) (hx : execB32end s = .next t) : t.Inv := by
  rcases execB32end_cases hx with ⟨-, rfl⟩ | ⟨ho, -, rfl⟩ | ⟨ho, hu, rfl⟩
  · exact h.raise _ nofun nofun
  · exact h.closeUnusable _ ho
  · exact (h.closeDecoder ho hu).respond _ _

theorem execKeyrd_keeps_inv {b : BitVec 16} {t : State} (h : s.Inv) (hx : execKeyrd b s = .next t) : t.Inv := by
  rcases execKeyrd_cases hx with ⟨-, rfl⟩ | ⟨-, -, rfl⟩ | ⟨-, -, rfl⟩
  · exact h.raise _ nofun nofun
  · exact h.respond _ _
  · exact h.respond _ _

theorem execCtrnow_keeps_inv {t : State} (h : s.Inv) (hw : s.hmacWait = false) (hx : execCtrnow s = .next t) :
    t.Inv := by
  have hw' : s.clockTaken.hmacWait = false := by simpa using hw
  rcases execCtrnow_cases hx with ⟨-, rfl⟩ | ⟨-, rfl⟩
  · exact (h.clockTaken.loadCounter _ hw').respond _ _
  · exact (h.clockTaken.dropCounter hw').raise _ nofun nofun

theorem execHmac_keeps_inv {t : State} (h : s.Inv) (hx : execHmac s = .next t) : t.Inv := by
  rcases execHmac_cases hx with ⟨-, rfl⟩ | ⟨-, -, rfl⟩ | ⟨hk, he, hc, rfl⟩
  · exact h.raise _ nofun nofun
  · exact h.respond _ _
  · exact (h.sendRequest hk he hc).pollHmac rfl

theorem execTrunc_keeps_inv {t : State} (h : s.Inv) (hx : execTrunc s = .next t) : t.Inv := by
  rcases execTrunc_cases hx with ⟨-, rfl⟩ | ⟨hd, rfl⟩
  · exact h.raise _ nofun nofun
  · exact (h.latchCode hd).respond _ _

/-- A command taken when no HMAC waits. -/
theorem exec_keeps_inv {i : Instr} {t : State} (h : s.Inv) (hw : s.hmacWait = false) (hx : exec i s = .next t) :
    t.Inv := by
  cases i with
  | nop => cases hx; exact h.respond _ _
  | srst => cases hx; exact (State.zeroRegs_inv hw).respond _ _
  | erclr => cases hx; exact h.clearOtherFlags.respond _ _
  | rdreg n => exact execRdreg_keeps_inv h hx
  | b32clr => cases hx; exact (h.newSecret hw).respond _ _
  | b32ch c => exact execB32ch_keeps_inv h hx
  | b32end => exact execB32end_keeps_inv h hx
  | keyrd b => exact execKeyrd_keeps_inv h hx
  | ctrset e => cases hx; exact (h.loadCounter e hw).respond _ _
  | ctrnow => exact execCtrnow_keeps_inv h hw hx
  | hmac => exact execHmac_keeps_inv h hx
  | trunc => exact execTrunc_keeps_inv h hx

end

/-- Settles O47: the operation of each kind of step keeps the invariant. -/
theorem stepKeepsTheInvariant : Obligations.StepKeepsTheInvariant := by
  unfold Obligations.StepKeepsTheInvariant
  intro s t h hs
  rcases step_cases hs with ⟨rest, -, rfl⟩ | ⟨hw, rfl | rfl⟩ | ⟨-, rfl | rfl⟩ | ⟨w, rest, e, -, -, -, rfl⟩ |
    ⟨w, rest, i, -, hw, -, hx⟩
  · exact State.zeroRegs_inv (s := s.popHost.waitOver) rfl
  · exact h.pollHmac hw
  · exact h.popHost.pollHmac hw
  · exact h
  · exact h.popHost
  · exact h.popHost.raise _ nofun nofun
  · exact exec_keeps_inv h.popHost hw hx

/-- Settles O46: zeroing the registers of the reset state changes nothing. -/
theorem invariantAtReset : Obligations.InvariantAtReset := by
  unfold Obligations.InvariantAtReset
  intro cfg
  exact State.zeroRegs_inv (s := State.resetOf cfg) rfl

/-! ### A step from the invariant never stops -/

theorem execRdreg_read {n : BitVec 8} {s : State} {v : Word64} (hr : s.reg n = some v) :
    execRdreg n s = .next (s.respond statusOk v) := by
  unfold execRdreg; rw [hr]

/-- The one fault, an append beyond the key buffer, is shut out by `hasRoom_of_inv` (R115 (e)). -/
theorem exec_next_of_inv (i : Instr) {s : State} (h : s.Inv) : ∃ t, exec i s = .next t := by
  cases i with
  | rdreg n =>
    cases hr : s.reg n with
    | none => exact ⟨_, execRdreg_reserved ((reg_none_iff s n).mp hr)⟩
    | some v => exact ⟨_, execRdreg_read hr⟩
  | b32ch c =>
    change ∃ t, execB32ch c s = .next t
    rcases Bool.eq_false_or_eq_true s.kdone with hk | hk
    · exact ⟨_, execB32ch_closed hk⟩
    rcases hv : charIndex c with _ | v
    · exact ⟨_, execB32ch_invalid hk hv⟩
    by_cases hfull : s.hasError .keyOverflow = true ∨ s.nch = s.cfg.maxch
    · exact ⟨_, execB32ch_overflow hk hv hfull⟩
    rw [not_or, Bool.not_eq_true] at hfull
    obtain ⟨hovf, hn⟩ := hfull
    rcases Bool.eq_false_or_eq_true (s.hasError .invalidCharacter) with hchr | hchr
    · exact ⟨_, execB32ch_poisoned hk hv hovf hn hchr⟩
    · exact ⟨_, execB32ch_append hk hv hovf hn hchr (hasRoom_of_inv h hk hn)⟩
  | b32end => simp only [exec, execB32end, ← apply_ite]; exact ⟨_, rfl⟩
  | keyrd b => simp only [exec, execKeyrd, ← apply_ite]; exact ⟨_, rfl⟩
  | hmac => simp only [exec, execHmac, ← apply_ite]; exact ⟨_, rfl⟩
  | trunc => simp only [exec, execTrunc, ← apply_ite]; exact ⟨_, rfl⟩
  | nop | srst | erclr | b32clr | ctrset | ctrnow => exact ⟨_, rfl⟩

theorem step_reset {s : State} {rest : List HostEvent} (hh : s.host = .reset :: rest) :
    step s = .next s.popHost.hardReset := by
  unfold step State.fetch
  rw [hh]

theorem step_decoded {s : State} {w : CmdWord} {i : Instr} {rest : List HostEvent} (hh : s.host = .command w :: rest)
    (hw : s.hmacWait = false) (hd : decode w = .ok i) : step s = exec i s.popHost := by
  simp [step, State.fetch, hh, hw, hd]

theorem step_illegal {s : State} {w : CmdWord} {e : DecodeError} {rest : List HostEvent}
    (hh : s.host = .command w :: rest) (hw : s.hmacWait = false) (hd : decode w = .error e) :
    step s = .next s.popHost.takeIllegal := by
  simp [step, State.fetch, hh, hw, hd]

/-- Settles O48. -/
theorem invariantStepNeverStops : Obligations.InvariantStepNeverStops := by
  unfold Obligations.InvariantStepNeverStops
  intro s h
  rcases fetch_cases s with ⟨rest, hh, -⟩ | ⟨-, hf | hf⟩ | ⟨-, hf | hf⟩ | ⟨w, rest, hh, hw, -⟩
  case inr.inr.inr =>
    cases hd : decode w with
    | error e => exact ⟨_, step_illegal hh hw hd⟩
    | ok i => rw [step_decoded hh hw hd]; exact exec_next_of_inv i h.popHost
  case inl => exact ⟨_, step_reset hh⟩
  all_goals exact ⟨_, by unfold step; rw [hf]⟩

/-! ### What a look at the HMAC port keeps (R160, R166) -/

@[simp] theorem State.takeReply_cfg (s : State) (r : HmacReply) : (s.takeReply r).cfg = s.cfg := by
  rcases takeReply_cases s r with ⟨-, -, ht⟩ | ⟨-, ht⟩ <;> simp [ht]
@[simp] theorem State.takeReply_kdone (s : State) (r : HmacReply) : (s.takeReply r).kdone = s.kdone := by
  rcases takeReply_cases s r with ⟨-, -, ht⟩ | ⟨-, ht⟩ <;> simp [ht]
@[simp] theorem State.takeReply_cvalid (s : State) (r : HmacReply) : (s.takeReply r).cvalid = s.cvalid := by
  rcases takeReply_cases s r with ⟨-, -, ht⟩ | ⟨-, ht⟩ <;> simp [ht]
@[simp] theorem State.takeReply_ovalid (s : State) (r : HmacReply) : (s.takeReply r).ovalid = false := by
  rcases takeReply_cases s r with ⟨-, -, ht⟩ | ⟨-, ht⟩ <;> simp [ht]
/-- Under `ODDKEY = ERROR` a reply with `kerr` leaves no digest (R164). -/
theorem State.takeReply_dvalid (s : State) (r : HmacReply) :
    (s.takeReply r).dvalid = !(r.kerr && decide (s.cfg.oddKey = .error)) := by
  rcases takeReply_cases s r with ⟨hk, ho, ht⟩ | ⟨hr, ht⟩ <;> rw [ht]
  · simp [hk, ho]
  · simpa using not_and_or.mp hr

@[simp] theorem State.pollHmac_cfg (s : State) : s.pollHmac.cfg = s.cfg := by
  rcases pollHmac_cases s with ⟨-, ht⟩ | ⟨r, -, ht⟩ <;> simp [ht]
@[simp] theorem State.pollHmac_kdone (s : State) : s.pollHmac.kdone = s.kdone := by
  rcases pollHmac_cases s with ⟨-, ht⟩ | ⟨r, -, ht⟩ <;> simp [ht]
@[simp] theorem State.pollHmac_cvalid (s : State) : s.pollHmac.cvalid = s.cvalid := by
  rcases pollHmac_cases s with ⟨-, ht⟩ | ⟨r, -, ht⟩ <;> simp [ht]

/-- A look at the port raises `InvalidSecret` or nothing (R164, R166). -/
theorem State.pollHmac_er (s : State) :
    s.pollHmac.er = s.er ∨ s.pollHmac.er = s.er ||| ErrorCause.invalidSecret.flag := by
  rcases pollHmac_cases s with ⟨-, ht⟩ | ⟨r, -, ht⟩ <;> rw [ht]
  · exact .inl (by simp)
  · rcases takeReply_cases s.answerTaken r with ⟨-, -, hr⟩ | ⟨-, hr⟩ <;> simp [hr]

/-! ### `CFG` -/

theorem exec_cfg {i : Instr} {s t : State} (hx : exec i s = .next t) : t.cfg = s.cfg := by
  cases i with
  | nop | srst | erclr | b32clr | ctrset => cases hx; rfl
  | rdreg n => rcases execRdreg_cases hx with ⟨v, -, rfl⟩ | ⟨-, rfl⟩ <;> rfl
  | b32ch c =>
    rcases execB32ch_cases hx with ⟨-, rfl⟩ | ⟨-, -, rfl⟩ | ⟨v, -, -, -, rfl⟩ | ⟨v, -, -, -, -, -, rfl⟩ |
      ⟨v, -, -, -, -, -, -, rfl⟩ <;> rfl
  | b32end => rcases execB32end_cases hx with ⟨-, rfl⟩ | ⟨-, -, rfl⟩ | ⟨-, -, rfl⟩ <;> rfl
  | keyrd b => rcases execKeyrd_cases hx with ⟨-, rfl⟩ | ⟨-, -, rfl⟩ | ⟨-, -, rfl⟩ <;> rfl
  | ctrnow => rcases execCtrnow_cases hx with ⟨-, rfl⟩ | ⟨-, rfl⟩ <;> simp
  | hmac => rcases execHmac_cases hx with ⟨-, rfl⟩ | ⟨-, -, rfl⟩ | ⟨-, -, -, rfl⟩ <;> simp
  | trunc => rcases execTrunc_cases hx with ⟨-, rfl⟩ | ⟨-, rfl⟩ <;> rfl

theorem step_cfg {s t : State} (hs : step s = .next t) : t.cfg = s.cfg := by
  rcases step_cases hs with ⟨_, -, rfl⟩ | ⟨-, rfl | rfl⟩ | ⟨-, rfl | rfl⟩ | ⟨_, _, _, -, -, -, rfl⟩ |
    ⟨_, _, _, -, -, -, hx⟩
  · rfl
  · simp
  · simp
  · rfl
  · rfl
  · rfl
  · exact (exec_cfg hx).trans (State.popHost_cfg s)

/-- Settles O16. -/
theorem cfgIsConstant : Obligations.CfgIsConstant := by
  unfold Obligations.CfgIsConstant
  exact ⟨cfgWord_fields, fun s t => step_cfg⟩

/-! ### The owners of the sticky flags (R39) -/

/-- The causes a command can raise (R39; tied to `exec` by `exec_er_cases`). -/
def causesOf : Instr → List ErrorCause
  | .nop | .srst | .erclr | .b32clr | .ctrset _ => []
  | .rdreg _ => [.illegalCommand]
  | .b32ch _ => [.invalidCharacter, .keyOverflow, .sequenceError]
  | .b32end | .hmac => [.invalidSecret, .sequenceError]
  | .keyrd _ | .trunc => [.sequenceError]
  | .ctrnow => [.clockError]

/-- What a command does to `ER`: nothing, one flag set, or the flags cleared that it owns (R39, R110, R201, R202). -/
theorem exec_er_cases {i : Instr} {s t : State} (hx : exec i s = .next t) :
    t.er = s.er ∨ (∃ c ∈ causesOf i, t.er = s.er ||| c.flag) ∨ (i = .srst ∧ t.er = 0#6) ∨
      (i = .erclr ∧ t.er = s.er &&& ~~~otherFlags) ∨ (i = .b32clr ∧ t.er = s.er &&& ~~~secretFlags) := by
  cases i with
  | nop | ctrset => cases hx; exact .inl rfl
  | srst | erclr | b32clr => cases hx; simp
  | rdreg n => rcases execRdreg_cases hx with ⟨v, -, rfl⟩ | ⟨-, rfl⟩ <;> simp [causesOf]
  | b32ch c =>
    rcases execB32ch_cases hx with ⟨-, rfl⟩ | ⟨-, -, rfl⟩ | ⟨v, -, -, -, rfl⟩ | ⟨v, -, -, -, -, -, rfl⟩ |
      ⟨v, -, -, -, -, -, -, rfl⟩ <;> simp [causesOf]
  | b32end => rcases execB32end_cases hx with ⟨-, rfl⟩ | ⟨-, -, rfl⟩ | ⟨-, -, rfl⟩ <;> simp [causesOf]
  | keyrd b => rcases execKeyrd_cases hx with ⟨-, rfl⟩ | ⟨-, -, rfl⟩ | ⟨-, -, rfl⟩ <;> simp [causesOf]
  | ctrnow => rcases execCtrnow_cases hx with ⟨-, rfl⟩ | ⟨-, rfl⟩ <;> simp [causesOf]
  | hmac =>
    rcases execHmac_cases hx with ⟨-, rfl⟩ | ⟨-, -, rfl⟩ | ⟨-, -, -, rfl⟩
    · simp [causesOf]
    · exact .inl rfl
    · rcases State.pollHmac_er s.sendRequest with he | he <;> simp [he, causesOf]
  | trunc => rcases execTrunc_cases hx with ⟨-, rfl⟩ | ⟨-, rfl⟩ <;> simp [causesOf]

/-- Setting flags of the mask `m` leaves the others as they were. -/
theorem or_and_not_of_within {e f m : BitVec 6} (hf : f &&& ~~~m = 0#6) : (e ||| f) &&& ~~~m = e &&& ~~~m := by
  rw [BitVec.and_or_distrib_right, hf, BitVec.or_zero]

/-- Setting flags clears none. -/
theorem and_not_or_self (e f m : BitVec 6) : e &&& m &&& ~~~(e ||| f) = 0#6 := by
  ext k hk
  cases he : e[k] <;> simp [he]

/-- Settles O43. -/
theorem errorFlagsHaveOwners : Obligations.ErrorFlagsHaveOwners := by
  unfold Obligations.ErrorFlagsHaveOwners
  intro i s t hx
  rcases exec_er_cases hx with he | ⟨c, hc, he⟩ | ⟨rfl, he⟩ | ⟨rfl, he⟩ | ⟨rfl, he⟩ <;> rw [he] <;>
    generalize s.er = e
  · have kept (m : BitVec 6) : e &&& m &&& ~~~e = 0#6 := by simpa using and_not_or_self e 0#6 m
    exact ⟨rfl, fun _ _ => kept _, fun _ _ => kept _⟩
  · refine ⟨or_and_not_of_within ?_, fun _ _ => and_not_or_self _ _ _, fun _ _ => and_not_or_self _ _ _⟩
    clear he hx
    revert c
    cases i <;> simp only [causesOf] <;> decide
  all_goals
    revert e
    decide

/-! ### The phase flags (R42) and the reset registers (R43) -/

/-- The row of `HMAC`: refused it keeps the flags; its reply drops the code and gives a digest or none (R42, R160). -/
theorem execHmac_phaseFlags {s t : State} (hx : execHmac s = .next t) :
    t.kdone = s.kdone ∧ t.cvalid = s.cvalid ∧
      ((s.kdone = false ∨ s.er.getLsbD 1 = true ∨ s.cvalid = false) → t.dvalid = s.dvalid ∧ t.ovalid = s.ovalid) ∧
      ∀ r, s.kdone = true → s.er.getLsbD 1 = false → s.cvalid = true → s.hmacShown = some r →
        t.ovalid = false ∧ t.dvalid = !(r.kerr && decide (s.cfg.oddKey = .error)) := by
  rw [← hasError_esec]
  rcases execHmac_cases hx with ⟨hr, rfl⟩ | ⟨-, hs, rfl⟩ | ⟨hk, hs, hc, rfl⟩
  · refine ⟨rfl, rfl, fun _ => ⟨rfl, rfl⟩, fun r hk _ hc _ => ?_⟩
    simp [hk, hc] at hr
  · exact ⟨rfl, rfl, fun _ => ⟨rfl, rfl⟩, fun r _ hs' _ _ => by simp [hs] at hs'⟩
  · refine ⟨by simp, by simp, fun hr => by simp [hk, hs, hc] at hr, fun r _ _ _ hshown => ?_⟩
    rw [pollHmac_some (s := s.sendRequest) hshown]
    simp [State.takeReply_dvalid]

/-- Settles O44. -/
theorem phaseFlagTable : Obligations.PhaseFlagTable := by
  unfold Obligations.PhaseFlagTable
  refine ⟨fun i s t hx => ?_, fun s t w rest hh hw hd hs => ?_, fun s t rest hh hs => ?_⟩
  · cases i with
    | nop | srst | erclr | b32clr | ctrset => cases hx; exact ⟨rfl, rfl, rfl, rfl⟩
    | rdreg n => rcases execRdreg_cases hx with ⟨v, -, rfl⟩ | ⟨-, rfl⟩ <;> exact ⟨rfl, rfl, rfl, rfl⟩
    | b32ch c =>
      rcases execB32ch_cases hx with ⟨-, rfl⟩ | ⟨-, -, rfl⟩ | ⟨v, -, -, -, rfl⟩ | ⟨v, -, -, -, -, -, rfl⟩ |
        ⟨v, -, -, -, -, -, -, rfl⟩ <;> exact ⟨rfl, rfl, rfl, rfl⟩
    | b32end =>
      rcases execB32end_cases hx with ⟨hk, rfl⟩ | ⟨-, -, rfl⟩ | ⟨-, -, rfl⟩
      · exact ⟨hk, rfl, rfl, rfl⟩
      · exact ⟨rfl, rfl, rfl, rfl⟩
      · exact ⟨rfl, rfl, rfl, rfl⟩
    | keyrd b => rcases execKeyrd_cases hx with ⟨-, rfl⟩ | ⟨-, -, rfl⟩ | ⟨-, -, rfl⟩ <;> exact ⟨rfl, rfl, rfl, rfl⟩
    | ctrnow =>
      rcases execCtrnow_cases hx with ⟨hok, rfl⟩ | ⟨hok, rfl⟩
      · exact ⟨by simp, hok.symm, rfl, rfl⟩
      · exact ⟨by simp, hok.symm, rfl, rfl⟩
    | hmac => exact execHmac_phaseFlags hx
    | trunc =>
      rcases execTrunc_cases hx with ⟨hd, rfl⟩ | ⟨hd, rfl⟩
      · exact ⟨rfl, rfl, rfl, by simp [hd]⟩
      · exact ⟨rfl, rfl, rfl, by simp [hd]⟩
  · cases hdec : decode w with
    | ok i => exact absurd hdec (hd i)
    | error e =>
      cases (step_illegal hh hw hdec).symm.trans hs
      exact ⟨rfl, rfl, rfl, rfl⟩
  · cases (step_reset hh).symm.trans hs
    exact ⟨rfl, rfl, rfl, rfl⟩

/-- Settles O45: each of the three states is one that zeroing its registers leaves as it is. -/
theorem resetRegistersAreZero : Obligations.ResetRegistersAreZero := by
  unfold Obligations.ResetRegistersAreZero
  intro cfg t ht
  have hzero : t.zeroRegs = t ∧ t.cfg = cfg := by
    rcases ht with rfl | ⟨s, rest, rfl, hh, hs⟩ | ⟨s, rfl, hx⟩
    · exact ⟨rfl, rfl⟩
    · cases (step_reset hh).symm.trans hs
      exact ⟨rfl, rfl⟩
    · cases hx
      exact ⟨rfl, rfl⟩
  obtain ⟨hz, hcfg⟩ := hzero
  rw [← hz]
  exact ⟨rfl, rfl, rfl, rfl, rfl, fun _ => rfl, rfl, rfl, rfl, rfl, rfl, rfl, rfl, rfl, rfl, rfl, rfl, hcfg⟩

/-! ### What the invariant says of keys and codes -/

/-- What a closed key that was not judged invalid is (R27 (b), R117). -/
theorem State.Inv.goodKey {s : State} (h : s.Inv) (hk : s.kdone = true) (he : s.hasError .invalidSecret = false) :
    s.klen ≠ 0#17 ∧ s.klen.toNat = 5 * s.nch.toNat / 4 ∧ s.hasError .invalidCharacter = false ∧
      s.hasError .keyOverflow = false := by
  obtain ⟨hne, -⟩ := h.closedKey hk he
  exact ⟨hne, (h.closedCount hk).resolve_left hne⟩

/-- Settles O49. -/
theorem oddKeyLengths : Obligations.OddKeyLengths := by
  unfold Obligations.OddKeyLengths
  intro s h hk he
  rw [← hasError_esec] at he
  obtain ⟨-, hlen, -⟩ := h.goodKey hk he
  constructor
  · omega
  · rw [BitVec.getLsbD, Nat.testBit_zero, hlen]
    simp only [decide_eq_true_eq, List.mem_cons, List.not_mem_nil, or_false]
    omega

/-- The status of a response word (R82). -/
theorem opField_rspWord (st : BitVec 8) (data : Word64) : opField (rspWord st data) = st :=
  Laws.EncodedFields.opField_append st data

/-- Settles O40: a `TRUNC` that does not raise found a valid digest. -/
theorem noCodeFromABadSecret : Obligations.NoCodeFromABadSecret := by
  unfold Obligations.NoCodeFromABadSecret
  intro s t h hx ⟨data, hr⟩
  rcases execTrunc_cases hx with ⟨-, rfl⟩ | ⟨hd, -⟩
  · rw [State.raise_responses, List.getLast?_concat] at hr
    have hst := congrArg opField (Option.some.inj hr)
    rw [opField_rspWord, opField_rspWord] at hst
    exact absurd hst (by decide)
  · obtain ⟨hk, hc, he, hreq⟩ := h.digestCurrent hd
    obtain ⟨hne, hlen, hchr, hovf⟩ := h.goodKey hk he
    rw [hasError_echr] at hchr
    rw [hasError_esec] at he
    rw [hasError_eovf] at hovf
    exact ⟨hk, hc, hne, hlen, hchr, he, hovf, hreq⟩

end Sys2Proof.Machine

namespace Sys2Proof.Machine

/-! ### A step takes the presented word (R68) -/

/-- Settles O6. -/
theorem stepRunsDecodedCommand : Obligations.StepRunsDecodedCommand := by
  unfold Obligations.StepRunsDecodedCommand
  intro s w rest i hh hw hd
  have hpop : s.popHost = { s with host := rest } := by rw [State.popHost, hh, List.tail_cons]
  rw [step_decoded hh hw hd, hpop]

/-! ### What the ports' operations leave unchanged -/

/-- A sample is the next scripted one or, past the script, a draw (R146, R147). -/
theorem clockTaken_eq (s : State) : s.clockTaken =
    { s with clock := s.clock.tail, draws := if s.clock = [] then s.draws + 1 else s.draws } := by
  unfold State.clockTaken
  split
  · next hc => simp [hc]
  · next hc => simp [hc]

/-- A look is the next scripted one or, past the script, a draw (R161). -/
theorem answerTaken_eq (s : State) : s.answerTaken =
    { s with answers := s.answers.tail, draws := if s.answers = [] then s.draws + 1 else s.draws } := by
  unfold State.answerTaken
  split
  · next ha => simp [ha]
  · next ha => simp [ha]

/-- A look writes `DIGEST`, `KERR`, `DVALID`, `OVALID` and `ER` at most, and sends no request (R160, R166). -/
theorem pollHmac_frame (s : State) : s.pollHmac = { s with
    digest := s.pollHmac.digest, kerr := s.pollHmac.kerr, dvalid := s.pollHmac.dvalid, ovalid := s.pollHmac.ovalid
    er := s.pollHmac.er, hmacWait := s.pollHmac.hmacWait, answers := s.pollHmac.answers, draws := s.pollHmac.draws
    responses := s.pollHmac.responses } := by
  rcases pollHmac_cases s with ⟨-, ht⟩ | ⟨r, -, ht⟩ <;> rw [ht]
  · rw [answerTaken_eq]
  · rcases takeReply_cases s.answerTaken r with ⟨-, -, hr⟩ | ⟨-, hr⟩ <;> rw [hr, answerTaken_eq] <;> rfl

/-! ### One response per command -/

theorem ErrorCause.status_le (c : ErrorCause) : c.status.toNat ≤ 6 := by cases c <;> decide

/-- Between `s` and `t` exactly one response is returned, with one of the seven status codes (R82, R240). -/
def RespondsOnce (s t : State) : Prop := ∃ w, t.responses = s.responses ++ [w] ∧ (w.extractLsb' 64 8).toNat ≤ 6

theorem respondsOnce_respond {s u : State} {st : BitVec 8} (data : Word64) (hu : u.responses = s.responses)
    (hst : st.toNat ≤ 6) : RespondsOnce s (u.respond st data) :=
  ⟨rspWord st data, by rw [State.respond_responses, hu],
    (congrArg BitVec.toNat (opField_rspWord st data)).trans_le hst⟩

theorem respondsOnce_respond_ok {s u : State} (data : Word64) (hu : u.responses = s.responses) :
    RespondsOnce s (u.respond statusOk data) :=
  respondsOnce_respond data hu (Nat.zero_le 6)

theorem respondsOnce_raise {s u : State} (c : ErrorCause) (info : Word64) (hu : u.responses = s.responses) :
    RespondsOnce s (u.raise c info) :=
  respondsOnce_respond (u := u.setError c) info hu c.status_le

/-- A look that finds the reply returns the one response; one that finds none leaves the command waiting (R160, R166). -/
theorem pollHmac_respondsOnce_or_waits (s : State) :
    RespondsOnce s s.pollHmac ∨
      (s.pollHmac.hmacWait = s.hmacWait ∧ s.pollHmac.responses = s.responses) := by
  rcases pollHmac_cases s with ⟨-, ht⟩ | ⟨r, -, ht⟩ <;> rw [ht]
  · exact .inr ⟨State.answerTaken_hmacWait s, State.answerTaken_responses s⟩
  · left
    rcases takeReply_cases s.answerTaken r with ⟨-, -, hr⟩ | ⟨-, hr⟩ <;> rw [hr]
    · exact respondsOnce_raise _ _ (State.answerTaken_responses s)
    · exact respondsOnce_respond_ok _ (State.answerTaken_responses s)

/-- Settles O10: each outcome of a command is a `respond` or a `raise`, the wait of `HMAC` apart. -/
theorem oneResponsePerCommand : Obligations.OneResponsePerCommand := by
  unfold Obligations.OneResponsePerCommand
  intro i s t hx
  cases i with
  | nop | srst | erclr | b32clr | ctrset => cases hx; exact .inl (respondsOnce_respond_ok _ rfl)
  | rdreg n =>
    rcases execRdreg_cases hx with ⟨v, -, rfl⟩ | ⟨-, rfl⟩
    · exact .inl (respondsOnce_respond_ok _ rfl)
    · exact .inl (respondsOnce_raise _ _ rfl)
  | b32ch c =>
    rcases execB32ch_cases hx with ⟨-, rfl⟩ | ⟨-, -, rfl⟩ | ⟨v, -, -, -, rfl⟩ | ⟨v, -, -, -, -, -, rfl⟩ |
      ⟨v, -, -, -, -, -, -, rfl⟩
    · exact .inl (respondsOnce_raise _ _ rfl)
    · exact .inl (respondsOnce_raise _ _ rfl)
    · exact .inl (respondsOnce_raise _ _ rfl)
    · exact .inl (respondsOnce_respond_ok _ rfl)
    · exact .inl (respondsOnce_respond_ok _ rfl)
  | b32end =>
    rcases execB32end_cases hx with ⟨-, rfl⟩ | ⟨-, -, rfl⟩ | ⟨-, -, rfl⟩
    · exact .inl (respondsOnce_raise _ _ rfl)
    · exact .inl (respondsOnce_raise _ _ rfl)
    · exact .inl (respondsOnce_respond_ok _ rfl)
  | keyrd b =>
    rcases execKeyrd_cases hx with ⟨-, rfl⟩ | ⟨-, -, rfl⟩ | ⟨-, -, rfl⟩
    · exact .inl (respondsOnce_raise _ _ rfl)
    · exact .inl (respondsOnce_respond _ rfl (ErrorCause.status_le _))
    · exact .inl (respondsOnce_respond_ok _ rfl)
  | ctrnow =>
    rcases execCtrnow_cases hx with ⟨-, rfl⟩ | ⟨-, rfl⟩
    · exact .inl (respondsOnce_respond_ok _ (State.clockTaken_responses s))
    · exact .inl (respondsOnce_raise _ _ (State.clockTaken_responses s))
  | hmac =>
    rcases execHmac_cases hx with ⟨-, rfl⟩ | ⟨-, -, rfl⟩ | ⟨-, -, -, rfl⟩
    · exact .inl (respondsOnce_raise _ _ rfl)
    · exact .inl (respondsOnce_respond _ rfl (ErrorCause.status_le _))
    · exact (pollHmac_respondsOnce_or_waits s.sendRequest).imp_right fun hwait => ⟨rfl, hwait⟩
  | trunc =>
    rcases execTrunc_cases hx with ⟨-, rfl⟩ | ⟨-, rfl⟩
    · exact .inl (respondsOnce_raise _ _ rfl)
    · exact .inl (respondsOnce_respond_ok _ rfl)

/-! ### `KEYRD` -/

/-- A number put together from digits, most significant first, has those digits. -/
theorem foldl_digits_div_mod {B : Nat} (d : Nat → Nat) (hd : ∀ k, d k < B) {n j : Nat} (hj : j < n) :
    (List.range n).foldl (fun a k => B * a + d k) 0 / B ^ (n - 1 - j) % B = d j := by
  have hB : 0 < B := Nat.zero_lt_of_lt (hd 0)
  induction n with
  | zero => omega
  | succ n ih =>
    rw [List.range_succ, List.foldl_append]
    simp only [List.foldl_cons, List.foldl_nil]
    rcases Nat.lt_succ_iff_lt_or_eq.mp hj with hlt | rfl
    · rw [show n + 1 - 1 - j = n - 1 - j + 1 by omega, pow_succ', ← Nat.div_div_eq_div_mul, Nat.mul_add_div hB,
        Nat.div_eq_of_lt (hd n), Nat.add_zero, ih hlt]
    · simp [Nat.mod_eq_of_lt (hd j)]

/-- A field of a word below its top is that of the number the word is cut from. -/
theorem extractLsb'_ofNat_toNat {w k n : Nat} (x : Nat) (h : k + n ≤ w) :
    ((BitVec.ofNat w x).extractLsb' k n).toNat = x / 2 ^ k % 2 ^ n := by
  rw [BitVec.extractLsb'_toNat, BitVec.toNat_ofNat, Nat.shiftRight_eq_div_pow,
    show w = k + (w - k) by omega, pow_add, Nat.mod_mul_right_div_self]
  exact Nat.mod_mod_of_dvd _ (Nat.pow_dvd_pow 2 (by omega))

/-- The `j`-th nibble of a block read as a word (R11, R118). -/
theorem memRead_nibble (s : State) (i : Nat) {j : Nat} (hj : j < 16) :
    (BitVec.ofNat 64 (s.memRead i 16)).extractLsb' (60 - 4 * j) 4 = s.keyNibble (i + j) := by
  apply BitVec.eq_of_toNat_eq
  rw [extractLsb'_ofNat_toNat _ (by omega), show 60 - 4 * j = 4 * (16 - 1 - j) by omega, pow_mul]
  exact foldl_digits_div_mod (fun k => (s.keyNibble (i + k)).toNat) (fun k => (s.keyNibble (i + k)).isLt) hj

/-- Settles O23: the outcomes of `KEYRD` are its three equations, the data those of `memRead_nibble`. -/
theorem keyrdReturnsTheBlock : Obligations.KeyrdReturnsTheBlock := by
  unfold Obligations.KeyrdReturnsTheBlock
  intro b s
  rw [← hasError_esec]
  exact ⟨execKeyrd_open, execKeyrd_invalid, fun hk he => ⟨_, execKeyrd_read hk he, fun j hj => memRead_nibble s _ hj⟩⟩

/-! ### Frames of the commands (R66) -/

/-- Settles O50: each outcome is a `respond` or a `raise` of `s` itself, with flags cleared by `ERCLR`. -/
theorem readingCommandsFrame : Obligations.ReadingCommandsFrame := by
  unfold Obligations.ReadingCommandsFrame
  intro i s t hi hx
  rcases hi with rfl | rfl | ⟨n, rfl⟩ | ⟨b, rfl⟩
  · cases hx; exact ⟨rfl, fun _ => rfl, fun _ => rfl⟩
  · cases hx; exact ⟨rfl, nofun, fun _ => rfl⟩
  · rcases execRdreg_cases hx with ⟨v, -, rfl⟩ | ⟨-, rfl⟩ <;> exact ⟨rfl, nofun, fun _ => rfl⟩
  · rcases execKeyrd_cases hx with ⟨-, rfl⟩ | ⟨-, -, rfl⟩ | ⟨-, -, rfl⟩ <;> exact ⟨rfl, nofun, fun _ => rfl⟩

/-- `B32CH` appends its group, or changes `ER` and the responses at most (R115, R116). -/
theorem execB32ch_appends_or_keeps {c : Byte} {s t : State} (hx : execB32ch c s = .next t) :
    (t = { s with er := t.er, responses := t.responses }) ∨
    (∃ v, charIndex c = some v ∧ t = (s.append v).respond statusOk (v.setWidth 64)) := by
  rcases execB32ch_cases hx with ⟨-, rfl⟩ | ⟨-, -, rfl⟩ | ⟨v, -, -, -, rfl⟩ | ⟨v, -, -, -, -, -, rfl⟩ |
    ⟨v, -, hv, -, -, -, -, rfl⟩
  exacts [.inl rfl, .inl rfl, .inl rfl, .inl rfl, .inr ⟨v, hv, rfl⟩]

/-- Settles O51: only an append and an unusable key touch the key buffer. -/
theorem decoderCommandsFrame : Obligations.DecoderCommandsFrame := by
  unfold Obligations.DecoderCommandsFrame
  refine ⟨fun s t hx => ?_, fun c s t hx => ?_, fun s t hx => ?_⟩
  · cases hx; rfl
  · rcases execB32ch_appends_or_keeps hx with ht | ⟨v, hv, rfl⟩
    · rw [ht]; exact ⟨rfl, fun _ _ _ _ => rfl, fun _ _ => rfl⟩
    · refine ⟨rfl, fun v' hv' a ha => ?_, fun hn => by simp [hv] at hn⟩
      obtain rfl : v = v' := Option.some.inj (hv.symm.trans hv')
      exact Memory.read_writeAll_other _ _ _ _ ha
  · rcases execB32end_cases hx with ⟨-, rfl⟩ | ⟨hk, hu, rfl⟩ | ⟨-, -, rfl⟩
    · exact ⟨rfl, fun _ => ⟨rfl, fun _ => rfl⟩⟩
    · exact ⟨rfl, fun hkeep => by simp [hk, hu] at hkeep⟩
    · exact ⟨rfl, fun _ => ⟨rfl, fun _ => rfl⟩⟩

/-- Settles O52: the sample taken changes the clock port only. -/
theorem counterCommandsFrame : Obligations.CounterCommandsFrame := by
  unfold Obligations.CounterCommandsFrame
  refine ⟨fun e s t hx => ?_, fun s t hx => ?_⟩
  · cases hx; exact ⟨rfl, fun _ => rfl⟩
  · rcases execCtrnow_cases hx with ⟨hok, rfl⟩ | ⟨-, rfl⟩ <;> rw [clockTaken_eq]
    · exact ⟨rfl, fun _ => rfl, fun hf => by simp [hok] at hf⟩
    · exact ⟨rfl, fun _ => rfl, fun _ => ⟨rfl, rfl⟩⟩

/-- Settles O53: past its refusals `HMAC` is one look at the port, framed by `pollHmac_frame`. -/
theorem digestCommandsFrame : Obligations.DigestCommandsFrame := by
  unfold Obligations.DigestCommandsFrame
  refine ⟨fun s t hx => ?_, fun s t hx => ?_⟩
  · rw [← hasError_esec]
    rcases execHmac_cases hx with ⟨-, rfl⟩ | ⟨-, -, rfl⟩ | ⟨hk, he, hc, rfl⟩
    · exact ⟨rfl, fun _ => rfl, fun _ => rfl⟩
    · exact ⟨rfl, fun _ => rfl, fun _ => rfl⟩
    · rw [pollHmac_frame s.sendRequest]
      exact ⟨rfl, fun _ => rfl, fun href => by simp [hk, he, hc] at href⟩
  · rcases execTrunc_cases hx with ⟨-, rfl⟩ | ⟨hd, rfl⟩
    · exact ⟨rfl, fun _ => rfl, fun _ => rfl⟩
    · exact ⟨rfl, fun _ => rfl, fun hn => by simp [hd] at hn⟩

end Sys2Proof.Machine

namespace Sys2Proof

/-! ### The two fields of a word (R80) -/

theorem opField_append_argField (w : CmdWord) : opField w ++ argField w = w :=
  BitVec.extractLsb'_append_extractLsb'

/-- A word is fixed by its two fields. -/
theorem eq_append_iff {w : CmdWord} {op : BitVec 8} {arg : Word64} :
    w = op ++ arg ↔ opField w = op ∧ argField w = arg := by
  constructor
  · rintro rfl
    exact ⟨Laws.EncodedFields.opField_append op arg, Laws.EncodedFields.argField_append op arg⟩
  · rintro ⟨rfl, rfl⟩
    exact (opField_append_argField w).symm

theorem eq_encode_iff {w : CmdWord} {i : Instr} : w = encode i ↔ opField w = i.opcode ∧ argField w = i.arg :=
  eq_append_iff

/-! ### The zero fields of the four formats (R81) -/

theorem Format.fits_iff {f : Format} {arg : Word64} : f.fits arg = true ↔ arg >>> f.operandBits = 0#64 := beq_iff_eq

@[simp] theorem Format.fits_N {arg : Word64} : Format.N.fits arg = true ↔ arg = 0#64 := by
  rw [Format.fits_iff, Format.operandBits, BitVec.ushiftRight_zero]

@[simp] theorem Format.fits_B {arg : Word64} : Format.B.fits arg = true ↔ arg >>> 8 = 0#64 := Format.fits_iff

@[simp] theorem Format.fits_H {arg : Word64} : Format.H.fits arg = true ↔ arg >>> 16 = 0#64 := Format.fits_iff

@[simp] theorem Format.fits_Q (arg : Word64) : Format.Q.fits arg = true := by
  rw [Format.fits_iff, Format.operandBits, BitVec.ushiftRight_eq_zero (Nat.le_refl 64)]

theorem Format.fits_iff_toNat_lt {f : Format} {arg : Word64} :
    f.fits arg = true ↔ arg.toNat < 2 ^ f.operandBits := by
  rw [Format.fits_iff, ← BitVec.toNat_inj, BitVec.toNat_ushiftRight, Nat.shiftRight_eq_div_pow, BitVec.toNat_zero,
    Nat.div_eq_zero_iff_lt (Nat.two_pow_pos _)]

/-- An argument that fits its format is its operand, zero-extended (R84). -/
theorem Format.setWidth_operand {f : Format} {k : Nat} {arg : Word64} (hk : f.operandBits = k)
    (h : f.fits arg = true) : (arg.setWidth k).setWidth 64 = arg := by
  rw [Format.fits_iff_toNat_lt, hk] at h
  apply BitVec.eq_of_toNat_eq
  rw [BitVec.toNat_setWidth, BitVec.toNat_setWidth, Nat.mod_eq_of_lt h, Nat.mod_eq_of_lt arg.isLt]

/-! ### What the decoder reads, and that the encoder writes it -/

/-- Every command's word carries its opcode and argument, and the argument fits the format. -/
theorem encodedFields : ∀ i : Instr, Laws.EncodedFields.Statement i
  | .nop => Laws.EncodedFields.nop
  | .srst => Laws.EncodedFields.srst
  | .erclr => Laws.EncodedFields.erclr
  | .rdreg n => Laws.EncodedFields.rdreg n
  | .b32clr => Laws.EncodedFields.b32clr
  | .b32ch c => Laws.EncodedFields.b32ch c
  | .b32end => Laws.EncodedFields.b32end
  | .keyrd b => Laws.EncodedFields.keyrd b
  | .ctrset e => Laws.EncodedFields.ctrset e
  | .ctrnow => Laws.EncodedFields.ctrnow
  | .hmac => Laws.EncodedFields.hmac
  | .trunc => Laws.EncodedFields.trunc

theorem Instr.fits_arg (i : Instr) : i.format.fits i.arg = true := (encodedFields i).2.2

theorem withFormat_eq_ok {f : Format} {arg : Word64} {i j : Instr} :
    withFormat f arg j = .ok i ↔ f.fits arg = true ∧ j = i := by
  unfold withFormat
  split <;> simp [*]

/-- The decoder reads the command off its fields: the opcode selects the arm and the format admits the argument. -/
theorem decode_of_fields {w : CmdWord} {i : Instr} (hop : opField w = i.opcode) (harg : argField w = i.arg) :
    decode w = .ok i := by
  have hread : decode w = withFormat i.format i.arg i := by
    unfold decode
    rw [hop, harg]
    cases i <;> simp [Instr.opcode, Instr.arg, Instr.format]
  rw [hread, withFormat_eq_ok]
  exact ⟨i.fits_arg, rfl⟩

/-- One arm of the decoder: what it answers has the word's fields. -/
theorem fields_of_withFormat {f : Format} {w : CmdWord} {i j : Instr} (h : withFormat f (argField w) j = .ok i)
    (hop : (opField w).toNat = j.opcode.toNat) (harg : f.fits (argField w) = true → j.arg = argField w) :
    opField w = i.opcode ∧ argField w = i.arg := by
  obtain ⟨hfit, rfl⟩ := withFormat_eq_ok.mp h
  exact ⟨BitVec.eq_of_toNat_eq hop, (harg hfit).symm⟩

/-- The fields of a word that decodes are those of its command: one case per row of the opcode map. Rows 4 and 6
have format `B`, row 8 `H`, row 9 `Q`, and 13 is the unused opcodes. -/
theorem fields_of_decode {w : CmdWord} {i : Instr} (h : decode w = .ok i) :
    opField w = i.opcode ∧ argField w = i.arg := by
  unfold decode at h
  split at h
  case h_4 hop | h_6 hop => exact fields_of_withFormat h hop (Format.setWidth_operand rfl)
  case h_8 hop => exact fields_of_withFormat h hop (Format.setWidth_operand rfl)
  case h_9 hop => exact fields_of_withFormat h hop fun _ => rfl
  case h_13 => cases h
  all_goals next hop => exact fields_of_withFormat h hop fun hfit => (Format.fits_N.mp hfit).symm

/-- The decoder is the inverse of the encoder (R85, R86). -/
theorem decode_eq_ok_iff {w : CmdWord} {i : Instr} : decode w = .ok i ↔ w = encode i :=
  ⟨fun h => eq_encode_iff.mpr (fields_of_decode h),
    fun h => let ⟨hop, harg⟩ := eq_encode_iff.mp h; decode_of_fields hop harg⟩

/-- Settles O2, by `decode_eq_ok_iff` at the command's own word. -/
theorem decodeOfEncode : Obligations.DecodeOfEncode := by
  unfold Obligations.DecodeOfEncode
  exact fun i => ⟨i.fits_arg, decode_eq_ok_iff.mpr rfl⟩

/-- Settles O3, the other direction of `decode_eq_ok_iff`. -/
theorem encodeOfDecode : Obligations.EncodeOfDecode := by
  unfold Obligations.EncodeOfDecode
  exact fun w i h => (decode_eq_ok_iff.mp h).symm

/-- Settles O1, by evaluating the decoder on the sixteen words. -/
theorem wordsOfTheSpecDecode : Obligations.WordsOfTheSpecDecode := by
  unfold Obligations.WordsOfTheSpecDecode
  decide

/-! ### The opcode table by opcode and format (R81, R85) -/

/-- The opcode and format columns of R85's table, in the order of `opcodeRows`. -/
def opcodeFormats : List (BitVec 8 × Format) :=
  [(0x00#8, .N), (0x01#8, .N), (0x02#8, .N), (0x03#8, .B), (0x10#8, .N), (0x11#8, .B), (0x12#8, .N), (0x13#8, .H),
    (0x20#8, .Q), (0x21#8, .N), (0x30#8, .N), (0x40#8, .N)]

/-- The fields of the word are those a row of the opcode and format columns allows (R86). -/
def fitsRow (w : CmdWord) (r : BitVec 8 × Format) : Prop := opField w = r.1 ∧ r.2.fits (argField w) = true

theorem Instr.mem_opcodeFormats (i : Instr) : (i.opcode, i.format) ∈ opcodeFormats := by
  cases i <;> simp [opcodeFormats, Instr.opcode, Instr.format]

/-- Every argument that fits a row is that of a command with the row's opcode. -/
theorem exists_instr_of_fits {r : BitVec 8 × Format} (hr : r ∈ opcodeFormats) {arg : Word64}
    (hfit : r.2.fits arg = true) : ∃ i : Instr, r.1 = i.opcode ∧ arg = i.arg := by
  simp only [opcodeFormats, List.mem_cons, List.not_mem_nil, or_false] at hr
  rcases hr with rfl | rfl | rfl | rfl | rfl | rfl | rfl | rfl | rfl | rfl | rfl | rfl
  · exact ⟨.nop, rfl, Format.fits_N.mp hfit⟩
  · exact ⟨.srst, rfl, Format.fits_N.mp hfit⟩
  · exact ⟨.erclr, rfl, Format.fits_N.mp hfit⟩
  · exact ⟨.rdreg (arg.setWidth 8), rfl, (Format.setWidth_operand rfl hfit).symm⟩
  · exact ⟨.b32clr, rfl, Format.fits_N.mp hfit⟩
  · exact ⟨.b32ch (arg.setWidth 8), rfl, (Format.setWidth_operand rfl hfit).symm⟩
  · exact ⟨.b32end, rfl, Format.fits_N.mp hfit⟩
  · exact ⟨.keyrd (arg.setWidth 16), rfl, (Format.setWidth_operand rfl hfit).symm⟩
  · exact ⟨.ctrset arg, rfl, rfl⟩
  · exact ⟨.ctrnow, rfl, Format.fits_N.mp hfit⟩
  · exact ⟨.hmac, rfl, Format.fits_N.mp hfit⟩
  · exact ⟨.trunc, rfl, Format.fits_N.mp hfit⟩

/-- The words that decode, row by row of the table (R86). -/
theorem exists_decode_iff {w : CmdWord} : (∃ i, decode w = .ok i) ↔ ∃ r ∈ opcodeFormats, fitsRow w r := by
  constructor
  · rintro ⟨i, h⟩
    obtain ⟨hop, harg⟩ := fields_of_decode h
    exact ⟨_, i.mem_opcodeFormats, hop, harg ▸ i.fits_arg⟩
  · rintro ⟨r, hr, hop, hfit⟩
    obtain ⟨i, hi, harg⟩ := exists_instr_of_fits hr hfit
    exact ⟨i, decode_of_fields (hop.trans hi) harg⟩

/-- The mask column of a row: the opcode and the argument bits its format marks zero. -/
def Format.mask (f : Format) : CmdWord := BitVec.allOnes 8 ++ BitVec.allOnes 64 <<< f.operandBits

/-- The mask and match columns are what the opcode and format columns make them. -/
theorem opcodeRows_eq : opcodeRows = opcodeFormats.map fun r => (r.2.mask, r.1 ++ 0#64) := by decide

/-- The bits above the operand are 0 exactly when masking the operand out leaves 0. -/
theorem Format.and_mask_eq_zero_iff {f : Format} {arg : Word64} :
    arg &&& BitVec.allOnes 64 <<< f.operandBits = 0#64 ↔ f.fits arg = true := by
  have hle : arg.toNat / 2 ^ f.operandBits * 2 ^ f.operandBits < 2 ^ 64 :=
    (Nat.div_mul_le_self _ _).trans_lt arg.isLt
  rw [Format.fits_iff_toNat_lt, ← BitVec.shiftLeft_ushiftRight, ← BitVec.toNat_inj, BitVec.toNat_shiftLeft,
    BitVec.toNat_ushiftRight, Nat.shiftRight_eq_div_pow, Nat.shiftLeft_eq, Nat.mod_eq_of_lt hle, BitVec.toNat_zero,
    Nat.mul_eq_zero, or_iff_left (Nat.two_pow_pos _).ne', Nat.div_eq_zero_iff_lt (Nat.two_pow_pos _)]

theorem and_mask_eq_iff {w : CmdWord} {r : BitVec 8 × Format} : w &&& r.2.mask = r.1 ++ 0#64 ↔ fitsRow w r := by
  have hand : w &&& r.2.mask = opField w ++ (argField w &&& BitVec.allOnes 64 <<< r.2.operandBits) := by
    conv_lhs => rw [← opField_append_argField w, Format.mask, BitVec.and_append, BitVec.and_allOnes]
  rw [hand, eq_append_iff, Laws.EncodedFields.opField_append, Laws.EncodedFields.argField_append,
    Format.and_mask_eq_zero_iff, fitsRow]

theorem legalWord_iff {w : CmdWord} : legalWord w = true ↔ ∃ r ∈ opcodeFormats, fitsRow w r := by
  simp only [legalWord, opcodeRows_eq, List.any_map, List.any_eq_true, Function.comp_apply, beq_iff_eq, and_mask_eq_iff]

/-- A word has one opcode, and no two rows have the same. -/
theorem length_matching_rows_le_one (w : CmdWord) :
    (opcodeRows.filter fun r => w &&& r.1 == r.2).length ≤ 1 := by
  have hnodup : (opcodeFormats.map Prod.fst).Nodup := by decide
  calc (opcodeRows.filter fun r => w &&& r.1 == r.2).length
    _ = opcodeFormats.countP fun r => w &&& r.2.mask == r.1 ++ 0#64 := by
      rw [← List.countP_eq_length_filter, opcodeRows_eq, List.countP_map]; rfl
    _ ≤ opcodeFormats.countP fun r => r.1 == opField w :=
      List.countP_mono_left fun r _ h => beq_iff_eq.mpr (and_mask_eq_iff.mp (beq_iff_eq.mp h)).1.symm
    _ = (opcodeFormats.map Prod.fst).count (opField w) := by rw [List.count, List.countP_map]; rfl
    _ ≤ 1 := List.nodup_iff_count_le_one.mp hnodup _

/-- Settles O4: masking out a row's operand compares the word's two fields. -/
theorem decoderAgreesWithTable : Obligations.DecoderAgreesWithTable := by
  unfold Obligations.DecoderAgreesWithTable
  exact ⟨fun w => exists_decode_iff.trans legalWord_iff.symm, length_matching_rows_le_one⟩

end Sys2Proof

namespace Sys2Proof.Machine

/-- Settles O5: the twelve rows of `opcodeFormats` are the twelve fields allowed, grouped by format. -/
theorem illegalWordsAreRefused : Obligations.IllegalWordsAreRefused := by
  unfold Obligations.IllegalWordsAreRefused
  refine ⟨fun w => ?_, fun w => decode_eq_ok_iff, fun s w rest hh hw hd => ?_⟩
  · rw [exists_decode_iff]
    simp only [opcodeFormats, fitsRow, List.mem_cons, List.not_mem_nil, or_false, exists_eq_or_imp, exists_eq_left,
      Format.fits_N, Format.fits_B, Format.fits_H, Format.fits_Q, and_true]
    simp only [or_and_right]
    exact iff_of_eq (by ac_rfl)
  · cases hdec : decode w with
    | ok i => exact absurd hdec (hd i)
    | error e =>
      rw [step_illegal hh hw hdec, State.popHost, hh]
      rfl

end Sys2Proof.Machine

namespace Sys2Proof.Machine

/-! ### `B32CLR` and the alphabet (R110, R112 to R114) -/

/-- Settles O18: the operations of `B32CLR` are record updates. -/
theorem b32clrStartsANewSecret : Obligations.B32clrStartsANewSecret := by
  unfold Obligations.B32clrStartsANewSecret
  exact fun s => rfl

/-- `upcase` as a function of code numbers (R112). -/
theorem upcase_eq (c : Byte) :
    upcase c = if 0x61 ≤ c.toNat ∧ c.toNat ≤ 0x7A then BitVec.ofNat 8 (c.toNat - 0x20) else c := by
  have hcond : (0x61#8 ≤ c ∧ c ≤ 0x7A#8) ↔ (0x61 ≤ c.toNat ∧ c.toNat ≤ 0x7A) := by simp [BitVec.le_def]
  unfold upcase
  simp only [hcond]
  split
  · apply BitVec.eq_of_toNat_eq
    simp only [BitVec.toNat_sub, BitVec.toNat_ofNat]
    omega
  · rfl

/-- The alphabet of R113: the character with index `v` stands at place `v`. -/
def alphabet : List Byte :=
  [0x41#8, 0x42#8, 0x43#8, 0x44#8, 0x45#8, 0x46#8, 0x47#8, 0x48#8, 0x49#8, 0x4A#8, 0x4B#8, 0x4C#8, 0x4D#8, 0x4E#8,
    0x4F#8, 0x50#8, 0x51#8, 0x52#8, 0x53#8, 0x54#8, 0x55#8, 0x56#8, 0x57#8, 0x58#8, 0x59#8, 0x5A#8, 0x32#8, 0x33#8,
    0x34#8, 0x35#8, 0x36#8, 0x37#8]

/-- A code with an index stands at that place of the alphabet. -/
theorem alphabet_bind_a2i : ∀ u : Byte, ((a2i u).bind fun v => alphabet[v.toNat]?) = (a2i u).map fun _ => u := by
  decide

/-- The code at a place of the alphabet has that index. -/
theorem a2i_bind_alphabet : ∀ v : BitVec 5, alphabet[v.toNat]?.bind a2i = some v := by decide

/-- `A2I` and the alphabet are each other's inverse (R113). -/
theorem a2i_eq_some_iff (u : Byte) (v : BitVec 5) : a2i u = some v ↔ alphabet[v.toNat]? = some u := by
  constructor
  · intro h; simpa [h] using alphabet_bind_a2i u
  · intro h; simpa [h] using a2i_bind_alphabet v

theorem a2i_ne_none_iff (u : Byte) :
    a2i u ≠ none ↔ (0x32 ≤ u.toNat ∧ u.toNat ≤ 0x37) ∨ (0x41 ≤ u.toNat ∧ u.toNat ≤ 0x5A) := by
  have hletter : (0x41#8 ≤ u ∧ u ≤ 0x5A#8) ↔ (0x41 ≤ u.toNat ∧ u.toNat ≤ 0x5A) := by simp [BitVec.le_def]
  have hdigit : (0x32#8 ≤ u ∧ u ≤ 0x37#8) ↔ (0x32 ≤ u.toNat ∧ u.toNat ≤ 0x37) := by simp [BitVec.le_def]
  unfold a2i
  simp only [hletter, hdigit]
  split
  · next h => simp [h]
  · next h =>
    split
    · next h' => simp [h']
    · next h' => simp [h, h']

/-- The 58 valid codes: upper-case letters, those that fold to them, and six digits (R114). -/
theorem charIndex_ne_none_iff (c : Byte) : charIndex c ≠ none ↔
    (0x32 ≤ c.toNat ∧ c.toNat ≤ 0x37) ∨ (0x41 ≤ c.toNat ∧ c.toNat ≤ 0x5A) ∨
      (0x61 ≤ c.toNat ∧ c.toNat ≤ 0x7A) := by
  rw [charIndex, a2i_ne_none_iff, upcase_eq]
  split
  · rw [BitVec.toNat_ofNat]; omega
  · omega

/-- Settles O19. -/
theorem characterLookup : Obligations.CharacterLookup := by
  unfold Obligations.CharacterLookup
  exact ⟨upcase_eq, a2i_eq_some_iff, charIndex_ne_none_iff⟩

/-! ### Each check of `B32CH`, and the append written out (R115) -/

/-- A residue of less than three bits and a group complete one nibble (R115 step 5). -/
theorem append_oneNibble {s : State} (v : BitVec 5) (h : s.accn.toNat < 3) : s.append v = { s with
    kbuf := Memory.write s.kbuf s.klen.toNat ((groupBits s.accb v).extractLsb' (s.accn.toNat + 1) 4)
    klen := s.klen + 1#17
    accb := BitVec.ofNat 3 ((groupBits s.accb v).toNat % 2 ^ (s.accn.toNat + 1))
    accn := s.accn + 1#2, nch := s.nch + 1#16 } := by
  have hlt : s.accn.toNat + 5 < 8 := by omega
  have hsub : s.accn.toNat + 5 - 4 = s.accn.toNat + 1 := by omega
  have haccn : BitVec.ofNat 2 (s.accn.toNat + 1) = s.accn + 1#2 := by rw [BitVec.ofNat_add]; simp
  simp [State.append, newNibbles, newAccb, newAccn, Memory.writeAll, hlt, hsub, haccn]

/-- Three bits and a group complete two nibbles, and nothing is left over (R115 step 5). -/
theorem append_twoNibbles {s : State} (v : BitVec 5) (h : s.accn = 3#2) : s.append v = { s with
    kbuf := Memory.write (Memory.write s.kbuf s.klen.toNat ((groupBits s.accb v).extractLsb' 4 4)) (s.klen.toNat + 1)
      ((groupBits s.accb v).extractLsb' 0 4)
    klen := s.klen + 2#17, accb := 0#3, accn := 0#2, nch := s.nch + 1#16 } := by
  simp [State.append, newNibbles, newAccb, newAccn, Memory.writeAll, h]

/-- Settles O20: one equation of `B32CH` per check; the invariant gives the append its cells (R115 (e)). -/
theorem b32chFollowsItsChecks : Obligations.B32chFollowsItsChecks := by
  unfold Obligations.B32chFollowsItsChecks
  intro c s
  simp only [← hasError_echr, ← hasError_eovf]
  refine ⟨execB32ch_closed, execB32ch_invalid, fun v hk hv => ⟨execB32ch_overflow hk hv,
    execB32ch_poisoned hk hv, fun ho hn he hinv => ?_⟩⟩
  have happend := execB32ch_append hk hv ho hn he (hasRoom_of_inv hinv hk hn)
  refine ⟨fun h => happend.trans ?_, fun h => happend.trans ?_⟩
  · rw [append_oneNibble v h]; rfl
  · rw [append_twoNibbles v h]; rfl

/-! ### A poisoned decoder, and the judgement of the key (R116, R117) -/

/-- Settles O22: the causes are those of `keyUnusable_iff`. -/
theorem b32endJudgesTheKey : Obligations.B32endJudgesTheKey := by
  unfold Obligations.B32endJudgesTheKey
  intro s
  simp only [← keyUnusable_iff]
  refine ⟨execB32end_closed, fun hk => ?_⟩
  split
  · next hu => exact execB32end_unusable hk hu
  · next hu => exact execB32end_good hk (by simpa using hu)

/-- No command but `B32CLR` and `SRST` clears a flag of the secret (R39). -/
theorem exec_keeps_secretFlag {i : Instr} {s t : State} {k : Nat} (hk : secretFlags.getLsbD k = true)
    (hclr : i ≠ .b32clr) (hsrst : i ≠ .srst) (hx : exec i s = .next t) (hs : s.er.getLsbD k = true) :
    t.er.getLsbD k = true := by
  have hother : (~~~otherFlags).getLsbD k = true := hk
  rcases exec_er_cases hx with he | ⟨c, -, he⟩ | ⟨hi, -⟩ | ⟨-, he⟩ | ⟨hi, -⟩
  · rw [he, hs]
  · rw [he, BitVec.getLsbD_or, hs, Bool.true_or]
  · exact absurd hi hsrst
  · rw [he, BitVec.getLsbD_and, hs, hother, Bool.true_and]
  · exact absurd hi hclr

/-- A poisoned, open decoder answers every character and appends none (R116). -/
theorem execB32ch_keeps_of_poisoned {s : State} (c : Byte) (hk : s.kdone = false)
    (hp : s.hasError .invalidCharacter = true ∨ s.hasError .keyOverflow = true) :
    ∃ t, execB32ch c s = .next t ∧ t = { s with er := t.er, responses := t.responses } := by
  rcases hv : charIndex c with _ | v
  · exact ⟨_, execB32ch_invalid hk hv, rfl⟩
  by_cases hfull : s.hasError .keyOverflow = true ∨ s.nch = s.cfg.maxch
  · exact ⟨_, execB32ch_overflow hk hv hfull, rfl⟩
  rw [not_or, Bool.not_eq_true] at hfull
  obtain ⟨hovf, hn⟩ := hfull
  exact ⟨_, execB32ch_poisoned hk hv hovf hn (hp.resolve_right (by simp [hovf])), rfl⟩

/-- Settles O21. -/
theorem poisonedDecoderGivesNoKey : Obligations.PoisonedDecoderGivesNoKey := by
  unfold Obligations.PoisonedDecoderGivesNoKey
  intro s hp
  refine ⟨fun i t hclr hsrst hx => ?_, fun hk => ⟨fun c => ?_, ?_⟩⟩
  · exact hp.imp (exec_keeps_secretFlag rfl hclr hsrst hx) (exec_keeps_secretFlag rfl hclr hsrst hx)
  · exact execB32ch_keeps_of_poisoned c hk (by simpa only [hasError_echr, hasError_eovf] using hp)
  · exact execB32end_unusable hk ((keyUnusable_iff s).mpr (hp.imp_right .inl))

/-! ### Lists of commands (R68, R89) -/

/-- A list of commands completes when its first command answers a state from which the rest completes. -/
theorem execAll_cons_eq_next {i : Instr} {is : List Instr} {s t : State} :
    execAll (i :: is) s = .next t ↔ ∃ u, exec i s = .next u ∧ execAll is u = .next t := by
  rw [execAll]
  cases exec i s <;> simp

theorem execAll_append_eq_next {is js : List Instr} {s t : State} :
    execAll (is ++ js) s = .next t ↔ ∃ u, execAll is s = .next u ∧ execAll js u = .next t := by
  induction is generalizing s with
  | nil => simp [execAll]
  | cons i is ih =>
    simp only [List.cons_append, execAll_cons_eq_next, ih]
    constructor
    · rintro ⟨v, hv, u, hu, ht⟩; exact ⟨u, ⟨v, hv, hu⟩, ht⟩
    · rintro ⟨u, ⟨v, hv, hu⟩, ht⟩; exact ⟨v, hv, u, hu, ht⟩

/-- The command `i'` follows `i` from every state that `R` relates to the state of `i`, and `R` relates their answers. -/
def Follows (R : State → State → Prop) (i i' : Instr) : Prop :=
  ∀ s s' t, R s s' → exec i s = .next t → ∃ t', exec i' s' = .next t' ∧ R t t'

/-- Lists of commands that follow each other one by one end in related states. -/
theorem execAll_follows {R : State → State → Prop} {is is' : List Instr} (h : List.Forall₂ (Follows R) is is')
    {s s' t : State} (hR : R s s') (hx : execAll is s = .next t) : ∃ t', execAll is' s' = .next t' ∧ R t t' := by
  induction h generalizing s s' with
  | nil => cases hx; exact ⟨s', rfl, hR⟩
  | cons hi _ ih =>
    obtain ⟨u, hu, hx⟩ := execAll_cons_eq_next.mp hx
    obtain ⟨u', hu', hR⟩ := hi _ _ _ hR hu
    obtain ⟨t', ht', hR⟩ := ih hR hx
    exact ⟨t', execAll_cons_eq_next.mpr ⟨u', hu', ht'⟩, hR⟩

/-! ### What `DECODE` reads (R124) -/

/-- The registers and parameters that `B32CH` and `B32END` read are the same in both states, and so are the responses
returned since `r` and `r'`. -/
structure SameDecoder (r r' : List RspWord) (s s' : State) : Prop where
  maxch : s'.cfg.maxch = s.cfg.maxch
  oddKey : s'.cfg.oddKey = s.cfg.oddKey
  kdone : s'.kdone = s.kdone
  accn : s'.accn = s.accn
  accb : s'.accb = s.accb
  nch : s'.nch = s.nch
  klen : s'.klen = s.klen
  kbuf : s'.kbuf = s.kbuf
  echr : s'.hasError .invalidCharacter = s.hasError .invalidCharacter
  eovf : s'.hasError .keyOverflow = s.hasError .keyOverflow
  responses : ∃ rs, s.responses = r ++ rs ∧ s'.responses = r' ++ rs

section
variable {r r' : List RspWord} {s s' : State}

theorem SameDecoder.respond (h : SameDecoder r r' s s') (st : BitVec 8) (data : Word64) :
    SameDecoder r r' (s.respond st data) (s'.respond st data) := by
  obtain ⟨rs, hr, hr'⟩ := h.responses
  exact { h with responses := ⟨rs ++ [rspWord st data], by simp [hr], by simp [hr']⟩ }

theorem SameDecoder.raise (h : SameDecoder r r' s s') (c : ErrorCause) (info : Word64) :
    SameDecoder r r' (s.raise c info) (s'.raise c info) :=
  { h.respond c.status info with
    echr := by rw [State.hasError_raise, State.hasError_raise, h.echr]
    eovf := by rw [State.hasError_raise, State.hasError_raise, h.eovf] }

theorem SameDecoder.append (h : SameDecoder r r' s s') (v : BitVec 5) :
    SameDecoder r r' (s.append v) (s'.append v) :=
  { h with
    accn := by simp [h.accn]
    accb := by simp [h.accn, h.accb]
    nch := by simp [h.nch]
    klen := by simp [h.accn, h.accb, h.klen]
    kbuf := by simp [h.accn, h.accb, h.klen, h.kbuf] }

theorem SameDecoder.closeDecoder (h : SameDecoder r r' s s') : SameDecoder r r' s.closeDecoder s'.closeDecoder :=
  { h with kdone := rfl, accn := rfl, accb := rfl }

theorem SameDecoder.wipeKey (h : SameDecoder r r' s s') : SameDecoder r r' s.wipeKey s'.wipeKey :=
  { h with klen := rfl, kbuf := rfl }

theorem SameDecoder.hasRoom (h : SameDecoder r r' s s') : s'.hasRoom = s.hasRoom := by
  rw [Bool.eq_iff_iff, hasRoom_iff, hasRoom_iff, State.appendCount, State.appendCount, Params.kcap, Params.kcap, h.klen,
    h.accn, h.maxch]

theorem SameDecoder.keyUnusable (h : SameDecoder r r' s s') : s'.keyUnusable = s.keyUnusable := by
  simp only [State.keyUnusable, h.echr, h.eovf, h.klen, h.oddKey]

end

theorem follows_b32ch_sameDecoder (r r' : List RspWord) (c : Byte) :
    Follows (SameDecoder r r') (.b32ch c) (.b32ch c) := by
  intro s s' t h hx
  rcases execB32ch_cases hx with ⟨hk, rfl⟩ | ⟨hk, hv, rfl⟩ | ⟨v, hk, hv, hfull, rfl⟩ | ⟨v, hk, hv, ho, hn, he, rfl⟩ |
    ⟨v, hk, hv, ho, hn, he, hr, rfl⟩ <;> rw [← h.kdone] at hk
  · exact ⟨_, execB32ch_closed hk, h.raise _ _⟩
  · exact ⟨_, execB32ch_invalid hk hv, h.raise _ _⟩
  · rw [← h.eovf, ← h.nch, ← h.maxch] at hfull
    exact ⟨_, execB32ch_overflow hk hv hfull, h.raise _ _⟩
  · rw [← h.nch, ← h.maxch] at hn
    exact ⟨_, execB32ch_poisoned hk hv (h.eovf.trans ho) hn (h.echr.trans he), h.respond _ _⟩
  · rw [← h.nch, ← h.maxch] at hn
    exact ⟨_, execB32ch_append hk hv (h.eovf.trans ho) hn (h.echr.trans he) (h.hasRoom.trans hr),
      (h.append v).respond _ _⟩

theorem follows_b32end_sameDecoder (r r' : List RspWord) : Follows (SameDecoder r r') .b32end .b32end := by
  intro s s' t h hx
  rcases execB32end_cases hx with ⟨hk, rfl⟩ | ⟨hk, hu, rfl⟩ | ⟨hk, hu, rfl⟩ <;> rw [← h.kdone] at hk
  · exact ⟨_, execB32end_closed hk, h.raise _ _⟩
  · exact ⟨_, execB32end_unusable hk (h.keyUnusable.trans hu), h.closeDecoder.wipeKey.raise _ _⟩
  · exact ⟨_, execB32end_good hk (h.keyUnusable.trans hu), h.klen ▸ h.closeDecoder.respond _ _⟩

/-- `B32CLR` (R110): the state in which the first character of a secret is fed. -/
def State.afterB32clr (s : State) : State := s.emptyDecoder.clearSecretFlags.dropDigest.respond statusOk 0#64

theorem State.afterB32clr_hasError (s : State) {c : ErrorCause} (hc : c.flag &&& ~~~secretFlags = 0#6) :
    s.afterB32clr.hasError c = false := by
  have her : s.afterB32clr.er &&& c.flag = 0#6 := by
    change s.er &&& ~~~secretFlags &&& c.flag = 0#6
    rw [BitVec.and_assoc, BitVec.and_comm _ c.flag, hc, BitVec.and_zero]
  rw [State.hasError, her]
  rfl

/-- After `B32CLR` nothing is left of the state before it that a decode reads, the parameters apart (R110, R124). -/
theorem sameDecoder_afterB32clr {s s' : State} (hmaxch : s'.cfg.maxch = s.cfg.maxch)
    (hodd : s'.cfg.oddKey = s.cfg.oddKey) : SameDecoder s.responses s'.responses s.afterB32clr s'.afterB32clr where
  maxch := hmaxch
  oddKey := hodd
  kdone := rfl
  accn := rfl
  accb := rfl
  nch := rfl
  klen := rfl
  kbuf := rfl
  echr := by rw [State.afterB32clr_hasError _ rfl, State.afterB32clr_hasError _ rfl]
  eovf := by rw [State.afterB32clr_hasError _ rfl, State.afterB32clr_hasError _ rfl]
  responses := ⟨_, rfl, rfl⟩

theorem execAll_decode_eq_next {str : List Byte} {s t : State} :
    execAll (Pseudo.decode str).expand s = .next t ↔
      execAll (feedString str ++ [.b32end]) s.afterB32clr = .next t := Iff.rfl

/-- A decode sequence that completes from one state completes alike from every other with the same parameters. -/
theorem execAll_decode_sameDecoder {str : List Byte} {s s' t : State} (hmaxch : s'.cfg.maxch = s.cfg.maxch)
    (hodd : s'.cfg.oddKey = s.cfg.oddKey) (hx : execAll (Pseudo.decode str).expand s = .next t) :
    ∃ t', execAll (Pseudo.decode str).expand s' = .next t' ∧ SameDecoder s.responses s'.responses t t' := by
  refine execAll_follows (s' := s'.afterB32clr) ?_ (sameDecoder_afterB32clr hmaxch hodd) (execAll_decode_eq_next.mp hx)
  refine List.forall₂_same.mpr fun i hi => ?_
  rcases List.mem_append.mp hi with hi | hi
  · obtain ⟨c, -, rfl⟩ := List.mem_map.mp hi
    exact follows_b32ch_sameDecoder _ _ c
  · rw [List.mem_singleton.mp hi]
    exact follows_b32end_sameDecoder _ _

/-- From a state that meets the invariant every string can be fed, valid or not (R115 (e)). -/
theorem execAll_feedString_of_inv (str : List Byte) {s : State} (h : s.Inv) :
    ∃ t, execAll (feedString str) s = .next t ∧ t.Inv := by
  induction str generalizing s with
  | nil => exact ⟨s, rfl, h⟩
  | cons c str ih =>
    obtain ⟨u, hu⟩ := exec_next_of_inv (.b32ch c) h
    obtain ⟨t, ht, hinv⟩ := ih (execB32ch_keeps_inv h hu)
    exact ⟨t, execAll_cons_eq_next.mpr ⟨u, hu, ht⟩, hinv⟩

theorem afterB32clr_resetOf_inv (cfg : Params) : (State.resetOf cfg).afterB32clr.Inv :=
  ((invariantAtReset cfg).newSecret rfl).respond _ _

theorem execAll_decode_resetOf (cfg : Params) (str : List Byte) :
    ∃ t, execAll (Pseudo.decode str).expand (State.resetOf cfg) = .next t := by
  obtain ⟨u, hu, hinv⟩ := execAll_feedString_of_inv str (afterB32clr_resetOf_inv cfg)
  obtain ⟨t, ht⟩ := exec_next_of_inv .b32end hinv
  exact ⟨t, execAll_decode_eq_next.mpr
    (execAll_append_eq_next.mpr ⟨u, hu, execAll_cons_eq_next.mpr ⟨t, ht, rfl⟩⟩)⟩

/-- Settles O25: the run from reset completes, and the runs from both states follow it. -/
theorem decodeSequenceIsPure : Obligations.DecodeSequenceIsPure := by
  unfold Obligations.DecodeSequenceIsPure
  intro s s' str hmaxch hodd
  obtain ⟨u, hu⟩ := execAll_decode_resetOf s.cfg str
  obtain ⟨t, ht, h⟩ := execAll_decode_sameDecoder (s := State.resetOf s.cfg) (s' := s) rfl rfl hu
  obtain ⟨t', ht', h'⟩ := execAll_decode_sameDecoder (s' := s') hmaxch.symm hodd.symm ht
  obtain ⟨rs, hr, hr'⟩ := h'.responses
  exact ⟨t, t', rs, ht, ht', h'.kbuf.symm, h'.klen.symm, hr, hr'⟩

/-! ### Case of letters (R112, R228) -/

/-- The two states differ in the responses only. -/
def SameButResponses (s s' : State) : Prop := ∃ rs, s' = { s with responses := rs }

/-- `B32CH` uses of its character the index alone, except to name it in an error response (R112 to R115). -/
theorem follows_b32ch_sameButResponses {c c' : Byte} (hc : charIndex c = charIndex c') :
    Follows SameButResponses (.b32ch c) (.b32ch c') := by
  rintro s _ t ⟨rs, rfl⟩ hx
  rcases execB32ch_cases hx with ⟨hk, rfl⟩ | ⟨hk, hv, rfl⟩ | ⟨v, hk, hv, hfull, rfl⟩ | ⟨v, hk, hv, ho, hn, he, rfl⟩ |
    ⟨v, hk, hv, ho, hn, he, hr, rfl⟩
  · exact ⟨_, execB32ch_closed hk, _, rfl⟩
  · exact ⟨_, execB32ch_invalid hk (hc.symm.trans hv), _, rfl⟩
  · exact ⟨_, execB32ch_overflow hk (hc.symm.trans hv) hfull, _, rfl⟩
  · exact ⟨_, execB32ch_poisoned hk (hc.symm.trans hv) ho hn he, _, rfl⟩
  · exact ⟨_, execB32ch_append hk (hc.symm.trans hv) ho hn he hr, _, rfl⟩

theorem follows_b32end_sameButResponses : Follows SameButResponses .b32end .b32end := by
  rintro s _ t ⟨rs, rfl⟩ hx
  rcases execB32end_cases hx with ⟨hk, rfl⟩ | ⟨hk, hu, rfl⟩ | ⟨hk, hu, rfl⟩
  · exact ⟨_, execB32end_closed hk, _, rfl⟩
  · exact ⟨_, execB32end_unusable hk hu, _, rfl⟩
  · exact ⟨_, execB32end_good hk hu, _, rfl⟩

/-- Strings with the same upper-case form have the same indices, character by character (R112, R114). -/
theorem forall₂_charIndex_of_map_upcase {str str' : List Byte} (h : str.map upcase = str'.map upcase) :
    List.Forall₂ (fun c c' => charIndex c = charIndex c') str str' := by
  rw [← List.forall₂_eq_eq_eq, List.forall₂_map_left_iff, List.forall₂_map_right_iff] at h
  exact h.imp fun c c' hc => congrArg a2i hc

/-- Settles O26: the second run follows the first command by command. -/
theorem decodeIgnoresCase : Obligations.DecodeIgnoresCase := by
  unfold Obligations.DecodeIgnoresCase
  intro s t str str' hup hx
  have hfeed : List.Forall₂ (Follows SameButResponses) (feedString str) (feedString str') := by
    rw [feedString, feedString, List.forall₂_map_left_iff, List.forall₂_map_right_iff]
    exact (forall₂_charIndex_of_map_upcase hup).imp fun c c' => follows_b32ch_sameButResponses
  have hend : List.Forall₂ (Follows SameButResponses) [.b32end] [.b32end] :=
    .cons follows_b32end_sameButResponses .nil
  obtain ⟨_, ht', rs, rfl⟩ := execAll_follows (List.rel_append hfeed hend) ⟨_, rfl⟩ (execAll_decode_eq_next.mp hx)
  exact ⟨_, execAll_decode_eq_next.mpr ht', rfl⟩

/-! ### The repacker loses no bit (R64, R111, R115) -/

/-- The bits of a nibble, most significant first. -/
def nibbleBits (n : Nibble) : List Bool := [n.getLsbD 3, n.getLsbD 2, n.getLsbD 1, n.getLsbD 0]

theorem nibbleOf_bits : ∀ n : Nibble, nibbleOf (n.getLsbD 3) (n.getLsbD 2) (n.getLsbD 1) (n.getLsbD 0) = n := by decide

/-- Re-slicing whole nibbles gives them back. -/
theorem nibblesOf_flatMap_append (ns : List Nibble) (bits : List Bool) :
    nibblesOf (ns.flatMap nibbleBits ++ bits) = ns ++ nibblesOf bits := by
  induction ns with
  | nil => rfl
  | cons n ns ih => exact congrArg₂ List.cons (nibbleOf_bits n) ih

theorem length_nibblesOf (bits : List Bool) : (nibblesOf bits).length = bits.length / 4 := by
  induction bits using nibblesOf.induct with
  | case1 a b c d rest ih => simp only [nibblesOf, List.length_cons, ih]; omega
  | case2 bits h =>
    rcases bits with _ | ⟨a, _ | ⟨b, _ | ⟨c, _ | ⟨d, rest⟩⟩⟩⟩
    case cons.cons.cons.cons => exact absurd rfl (h a b c d rest)
    all_goals simp [nibblesOf]

theorem length_bitString (vs : List (BitVec 5)) : (bitString vs).length = 5 * vs.length := by
  induction vs with
  | nil => rfl
  | cons v vs ih =>
    rw [bitString, List.flatMap_cons, List.length_append, ← bitString, ih]
    simp only [List.length_cons, List.length_nil]
    omega

/-- `HEX` of `n` characters has `floor(5n/4)` nibbles (R111). -/
theorem length_hexString (vs : List (BitVec 5)) : (hexString vs).length = 5 * vs.length / 4 := by
  rw [hexString, length_nibblesOf, length_bitString]

/-- The bits held in the residue, most significant first (R23). -/
def residueBits (accn : BitVec 2) (accb : BitVec 3) : List Bool :=
  [accb.getLsbD 2, accb.getLsbD 1, accb.getLsbD 0].drop (3 - accn.toNat)

/-- Bits 4 to 0 of `t` are the group, bits 7 to 5 the residue (R115 step 5). -/
theorem groupBits_getElem (accb : BitVec 3) (v : BitVec 5) {i : Nat} (hi : i < 8) :
    (groupBits accb v)[i] = if i < 5 then v.getLsbD i else accb.getLsbD (i - 5) := by
  by_cases h : i < 5
  · simp [groupBits, h]
  · simp only [groupBits, BitVec.getElem_or, BitVec.getElem_shiftLeft, BitVec.getElem_setWidth, if_neg h]
    rw [BitVec.getLsbD_of_ge v i (by omega)]
    simp [h]

/-- The new residue is the low `ACCN + 1` bits of the group (R115 step 5). -/
theorem newAccb_getElem {accn : BitVec 2} (accb : BitVec 3) (v : BitVec 5) {i : Nat} (h : accn.toNat < 3)
    (hi : i < accn.toNat + 1) : (newAccb accn accb v)[i] = v[i] := by
  have hn : accn.toNat + 5 < 8 := by omega
  have hsub : accn.toNat + 5 - 4 = accn.toNat + 1 := by omega
  have hbit : (groupBits accb v)[i] = v[i] := by
    rw [groupBits_getElem accb v (by omega), if_pos (by omega), BitVec.getLsbD_eq_getElem]
  rw [← hbit, ← BitVec.getLsbD_eq_getElem, newAccb]
  simp only [if_pos hn, hsub, BitVec.getLsbD_ofNat, Nat.testBit_mod_two_pow, hi, show i < 3 by omega]
  simp [BitVec.getElem_eq_testBit_toNat]

/-- The residue and a new group are the bits of the nibbles written and of the new residue (R115 (a)). -/
theorem residueBits_append_group (accn : BitVec 2) (accb : BitVec 3) (v : BitVec 5) :
    residueBits accn accb ++ bitString [v] =
      (newNibbles accn accb v).flatMap nibbleBits ++ residueBits (newAccn accn) (newAccb accn accb v) := by
  have hcases : ∀ a : BitVec 2, a = 0#2 ∨ a = 1#2 ∨ a = 2#2 ∨ a = 3#2 := by decide
  rcases hcases accn with rfl | rfl | rfl | rfl <;>
    simp [residueBits, bitString, newNibbles, newAccn, nibbleBits, groupBits_getElem, newAccb_getElem]

/-- What an append writes, and the residue it leaves, are re-sliced from the bits there were. -/
theorem nibblesOf_residueBits_cons (accn : BitVec 2) (accb : BitVec 3) (v : BitVec 5) (vs : List (BitVec 5)) :
    nibblesOf (residueBits accn accb ++ bitString (v :: vs)) =
      newNibbles accn accb v ++ nibblesOf (residueBits (newAccn accn) (newAccb accn accb v) ++ bitString vs) := by
  have hcons : bitString (v :: vs) = bitString [v] ++ bitString vs := by simp [bitString]
  rw [hcons, ← List.append_assoc, residueBits_append_group, List.append_assoc, nibblesOf_flatMap_append]

/-- A residue alone is no nibble. -/
theorem nibblesOf_residueBits (accn : BitVec 2) (accb : BitVec 3) : nibblesOf (residueBits accn accb) = [] := by
  rw [← List.length_eq_zero_iff, length_nibblesOf, residueBits, List.length_drop]
  simp only [List.length_cons, List.length_nil]
  omega

theorem Memory.writeAll_append (m : Memory) (i : Nat) (xs ys : List Nibble) :
    Memory.writeAll m i (xs ++ ys) = Memory.writeAll (Memory.writeAll m i xs) (i + xs.length) ys := by
  induction xs generalizing m i with
  | nil => rfl
  | cons x xs ih =>
    rw [List.cons_append, Memory.writeAll, Memory.writeAll, ih, List.length_cons,
      show i + (xs.length + 1) = i + 1 + xs.length by omega]

/-! ### A string of valid characters (R119) -/

/-- A decoder that is open and not poisoned, in a state in which every response so far was 0x00. -/
structure State.Accepting (s : State) : Prop where
  inv : s.Inv
  isOpen : s.kdone = false
  echr : s.hasError .invalidCharacter = false
  eovf : s.hasError .keyOverflow = false
  responsesOk : ∀ r ∈ s.responses, opField r = statusOk

theorem responsesOk_concat {rs : List RspWord} (h : ∀ r ∈ rs, opField r = statusOk) (data : Word64) :
    ∀ r ∈ rs ++ [rspWord statusOk data], opField r = statusOk := by
  intro r hr
  rcases List.mem_append.mp hr with hr | hr
  · exact h r hr
  · rw [List.mem_singleton.mp hr, opField_rspWord]

theorem State.Accepting.afterB32clr_resetOf (cfg : Params) : (State.resetOf cfg).afterB32clr.Accepting where
  inv := afterB32clr_resetOf_inv cfg
  isOpen := rfl
  echr := State.afterB32clr_hasError _ rfl
  eovf := State.afterB32clr_hasError _ rfl
  responsesOk := responsesOk_concat (rs := []) nofun _

theorem State.Accepting.append {s : State} (h : s.Accepting) (v : BitVec 5) (data : Word64) (hn : s.nch ≠ s.cfg.maxch) :
    ((s.append v).respond statusOk data).Accepting where
  inv := (h.inv.append v h.isOpen hn).respond _ _
  isOpen := h.isOpen
  echr := h.echr
  eovf := h.eovf
  responsesOk := responsesOk_concat h.responsesOk data

/-- The key an accepting decoder holds is judged by its length alone (R117 step 3). -/
theorem State.Accepting.not_keyUnusable {s : State} (h : s.Accepting) (hpos : 1 ≤ s.klen.toNat)
    (hodd : s.cfg.oddKey = .fallback ∨ s.klen.toNat % 2 = 0) : s.keyUnusable = false := by
  rw [← Bool.not_eq_true, keyUnusable_iff, ← hasError_echr, ← hasError_eovf, h.echr, h.eovf]
  rintro (hf | hf | hzero | ⟨herr, hbit⟩)
  · cases hf
  · cases hf
  · simp [hzero] at hpos
  · rw [BitVec.getLsbD, Nat.testBit_zero, decide_eq_true_eq] at hbit
    rcases hodd with hfall | heven
    · cases hfall.symm.trans herr
    · omega

theorem append_nch_toNat {s : State} (v : BitVec 5) (h : s.nch.toNat < s.cfg.maxch.toNat) :
    (s.append v).nch.toNat = s.nch.toNat + 1 := by
  have := s.cfg.maxch.isLt
  rw [State.append_nch, BitVec.toNat_add, BitVec.toNat_ofNat]
  omega

/-- A valid string that fits is fed to the end, and the nibbles written from `KLEN` on are those of the residue's bits and
the string's bits re-sliced. -/
theorem execAll_feedString_valid {str : List Byte} {vs : List (BitVec 5)} {s : State} (h : s.Accepting)
    (hvs : str.map charIndex = vs.map some) (hlen : s.nch.toNat + str.length ≤ s.cfg.maxch.toNat) :
    ∃ t, execAll (feedString str) s = .next t ∧ t.Accepting ∧ t.cfg = s.cfg ∧
      t.klen.toNat = s.klen.toNat + (nibblesOf (residueBits s.accn s.accb ++ bitString vs)).length ∧
      t.kbuf = Memory.writeAll s.kbuf s.klen.toNat (nibblesOf (residueBits s.accn s.accb ++ bitString vs)) := by
  induction str generalizing vs s with
  | nil =>
    obtain rfl : vs = [] := by simpa using hvs.symm
    refine ⟨s, rfl, h, rfl, ?_, ?_⟩ <;> simp [bitString, nibblesOf_residueBits, Memory.writeAll]
  | cons c str ih =>
    obtain ⟨v, vs, rfl⟩ : ∃ v vs', vs = v :: vs' := List.exists_cons_of_ne_nil (by rintro rfl; simp at hvs)
    simp only [List.map_cons, List.cons.injEq, List.length_cons] at hvs hlen
    obtain ⟨hv, hvs⟩ := hvs
    have hn : s.nch ≠ s.cfg.maxch := fun he => by rw [he] at hlen; omega
    have hroom := hasRoom_of_inv h.inv h.isOpen hn
    have hu : exec (.b32ch c) s = .next _ := execB32ch_append h.isOpen hv h.eovf hn h.echr hroom
    have hklen := append_klen_toNat v hroom
    rw [← newNibbles_length s v] at hklen
    have hfits : (s.append v).nch.toNat + str.length ≤ s.cfg.maxch.toNat := by
      rw [append_nch_toNat v (by omega)]; omega
    obtain ⟨t, ht, htacc, hcfg, htlen, htbuf⟩ := ih (h.append v _ hn) hvs hfits
    refine ⟨t, execAll_cons_eq_next.mpr ⟨_, hu, ht⟩, htacc, hcfg, ?_, ?_⟩
    · rw [htlen, State.respond_klen, hklen, nibblesOf_residueBits_cons, List.length_append, Nat.add_assoc]
      rfl
    · rw [htbuf, State.respond_klen, hklen, nibblesOf_residueBits_cons, Memory.writeAll_append]
      rfl

/-- `DECODE` of a valid string that fits and whose key is allowed, from reset (R117, R119). -/
theorem execAll_decode_valid {cfg : Params} {str : List Byte} {vs : List (BitVec 5)}
    (hvs : str.map charIndex = vs.map some) (hpos : 1 ≤ str.length) (hlen : str.length ≤ cfg.maxch.toNat)
    (hodd : cfg.oddKey = .fallback ∨ 5 * str.length / 4 % 2 = 0) :
    ∃ t, execAll (Pseudo.decode str).expand (State.resetOf cfg) = .next t ∧
      t.klen.toNat = (hexString vs).length ∧ t.kbuf = Memory.writeAll [] 0 (hexString vs) ∧
      ∀ r ∈ t.responses, opField r = statusOk := by
  obtain ⟨u, hu, hacc, hcfg, hklen, hkbuf⟩ := execAll_feedString_valid (State.Accepting.afterB32clr_resetOf cfg) hvs
    (by simpa [State.afterB32clr, State.resetOf] using hlen)
  replace hklen : u.klen.toNat = (hexString vs).length := hklen.trans (Nat.zero_add _)
  have hkey := hklen
  rw [length_hexString, ← List.length_map (as := vs) some, ← hvs, List.length_map] at hkey
  have hgood := hacc.not_keyUnusable (by omega) (by rwa [hcfg, hkey])
  have hend : exec .b32end u = .next _ := execB32end_good hacc.isOpen hgood
  exact ⟨_, execAll_decode_eq_next.mpr (execAll_append_eq_next.mpr ⟨u, hu, execAll_cons_eq_next.mpr ⟨_, hend, rfl⟩⟩),
    hklen, hkbuf, responsesOk_concat hacc.responsesOk _⟩

/-- Settles O24: the run from reset gives the key, and the run from any other state follows it. -/
theorem decodeSequenceComputesHex : Obligations.DecodeSequenceComputesHex := by
  unfold Obligations.DecodeSequenceComputesHex
  intro s str vs hvs hpos hlen hodd
  obtain ⟨u, hu, hklen, hkbuf, hok⟩ := execAll_decode_valid hvs hpos hlen hodd
  obtain ⟨t, ht, h⟩ := execAll_decode_sameDecoder (s := State.resetOf s.cfg) (s' := s) rfl rfl hu
  obtain ⟨rs, hr, hr'⟩ := h.responses
  obtain rfl : u.responses = rs := hr
  rw [← h.klen] at hklen
  rw [← h.kbuf] at hkbuf
  have hn : vs.length = str.length := by simpa using (congrArg List.length hvs).symm
  refine ⟨t, _, ht, by rw [hklen, length_hexString, hn], fun j hj => ?_, hr', hok⟩
  rw [hklen] at hj
  rw [hkbuf, List.getElem?_eq_getElem hj, ← Memory.read_writeAll_same [] 0 j _ rfl hj, Nat.zero_add]

end Sys2Proof.Machine

namespace Sys2Proof.Machine

/-! ### The counter (R140, R143, R144, R148) -/

/-- Dividing by `2^F` and then by 30 is one division by their product. -/
theorem counterOf_toNat_eq_div_mul (cfg : Params) (e : Word64) :
    (counterOf cfg e).toNat = e.toNat / (30 * 2 ^ cfg.frac.toNat) := by
  rw [counterOf_toNat, Nat.div_div_eq_div_mul, Nat.mul_comm]

/-- Settles O28: the two inequalities are a floor's, the top bits and the first byte follow from `counterOf_le`. -/
theorem counterIsTheFloor : Obligations.CounterIsTheFloor := by
  unfold Obligations.CounterIsTheFloor
  intro cfg e
  have hle := counterOf_le cfg e
  refine ⟨?_, ?_, BitVec.eq_of_toNat_eq ?_, ?_⟩
  · rw [counterOf_toNat_eq_div_mul]; exact Nat.mul_div_le _ _
  · rw [counterOf_toNat_eq_div_mul]; exact Nat.lt_mul_div_succ _ (by positivity)
  · rw [BitVec.extractLsb'_toNat, Nat.shiftRight_eq_div_pow, BitVec.toNat_ofNat]; omega
  · rw [msgByte, BitVec.extractLsb'_toNat, Nat.shiftRight_eq_div_pow]; omega

/-- The counter of an epoch by two divisions of natural numbers (R140). -/
theorem counterOf_eq_ofNat (cfg : Params) (e : Word64) :
    counterOf cfg e = BitVec.ofNat 64 (e.toNat / 2 ^ cfg.frac.toNat / 30) := by
  rw [← counterOf_toNat, BitVec.ofNat_toNat, BitVec.setWidth_eq]

/-- An epoch of `sec` whole seconds and a fraction of a second has the counter of its whole seconds (R148). -/
theorem counterOf_seconds {cfg : Params} {sec f : Nat} (hf : f < 2 ^ cfg.frac.toNat)
    (hfit : sec * 2 ^ cfg.frac.toNat + f < 2 ^ 64) :
    counterOf cfg (BitVec.ofNat 64 (sec * 2 ^ cfg.frac.toNat + f)) = BitVec.ofNat 64 (sec / 30) := by
  have hsec : (sec * 2 ^ cfg.frac.toNat + f) / 2 ^ cfg.frac.toNat = sec := by
    rw [Nat.mul_comm, Nat.mul_add_div (by positivity), Nat.div_eq_of_lt hf, Nat.add_zero]
  rw [counterOf_eq_ofNat, BitVec.toNat_ofNat, Nat.mod_eq_of_lt hfit, hsec]

/-- No time step ends where the whole seconds do: 3 divides 30 and no power of 2. -/
theorem mul_thirty_ne_two_pow (k n : Nat) : 30 * k ≠ 2 ^ n := fun h =>
  absurd (Nat.prime_three.dvd_of_dvd_pow (h ▸ ⟨10 * k, by omega⟩ : 3 ∣ 2 ^ n)) (by decide)

/-- Settles O29: the seconds fit `64 - F` bits, and the counter of an epoch is that of its whole seconds. -/
theorem timeStepsOfThirtySeconds : Obligations.TimeStepsOfThirtySeconds := by
  unfold Obligations.TimeStepsOfThirtySeconds
  intro cfg k j f hwf hk hf
  obtain ⟨-, hfrac⟩ : cfg.maxch ≠ 0#16 ∧ cfg.frac.toNat ≤ 32 := by simpa [Params.wellFormed] using hwf
  have hfit {sec g : Nat} (hsec : sec < 2 ^ (64 - cfg.frac.toNat)) (hg : g < 2 ^ cfg.frac.toNat) :
      sec * 2 ^ cfg.frac.toNat + g < 2 ^ 64 := calc
    _ < (sec + 1) * 2 ^ cfg.frac.toNat := by rw [Nat.add_one_mul]; omega
    _ ≤ 2 ^ (64 - cfg.frac.toNat) * 2 ^ cfg.frac.toNat := Nat.mul_le_mul_right _ hsec
    _ = 2 ^ 64 := by rw [← pow_add, Nat.sub_add_cancel (by omega)]
  constructor
  · intro hj
    rw [counterOf_seconds hf (hfit (by omega) hf), show (30 * k + j) / 30 = k by omega]
  · have hnext : 30 * (k + 1) < 2 ^ (64 - cfg.frac.toNat) :=
      Nat.lt_of_le_of_ne hk (mul_thirty_ne_two_pow _ _)
    have hzero : 0 < 2 ^ cfg.frac.toNat := by positivity
    rw [← Nat.add_zero (30 * (k + 1) * _), counterOf_seconds hzero (hfit hnext hzero),
      Nat.mul_div_cancel_left _ (by decide)]

/-! ### `CTRSET`, `CTRNOW` and the ports past their scripts -/

/-- Settles O27: `CTRSET` is record updates, its counter that of `counterOf_eq_ofNat`. -/
theorem ctrsetLoadsTheCounter : Obligations.CtrsetLoadsTheCounter := by
  unfold Obligations.CtrsetLoadsTheCounter
  intro e s
  rw [← counterOf_eq_ofNat]
  rfl

/-- Settles O31: the scripted sample chooses the outcome. -/
theorem ctrnowTakesOneSample : Obligations.CtrnowTakesOneSample := by
  unfold Obligations.CtrnowTakesOneSample
  intro s
  refine ⟨fun e rest hclock => ?_, fun e rest hclock => ?_⟩
  · have hnow := clockNow_cons hclock
    have hok : exec .ctrnow s = _ := execCtrnow_ok (by rw [hnow])
    rw [hok, hnow, clockTaken_cons hclock, ← counterOf_eq_ofNat]
    rfl
  · have hfails : exec .ctrnow s = _ := execCtrnow_fails (by rw [clockNow_cons hclock])
    rw [hfails, clockTaken_cons hclock]
    rfl

/-- Past the script of the clock, `CTRNOW` takes the free sample of this draw as it takes a scripted one (R147). -/
theorem execCtrnow_past_script {s : State} (h : s.clock = []) :
    ∃ t, execCtrnow { s with clock := [Config.clockSample s.draws] } = .next t ∧
      execCtrnow s = .next { t with draws := s.draws + 1 } := by
  have hnow : s.clockNow = Config.clockSample s.draws := by rw [State.clockNow, h]
  have htaken : s.clockTaken = { s with clock := [], draws := s.draws + 1 } := by rw [clockTaken_eq, h]; rfl
  cases hok : (Config.clockSample s.draws).ok
  · exact ⟨_, execCtrnow_fails hok, by rw [execCtrnow_fails (by rw [hnow, hok]), htaken]; rfl⟩
  · exact ⟨_, execCtrnow_ok hok, by rw [execCtrnow_ok (by rw [hnow, hok]), hnow, htaken]; rfl⟩

/-- Taking a reply does not depend on the number of the next draw. -/
theorem takeReply_draws (s : State) (r : HmacReply) (n : Nat) :
    ({ s with draws := n } : State).takeReply r = { s.takeReply r with draws := n } := by
  unfold State.takeReply
  split <;> rfl

/-- Past the script of looks, a look shows the free value of this draw as it shows a scripted one (R161, R166). -/
theorem pollHmac_past_script {s : State} (h : s.answers = []) :
    s.pollHmac =
      { ({ s with answers := [Config.hmacAnswer s.draws] } : State).pollHmac with draws := s.draws + 1 } := by
  have hshown : s.hmacShown = Config.hmacAnswer s.draws := by rw [State.hmacShown, h]
  have htaken : s.answerTaken = { s with answers := [], draws := s.draws + 1 } := by rw [answerTaken_eq, h]; rfl
  have hscripted (a : Option HmacReply) :
      ({ s with answers := [a] } : State).answerTaken = { s with answers := [] } := rfl
  cases ha : Config.hmacAnswer s.draws with
  | none => rw [pollHmac_none (hshown.trans ha), htaken, pollHmac_none (hmacShown_cons rfl), hscripted]
  | some r =>
    rw [pollHmac_some (hshown.trans ha), htaken, pollHmac_some (hmacShown_cons rfl), hscripted]
    exact takeReply_draws { s with answers := [] } r _

/-- Settles O33: past the script each port is its own lemma; a look that shows no reply takes only the look. -/
theorem portsPastTheScript : Obligations.PortsPastTheScript := by
  unfold Obligations.PortsPastTheScript
  intro s
  refine ⟨execCtrnow_past_script, fun hk hesec hc => ?_⟩
  rw [← hasError_esec] at hesec
  have hasks : exec .hmac s = _ := execHmac_asks hk hesec hc
  constructor
  · intro rest hans
    have hans' : s.sendRequest.answers = none :: rest := hans
    rw [hasks, pollHmac_none (hmacShown_cons hans'), answerTaken_cons hans']
    rfl
  · intro hans
    refine ⟨_, execHmac_asks hk hesec hc, ?_⟩
    rw [hasks, pollHmac_past_script (s := s.sendRequest) hans]
    rfl

/-! ### The realisations of the divider and the decimal reducer (R150, R184, R191) -/

/-- The rounded reciprocal is near enough to a thirtieth for every 64-bit number (R150). -/
theorem divideByReciprocal_eq {sec : Nat} (h : sec < 2 ^ 64) : divideByReciprocal sec = sec / 30 := by
  unfold divideByReciprocal
  omega

theorem divideByHalves_eq (sec : Nat) : divideByHalves sec = sec / 30 := Nat.div_div_eq_div_mul sec 2 15

/-- The counter is a thirtieth of the whole seconds, as a number (R140). -/
theorem counterOf_toNat_eq_seconds_div (cfg : Params) (e : Word64) :
    (counterOf cfg e).toNat = (e >>> cfg.frac.toNat).toNat / 30 := by
  rw [counterOf_toNat, BitVec.toNat_ushiftRight, Nat.shiftRight_eq_div_pow]

/-- `digitsValue` is the library's value of a list of digits in base 10. -/
theorem digitsValue_eq_ofDigits (ds : List Nat) : digitsValue ds = Nat.ofDigits 10 ds :=
  (Nat.ofDigits_eq_foldr 10 ds).symm

/-- A digit is read off the value by a division and a remainder. -/
theorem getElem_eq_digitsValue {ds : List Nat} (hd : ∀ x ∈ ds, x < 10) {k : Nat} (hk : k < ds.length) :
    ds[k] = digitsValue ds / 10 ^ k % 10 := by
  rw [digitsValue_eq_ofDigits, Nat.ofDigits_div_pow_eq_ofDigits_drop k (by decide) ds hd, List.drop_eq_getElem_cons hk,
    Nat.ofDigits_cons]
  have := hd _ (List.getElem_mem hk)
  omega

/-- Double-dabble from the top bit down gives ten decimal digits, whose value is the number (R191). -/
theorem doubleDabble_spec (bits : Nat) : ∀ p, p < 2 ^ bits → p < 10 ^ 10 →
    (∀ x ∈ doubleDabble p bits, x < 10) ∧ (doubleDabble p bits).length = 10 ∧
    digitsValue (doubleDabble p bits) = p := by
  induction bits with
  | zero =>
    intro p hp _
    obtain rfl : p = 0 := by simpa using hp
    simp [doubleDabble, digitsValue]
  | succ bits ih =>
    intro p hp hfit
    obtain ⟨hdig, hlen, hval⟩ := ih (p / 2) (by rw [pow_succ] at hp; omega) (by omega)
    obtain ⟨hdig', hlen', hval'⟩ := dabble_value (doubleDabble (p / 2) bits) (p % 2) hdig (by omega)
    rw [hlen, hval] at hval'
    exact ⟨hdig', hlen'.trans hlen, (hval' (by omega)).trans (by omega)⟩

theorem numeralDigits_lt (len n : Nat) : ∀ x ∈ numeralDigits len n, x < 10 := by
  induction len generalizing n with
  | zero => simp [numeralDigits]
  | succ len ih =>
    unfold numeralDigits
    split
    · exact List.forall_mem_singleton.mpr (Nat.mod_lt n (by decide))
    · exact List.forall_mem_cons.mpr ⟨Nat.mod_lt n (by decide), ih _⟩

/-- The numeral of a number of at most `len` digits has its value (R184). -/
theorem digitsValue_numeralDigits {len n : Nat} (h : n < 10 ^ len) : digitsValue (numeralDigits len n) = n := by
  induction len generalizing n with
  | zero => exact (Nat.lt_one_iff.mp h).symm
  | succ len ih =>
    unfold numeralDigits
    split
    · change n % 10 + 10 * 0 = n
      omega
    · have hrest := ih (n := n / 10) (by rw [pow_succ] at h; omega)
      rw [digitsValue, List.foldr_cons, ← digitsValue, hrest]
      omega

/-- The padded numeral has decimal digits, at least six, and the value of the number (R184). -/
theorem paddedDigits_spec {p : Nat} (h : p < 10 ^ 10) :
    (∀ x ∈ paddedDigits p, x < 10) ∧ 6 ≤ (paddedDigits p).length ∧ digitsValue (paddedDigits p) = p := by
  unfold paddedDigits
  refine ⟨fun x hx => ?_, ?_, ?_⟩
  · rcases List.mem_append.mp hx with hx | hx
    · exact numeralDigits_lt _ _ x hx
    · rw [List.eq_of_mem_replicate hx]; decide
  · rw [List.length_append, List.length_replicate]; omega
  · rw [digitsValue_eq_ofDigits, Nat.ofDigits_append_replicate_zero, ← digitsValue_eq_ofDigits,
      digitsValue_numeralDigits h]

/-- A byte put behind a word: the word moves up eight places. -/
theorem toNat_append_byte {n : Nat} (x : BitVec n) (b : Byte) : (x ++ b).toNat = 256 * x.toNat + b.toNat := by
  rw [BitVec.toNat_append, ← Nat.shiftLeft_add_eq_or_of_lt b.isLt, Nat.shiftLeft_eq, Nat.mul_comm]

/-- The code register is its six characters, read as base-256 digits (R36). -/
theorem codeOf_toNat (r : Nat) :
    (codeOf r).toNat = (List.range 6).foldl (fun a k => 256 * a + (codeChar r k).toNat) 0 := by
  unfold codeOf
  iterate 5 rw [toNat_append_byte]
  simp [List.range_succ]

/-- Character `k` of the code register is the character `0x30 + d_k` (R36, R185). -/
theorem codeByte_codeOf (r : Nat) {k : Nat} (hk : k < 6) : codeByte (codeOf r) k = codeChar r k := by
  refine BitVec.eq_of_toNat_eq ?_
  rw [codeByte, BitVec.extractLsb'_toNat, Nat.shiftRight_eq_div_pow, codeOf_toNat,
    show 2 ^ (40 - 8 * k) = 256 ^ (6 - 1 - k) by rw [show 256 = 2 ^ 8 from rfl, ← pow_mul]; congr 1; omega]
  exact foldl_digits_div_mod (B := 256) (fun k => (codeChar r k).toNat) (fun k => (codeChar r k).isLt) hk

/-- The digits of the reduced value are the last six of the number (R184, R185). -/
theorem decimalDigit_mod (p : Nat) {k : Nat} (hk : k < 6) :
    decimalDigit (p % 1000000) k = p / 10 ^ (5 - k) % 10 := by
  have hpow : (10 : Nat) ^ 6 = 10 ^ (5 - k) * 10 ^ (k + 1) := by rw [← pow_add, show 5 - k + (k + 1) = 6 by omega]
  rw [decimalDigit, show 1000000 = 10 ^ 6 from rfl, hpow, Nat.mod_mul_right_div_self]
  exact Nat.mod_mod_of_dvd _ (dvd_pow_self 10 (Nat.succ_ne_zero k))

/-- The last six of the decimal digits of `p`, however they were found, are the characters of the code (R184, R185). -/
theorem lastSix_eq_code {ds : List Nat} {p : BitVec 32} (hd : ∀ x ∈ ds, x < 10) (hlen : 6 ≤ ds.length)
    (hv : digitsValue ds = p.toNat) : lastSix ds = (List.range 6).map (codeByte (codeOf (reduce p))) := by
  refine List.ext_getElem (by simp [lastSix, hlen]) fun k hk _ => ?_
  have hk : k < 6 := by simpa [lastSix, hlen] using hk
  simp only [lastSix, List.getElem_map, List.getElem_reverse, List.getElem_take, List.getElem_range, List.length_take]
  rw [codeByte_codeOf _ hk, codeChar, reduce, Config.modulus, decimalDigit_mod _ hk, getElem_eq_digitsValue hd, hv,
    show min 6 ds.length - 1 - k = 5 - k by omega]

/-- Settles O55: each method has its own lemma; double-dabble and the padded numeral are both decimal digits of `P`. -/
theorem realisationsAreExact : Obligations.RealisationsAreExact := by
  unfold Obligations.RealisationsAreExact
  refine ⟨fun cfg e => ?_, fun p hp => ?_⟩
  · intro sec
    have hlt : sec < 2 ^ 64 := (e >>> cfg.frac.toNat).isLt
    rw [counterOf_toNat_eq_seconds_div, restoringDivide_eq (by decide) 60 sec (by omega)]
    exact ⟨rfl, divideByHalves_eq sec, divideByReciprocal_eq hlt⟩
  · have hlt : p.toNat < 2 ^ 31 := BitVec.toNat_lt_of_msb_false hp
    obtain ⟨hdig, hlen, hval⟩ := doubleDabble_spec 31 p.toNat hlt (by omega)
    obtain ⟨hdig', hlen', hval'⟩ := paddedDigits_spec (p := p.toNat) (by omega)
    refine ⟨?_, lastSix_eq_code hdig (by omega) hval, lastSix_eq_code hdig' hlen' hval'⟩
    rw [restoringDivide_eq (by decide) 12 _ (by omega), reduce, Config.modulus]

end Sys2Proof.Machine

namespace Sys2Proof.Machine

/-! ### One step of a waiting `HMAC` (R68, R166) -/

/-- The state a waiting `HMAC` looks at the port in: the host's `idle`, if it presents one, is used up (R68). -/
def State.popIdle (s : State) : State := { s with host := if s.host.head? = some .idle then s.host.tail else s.host }

theorem popIdle_of_idle {s : State} (h : s.host.head? = some .idle) : s.popIdle = s.popHost := by
  rw [State.popIdle, if_pos h, State.popHost]

theorem popIdle_of_not_idle {s : State} (h : s.host.head? ≠ some .idle) : s.popIdle = s := by
  rw [State.popIdle, if_neg h]

/-- A command word that meets a waiting `HMAC` is held, not taken (R68). -/
theorem fetch_waiting {s : State} (hw : s.hmacWait = true) (hr : s.host.head? ≠ some .reset) :
    s.fetch = .waiting s.popIdle := by
  unfold State.fetch
  split
  · next hh => exact absurd (by rw [hh]; rfl) hr
  · next hh => rw [if_pos hw, popIdle_of_not_idle (by simp [hh])]
  · next hh => rw [if_pos hw, popIdle_of_idle (by rw [hh]; rfl)]
  · next hh => rw [if_pos hw, popIdle_of_not_idle (by simp [hh])]

/-- Without reset the step of a waiting `HMAC` is one look at its port (R166). -/
theorem step_waiting {s : State} (hw : s.hmacWait = true) (hr : s.host.head? ≠ some .reset) :
    step s = .next s.popIdle.pollHmac := by
  rw [step, fetch_waiting hw hr]

/-- Settles O7: `step_waiting`, and what the look finds. -/
theorem waitingHmacTakesNoCommand : Obligations.WaitingHmacTakesNoCommand := by
  unfold Obligations.WaitingHmacTakesNoCommand
  intro s hw hr looked
  have hlooked : s.popIdle.answerTaken = looked := answerTaken_eq s.popIdle
  rw [step_waiting hw hr]
  refine ⟨fun hnone => ?_, fun r hsome => ?_⟩
  · rw [pollHmac_none (s := s.popIdle) hnone, hlooked]
  · rw [pollHmac_some (s := s.popIdle) hsome, hlooked]
    split
    · next hrefused => rw [takeReply_refused (s := looked) hrefused.1 hrefused.2]; rfl
    · next hlatched => rw [takeReply_latched (s := looked) hlatched]; rfl

/-! ### Many steps of a waiting `HMAC` (R166) -/

/-- A look that is scripted to find no reply changes no register (R166). -/
theorem step_waiting_noReply {s : State} {rest : List (Option HmacReply)} (hw : s.hmacWait = true)
    (hr : s.host.head? ≠ some .reset) (ha : s.answers = none :: rest) :
    step s = .next { s.popIdle with answers := rest } := by
  have hshown : s.popIdle.hmacShown = none := hmacShown_cons ha
  rw [step_waiting hw hr, pollHmac_none hshown, answerTaken_cons (s := s.popIdle) ha]

/-- A wait takes idle events from the front of the host's list, and nothing else. -/
theorem popIdle_host (s : State) : ∃ j, s.popIdle.host = s.host.drop j ∧ ∀ e ∈ s.host.take j, e = .idle := by
  unfold State.popIdle
  split
  · next h =>
    obtain ⟨rest, hh⟩ := List.head?_eq_some_iff.mp h
    exact ⟨1, by simp [hh], by simp [hh]⟩
  · exact ⟨0, rfl, by simp⟩

theorem run_succ_of_step {M : Host.Core} {s t : M.State} (h : M.step s = .next t) (n : Nat) :
    M.run (n + 1) s = M.run n t := by
  rw [Host.Core.run, h]

/-- Settles O8: each of the looks is a `step_waiting_noReply`, by induction on their number. -/
theorem hmacHasNoTimeOut : Obligations.HmacHasNoTimeOut := by
  unfold Obligations.HmacHasNoTimeOut
  intro n
  induction n with
  | zero =>
    intro s hw hr ha
    have ha : s.answers = [] := ha
    exact ⟨s, 0, rfl, by rw [List.drop_zero, ← ha], by simp⟩
  | succ n ih =>
    intro s hw hr ha
    obtain ⟨j, hj, hidle⟩ := popIdle_host s
    have hstep := step_waiting_noReply hw (fun h => hr (List.mem_of_head? h)) ha
    have hr' : .reset ∉ s.popIdle.host := fun h => hr (List.mem_of_mem_drop (hj ▸ h))
    obtain ⟨t, k, hrun, ht, hidle'⟩ := ih { s.popIdle with answers := List.replicate n none } hw hr' rfl
    refine ⟨t, j + k, (run_succ_of_step (M := core) hstep n).trans hrun, ?_, fun e he => ?_⟩
    · rw [ht, ← List.drop_drop, ← hj]; rfl
    · rw [List.take_add, ← hj] at he
      exact (List.mem_append.mp he).elim (hidle e) (hidle' e)

/-! ### `HMAC` itself (R160, R161) -/

/-- The request carries the nibbles of the key buffer below `KLEN` (R161). -/
theorem key_eq_map_read (s : State) : s.key = (List.range s.klen.toNat).map fun i => Memory.read s.kbuf i :=
  List.map_congr_left fun _ hi => if_pos (List.mem_range.mp hi)

/-- Settles O32: one lemma for each refusal, and `takeReply` on the reply of the first look. -/
theorem hmacAsksOnceAndLatches : Obligations.HmacAsksOnceAndLatches := by
  unfold Obligations.HmacAsksOnceAndLatches
  intro s q
  have hq : s.hmacRequest = q := by rw [State.hmacRequest, key_eq_map_read]
  rw [← hasError_esec]
  refine ⟨fun hearly => ?_, execHmac_invalid, fun hk he hc r rest ha => ?_⟩
  · rcases hearly with hopen | ⟨he, hc⟩
    · exact execHmac_open hopen
    · exact execHmac_noCounter he hc
  · let asked : State := { s.sendRequest with answers := rest }
    have hlook : exec .hmac s = .next (asked.takeReply r) := by
      have ha' : s.sendRequest.answers = some r :: rest := ha
      rw [exec, execHmac_asks hk he hc, pollHmac_some (hmacShown_cons ha'), answerTaken_cons ha']
    rw [hlook, ← hq]
    split
    · next hrefused => rw [takeReply_refused (s := asked) hrefused.1 hrefused.2]; rfl
    · next hlatched => rw [takeReply_latched (s := asked) hlatched]; rfl

end Sys2Proof.Machine

namespace Sys2Proof.Machine

/-! ### `TRUNC` (R180) -/

/-- Settles O34: the two equations of `execTrunc`; the registers latched are those of `State.latchCode`. -/
theorem truncComputesTheCode : Obligations.TruncComputesTheCode := by
  unfold Obligations.TruncComputesTheCode
  exact fun s => ⟨execTrunc_noDigest, execTrunc_code⟩

/-! ### The code as a decimal numeral (R184 to R186) -/

/-- A character of the code lies a decimal digit above 0x30, without a carry out of the byte (R185). -/
theorem codeChar_toNat (r k : Nat) : (codeChar r k).toNat = 0x30 + decimalDigit r k := by
  have := decimalDigit_lt r k
  rw [codeChar, BitVec.toNat_add, BitVec.toNat_ofNat, BitVec.toNat_ofNat]
  omega

/-- The six digits, read from the left, are the reduced value (R184, R185). -/
theorem foldl_decimalDigit {r : Nat} (h : r < 1000000) :
    (List.range 6).foldl (fun n k => 10 * n + decimalDigit r k) 0 = r := calc
  _ = r / 10 ^ (6 - 6) % 10 ^ 6 := foldl_baseDigits 10 6 r 6 le_rfl
  _ = r := by omega

/-- Settles O35: `codeByte_codeOf` reads the characters, each `0x30 + d_k`; `foldl_decimalDigit` adds up the digits. -/
theorem codeIsSixDecimalDigits : Obligations.CodeIsSixDecimalDigits := by
  unfold Obligations.CodeIsSixDecimalDigits
  intro s t hd hx
  obtain rfl : s.latchCode.respond statusOk _ = t := Host.Outcome.next.inj ((execTrunc_code hd).symm.trans hx)
  rw [State.respond_code, State.respond_p, State.latchCode_code, State.latchCode_p]
  generalize hp : truncMask (truncWindow s.digest (truncOffset s.digest s.kerr)) = p
  have hbyte {k : Nat} (hk : k < 6) : (codeByte (codeOf (reduce p)) k).toNat = 0x30 + decimalDigit (reduce p) k := by
    rw [codeByte_codeOf _ hk, codeChar_toNat]
  refine ⟨fun k hk => ?_, ?_, hp ▸ truncMask_top _⟩
  · have := decimalDigit_lt (reduce p) k
    rw [hbyte hk]
    omega
  · calc (List.range 6).foldl (fun n k => 10 * n + ((codeByte (codeOf (reduce p)) k).toNat - 0x30)) 0
      _ = (List.range 6).foldl (fun n k => 10 * n + decimalDigit (reduce p) k) 0 :=
        List.foldl_ext _ _ _ fun n k hk => by rw [hbyte (List.mem_range.mp hk), Nat.add_sub_cancel_left]
      _ = reduce p := foldl_decimalDigit (Nat.mod_lt _ (by decide))

/-! ### The window in bytes and in hex digits (R31, R182) -/

/-- A field of a field is a field of the whole. -/
theorem extractLsb'_extractLsb' {w n k : Nat} (x : BitVec w) (a b : Nat) (h : b + k ≤ n) :
    (x.extractLsb' a n).extractLsb' b k = x.extractLsb' (a + b) k := by
  ext i hi
  simp only [BitVec.getElem_extractLsb', BitVec.getLsbD_extractLsb', show b + i < n by omega, decide_true,
    Bool.true_and, Nat.add_assoc]

/-- A slice of the digest that ends with byte `i`, and byte `i + 1` behind it. -/
theorem extractLsb'_append_digestByte (d : Digest) {i n : Nat} (hi : i < 19) :
    d.extractLsb' (152 - 8 * i) n ++ digestByte d (i + 1) = d.extractLsb' (152 - 8 * (i + 1)) (n + 8) :=
  BitVec.extractLsb'_append_extractLsb'_eq_extractLsb' (by omega)

/-- Four consecutive bytes of the digest are the slice that ends with the last of them. -/
theorem four_digestBytes (d : Digest) {i : Nat} (hi : i + 3 < 20) :
    digestByte d i ++ digestByte d (i + 1) ++ digestByte d (i + 2) ++ digestByte d (i + 3) =
      d.extractLsb' (152 - 8 * (i + 3)) 32 := by
  rw [digestByte, extractLsb'_append_digestByte d (by omega), extractLsb'_append_digestByte d (by omega),
    extractLsb'_append_digestByte d (by omega)]

/-- Settles O36: the window ends with byte `off + 3`, and its hex digits are fields of the digest. -/
theorem windowIsFourDigestBytes : Obligations.WindowIsFourDigestBytes := by
  unfold Obligations.WindowIsFourDigestBytes
  intro d off
  have hoff : off.toNat < 16 := off.isLt
  refine ⟨by omega, ?_, rfl, fun j hj => ?_⟩
  · rw [four_digestBytes d (by omega), truncWindow, show 152 - 8 * (off.toNat + 3) = 128 - 8 * off.toNat by omega]
  · rw [truncWindow, extractLsb'_extractLsb' d _ _ (by omega), digestDigit,
      show 128 - 8 * off.toNat + (28 - 4 * j) = 156 - 4 * (2 * off.toNat + j) by omega]

end Sys2Proof.Machine

namespace Sys2Proof.Machine

/-! ### The system commands (R200 to R203) -/

/-- Settles O11: `NOP` is a `respond`. -/
theorem nopOnlyResponds : Obligations.NopOnlyResponds := by
  unfold Obligations.NopOnlyResponds
  exact fun s => rfl

/-- Settles O12: zeroing the registers leaves of the state its parameters and its ports. -/
theorem srstGivesTheResetState : Obligations.SrstGivesTheResetState := by
  unfold Obligations.SrstGivesTheResetState
  exact fun s => rfl

/-- Settles O13: the flags that `clearOtherFlags` keeps are bits 0, 1 and 3 of `ER`. -/
theorem erclrClearsItsFlags : Obligations.ErclrClearsItsFlags := by
  unfold Obligations.ErclrClearsItsFlags
  exact fun s => rfl

/-- Settles O14: `execRdreg_read` at each of the fourteen numbers, `execRdreg_reserved` beyond them. -/
theorem rdregReturnsTheRegister : Obligations.RdregReturnsTheRegister := by
  unfold Obligations.RdregReturnsTheRegister
  intro s reads
  have reads_reg {n : BitVec 8} {v : Word64} (hr : s.reg n = some v) : reads n v := execRdreg_read hr
  exact ⟨reads_reg rfl, reads_reg rfl, reads_reg rfl, reads_reg rfl, reads_reg rfl, reads_reg rfl, reads_reg rfl,
    reads_reg rfl, reads_reg rfl, reads_reg rfl, reads_reg rfl, reads_reg rfl, reads_reg rfl, reads_reg rfl,
    fun n hn => execRdreg_reserved hn⟩

/-! ### No command reads the host's list or the records of responses and requests (R74) -/

/-- `u` in a run that began in `past`: the host presents what it did there, and what `u` recorded comes after the responses
and requests of `past`. -/
def State.withPast (u past : State) : State :=
  { u with
    host := past.host, requests := past.requests ++ u.requests, responses := past.responses ++ u.responses }

/-- The two states are one state, reached by runs that began in `past` and in `past'`. -/
def SameSince (past past' s s' : State) : Prop := ∃ u : State, s = u.withPast past ∧ s' = u.withPast past'

section
variable (u past past' : State)

theorem respond_withPast (st : BitVec 8) (data : Word64) :
    (u.withPast past).respond st data = (u.respond st data).withPast past := by
  simp [State.respond, State.withPast]

theorem raise_withPast (c : ErrorCause) (info : Word64) :
    (u.withPast past).raise c info = (u.raise c info).withPast past :=
  respond_withPast (u.setError c) past c.status info

theorem sendRequest_withPast : (u.withPast past).sendRequest = u.sendRequest.withPast past := by
  have hq : (u.withPast past).hmacRequest = u.hmacRequest := State.hmacRequest_congr rfl rfl rfl
  rw [State.sendRequest, hq]
  simp [State.sendRequest, State.withPast]

theorem answerTaken_withPast : (u.withPast past).answerTaken = u.answerTaken.withPast past := by
  rw [answerTaken_eq, answerTaken_eq]
  rfl

theorem clockTaken_withPast : (u.withPast past).clockTaken = u.clockTaken.withPast past := by
  rw [clockTaken_eq, clockTaken_eq]
  rfl

theorem takeReply_withPast (r : HmacReply) : (u.withPast past).takeReply r = (u.takeReply r).withPast past := by
  rcases takeReply_cases u r with ⟨hk, ho, ht⟩ | ⟨hlatched, ht⟩ <;> rw [ht]
  · rw [← raise_withPast]
    exact takeReply_refused (s := u.withPast past) hk ho
  · rw [← respond_withPast]
    exact takeReply_latched (s := u.withPast past) hlatched

theorem pollHmac_withPast : (u.withPast past).pollHmac = u.pollHmac.withPast past := by
  rcases pollHmac_cases u with ⟨hnone, ht⟩ | ⟨r, hsome, ht⟩ <;> rw [ht]
  · rw [← answerTaken_withPast]
    exact pollHmac_none hnone
  · rw [← takeReply_withPast, ← answerTaken_withPast]
    exact pollHmac_some hsome

theorem sameSince_respond (st : BitVec 8) (data : Word64) :
    SameSince past past' ((u.withPast past).respond st data) ((u.withPast past').respond st data) :=
  ⟨u.respond st data, respond_withPast u past st data, respond_withPast u past' st data⟩

theorem sameSince_raise (c : ErrorCause) (info : Word64) :
    SameSince past past' ((u.withPast past).raise c info) ((u.withPast past').raise c info) :=
  ⟨u.raise c info, raise_withPast u past c info, raise_withPast u past' c info⟩

end

/-- Every command answers two runs alike, whatever they began in: each check and each update reads registers, parameters and
the ports' answers only. -/
theorem follows_sameSince (past past' : State) (i : Instr) : Follows (SameSince past past') i i := by
  rintro _ _ t ⟨u, rfl, rfl⟩ hx
  cases i with
  | nop => cases hx; exact ⟨_, rfl, sameSince_respond u ..⟩
  | srst => cases hx; exact ⟨_, rfl, sameSince_respond u.zeroRegs ..⟩
  | erclr => cases hx; exact ⟨_, rfl, sameSince_respond u.clearOtherFlags ..⟩
  | rdreg n =>
    rcases execRdreg_cases hx with ⟨v, hr, rfl⟩ | ⟨hr, rfl⟩
    · exact ⟨_, execRdreg_read hr, sameSince_respond u ..⟩
    · exact ⟨_, execRdreg_reserved ((reg_none_iff _ n).mp hr), sameSince_raise u ..⟩
  | b32clr => cases hx; exact ⟨_, rfl, sameSince_respond u.emptyDecoder.clearSecretFlags.dropDigest ..⟩
  | b32ch c =>
    rcases execB32ch_cases hx with ⟨hk, rfl⟩ | ⟨hk, hv, rfl⟩ | ⟨v, hk, hv, hfull, rfl⟩ |
      ⟨v, hk, hv, ho, hn, he, rfl⟩ | ⟨v, hk, hv, ho, hn, he, hr, rfl⟩
    · exact ⟨_, execB32ch_closed hk, sameSince_raise u ..⟩
    · exact ⟨_, execB32ch_invalid hk hv, sameSince_raise u ..⟩
    · exact ⟨_, execB32ch_overflow hk hv hfull, sameSince_raise u ..⟩
    · exact ⟨_, execB32ch_poisoned hk hv ho hn he, sameSince_respond u ..⟩
    · exact ⟨_, execB32ch_append hk hv ho hn he hr, sameSince_respond (u.append v) ..⟩
  | b32end =>
    rcases execB32end_cases hx with ⟨hk, rfl⟩ | ⟨hk, hu, rfl⟩ | ⟨hk, hu, rfl⟩
    · exact ⟨_, execB32end_closed hk, sameSince_raise u ..⟩
    · exact ⟨_, execB32end_unusable hk hu, sameSince_raise u.closeDecoder.wipeKey ..⟩
    · exact ⟨_, execB32end_good hk hu, sameSince_respond u.closeDecoder ..⟩
  | keyrd b =>
    rcases execKeyrd_cases hx with ⟨hk, rfl⟩ | ⟨hk, he, rfl⟩ | ⟨hk, he, rfl⟩
    · exact ⟨_, execKeyrd_open hk, sameSince_raise u ..⟩
    · exact ⟨_, execKeyrd_invalid hk he, sameSince_respond u ..⟩
    · exact ⟨_, execKeyrd_read hk he, sameSince_respond u ..⟩
  | ctrset e => cases hx; exact ⟨_, rfl, sameSince_respond (u.loadCounter e).dropDigest ..⟩
  | ctrnow =>
    rcases execCtrnow_cases hx with ⟨hok, rfl⟩ | ⟨hf, rfl⟩
    · refine ⟨_, execCtrnow_ok hok, ?_⟩
      rw [clockTaken_withPast, clockTaken_withPast]
      exact sameSince_respond (u.clockTaken.loadCounter u.clockNow.t).dropDigest ..
    · refine ⟨_, execCtrnow_fails hf, ?_⟩
      rw [clockTaken_withPast, clockTaken_withPast]
      exact sameSince_raise u.clockTaken.dropCounter.dropDigest ..
  | hmac =>
    rcases execHmac_cases hx with ⟨hearly, rfl⟩ | ⟨hk, he, rfl⟩ | ⟨hk, he, hc, rfl⟩
    · refine ⟨_, ?_, sameSince_raise u ..⟩
      rcases hearly with hk | ⟨he, hc⟩
      · exact execHmac_open hk
      · exact execHmac_noCounter he hc
    · exact ⟨_, execHmac_invalid hk he, sameSince_respond u ..⟩
    · refine ⟨_, execHmac_asks hk he hc, u.sendRequest.pollHmac, ?_, ?_⟩ <;>
        rw [sendRequest_withPast, pollHmac_withPast]
  | trunc =>
    rcases execTrunc_cases hx with ⟨hd, rfl⟩ | ⟨hd, rfl⟩
    · exact ⟨_, execTrunc_noDigest hd, sameSince_raise u ..⟩
    · exact ⟨_, execTrunc_code hd, sameSince_respond u.latchCode ..⟩

/-- `SRST` forgets every register: from two states with the same parameters and the same answers at the ports it reaches one
state (R201). -/
theorem sameSince_zeroRegs {s s' : State} (hcfg : s.cfg = s'.cfg) (hclock : s.clock = s'.clock)
    (hanswers : s.answers = s'.answers) (hdraws : s.draws = s'.draws) (hwait : s.hmacWait = s'.hmacWait) :
    SameSince s s' s.zeroRegs s'.zeroRegs :=
  ⟨{ s.zeroRegs with requests := [], responses := [] }, by simp [State.zeroRegs, State.withPast],
    by simp [State.zeroRegs, State.withPast, hcfg, hclock, hanswers, hdraws, hwait]⟩

/-- Settles O39: after `SRST` the two states are the same since their pasts, and every command keeps them so. -/
theorem callsAreIndependentOfThePast : Obligations.CallsAreIndependentOfThePast := by
  unfold Obligations.CallsAreIndependentOfThePast
  intro is s s' t hcfg hclock hanswers hdraws hw hw' hx
  obtain ⟨u, hz, hz'⟩ := sameSince_zeroRegs hcfg hclock hanswers hdraws (hw.trans hw'.symm)
  have hsrst : SameSince s s' (s.zeroRegs.respond statusOk 0#64) (s'.zeroRegs.respond statusOk 0#64) := by
    rw [hz, hz']
    exact sameSince_respond u s s' _ _
  obtain ⟨_, ht', v, rfl, rfl⟩ := execAll_follows (List.forall₂_same.mpr fun i _ => follows_sameSince s s' i) hsrst hx
  exact ⟨_, v.responses, v.requests, ht', rfl, rfl, rfl, rfl, rfl⟩

end Sys2Proof.Machine

namespace Sys2Proof.Machine

/-! ### A call in two parts (R89, R220) -/

/-- A call begun with `B32CLR` is a decode, and the three commands that follow it. -/
theorem execAll_callSequence_b32clr {str : List Byte} {counter : Instr} {s t : State} :
    execAll (callSequence .b32clr str counter) s = .next t ↔
      ∃ v, execAll (Pseudo.decode str).expand s = .next v ∧ execAll [counter, .hmac, .trunc] v = .next t := by
  have hsplit : callSequence .b32clr str counter = (Pseudo.decode str).expand ++ [counter, .hmac, .trunc] := by
    simp [callSequence, Pseudo.expand]
  rw [hsplit, execAll_append_eq_next]

/-- After `SRST` a call goes on as it does after `B32CLR` from the zeroed registers (R201, R220). -/
theorem execAll_gen {str : List Byte} {e : Word64} {s : State} :
    execAll (Pseudo.gen str e).expand s = execAll (callSequence .b32clr str (.ctrset e)) s.zeroRegs := by
  have hstart : exec .srst s = exec .b32clr s.zeroRegs := by
    simp [exec, execSrst, execB32clr, State.zeroRegs, State.emptyDecoder, State.clearSecretFlags, State.dropDigest]
  simp only [Pseudo.expand, callSequence, List.cons_append, execAll, hstart]

/-- `ESEC` is left as it was by a command that neither judges a secret nor clears its flags (R39). -/
theorem exec_keeps_esec {i : Instr} {s t : State} (hx : exec i s = .next t) (hi : .invalidSecret ∉ causesOf i)
    (hclr : i ≠ .b32clr) (hsrst : i ≠ .srst) : t.hasError .invalidSecret = s.hasError .invalidSecret := by
  rcases exec_er_cases hx with he | ⟨c, hc, he⟩ | ⟨hi, -⟩ | ⟨-, he⟩ | ⟨hi, -⟩
  · exact State.hasError_congr he _
  · have hne : c ≠ .invalidSecret := fun h => hi (h ▸ hc)
    rw [State.hasError_congr (s := s.raise c 0#64) he, State.hasError_raise]
    simp [hne]
  · exact absurd hi hsrst
  · rw [State.hasError_congr (s := s.clearOtherFlags) he, State.hasError_clearOtherFlags]
    exact Bool.and_true _
  · exact absurd hi hclr

/-- What feeding a string leaves unchanged, `ESEC` among it (R39, R66). -/
theorem execAll_feedString_frame {str : List Byte} {s t : State} (hx : execAll (feedString str) s = .next t) :
    t = { s with
      accn := t.accn, accb := t.accb, nch := t.nch, klen := t.klen, kbuf := t.kbuf, er := t.er
      responses := t.responses } ∧
    t.hasError .invalidSecret = s.hasError .invalidSecret := by
  induction str generalizing s with
  | nil => cases hx; exact ⟨rfl, rfl⟩
  | cons c str ih =>
    obtain ⟨u, hu, hx⟩ := execAll_cons_eq_next.mp hx
    obtain ⟨hframe, hesec⟩ := ih hx
    obtain ⟨hfirst, -⟩ := decoderCommandsFrame.2.1 c s u hu
    refine ⟨?_, hesec.trans (exec_keeps_esec hu (by simp [causesOf]) nofun nofun)⟩
    rw [hfirst] at hframe
    exact hframe

/-- `B32END` of an open decoder that has judged no secret raises `InvalidSecret` exactly when it leaves no key (R117). -/
theorem execB32end_judges {s t : State} (hk : s.kdone = false) (he : s.hasError .invalidSecret = false)
    (hx : execB32end s = .next t) : t.kdone = true ∧ t.hasError .invalidSecret = (t.klen == 0#17) := by
  rcases execB32end_cases hx with ⟨hclosed, -⟩ | ⟨-, -, rfl⟩ | ⟨-, hu, rfl⟩
  · cases hk.symm.trans hclosed
  · exact ⟨rfl, by simp [State.hasError_raise]⟩
  · have hpos : s.klen ≠ 0#17 := fun h0 => by simp [(keyUnusable_iff s).mpr (.inr (.inr (.inl h0)))] at hu
    exact ⟨rfl, he.trans (by simpa using hpos)⟩

/-- What a decode leaves unchanged (R66); `ESEC` says that it left no key (R117). -/
theorem execAll_decode_frame {str : List Byte} {s v : State} (hx : execAll (Pseudo.decode str).expand s = .next v) :
    v = { s with
      kdone := true, accn := v.accn, accb := v.accb, nch := v.nch, klen := v.klen, kbuf := v.kbuf, er := v.er
      dvalid := false, ovalid := false, responses := v.responses } ∧
    v.hasError .invalidSecret = (v.klen == 0#17) := by
  obtain ⟨u, hu, hx⟩ := execAll_append_eq_next.mp (execAll_decode_eq_next.mp hx)
  obtain ⟨_, hend, ⟨⟩⟩ := execAll_cons_eq_next.mp hx
  obtain ⟨hfed, hesec⟩ := execAll_feedString_frame hu
  have hopen : u.kdone = false := by rw [hfed]; rfl
  have hunjudged := hesec.trans (State.afterB32clr_hasError s rfl)
  obtain ⟨hk, hjudged⟩ := execB32end_judges hopen hunjudged hend
  obtain ⟨hclosed, -⟩ := decoderCommandsFrame.2.2 u v hend
  have hnch : u.nch = v.nch := by rw [hclosed]
  refine ⟨?_, hjudged⟩
  rw [hfed, hnch, hk] at hclosed
  exact hclosed

theorem execAll_cfg {is : List Instr} {s t : State} (hx : execAll is s = .next t) : t.cfg = s.cfg := by
  induction is generalizing s with
  | nil => cases hx; rfl
  | cons i is ih =>
    obtain ⟨u, hu, hx⟩ := execAll_cons_eq_next.mp hx
    exact (ih hx).trans (exec_cfg hu)

/-! ### `HMAC` and `TRUNC` do not read `EPOCH` (R160, R180) -/

/-- The two states are the same, `EPOCH` apart, which is `e` in the second. -/
def SameButEpoch (e : Word64) (s s' : State) : Prop := s' = { s with epoch := e }

theorem takeReply_epoch (s : State) (r : HmacReply) (e : Word64) :
    ({ s with epoch := e } : State).takeReply r = { s.takeReply r with epoch := e } := by
  unfold State.takeReply
  split <;> rfl

theorem pollHmac_epoch (s : State) (e : Word64) :
    ({ s with epoch := e } : State).pollHmac = { s.pollHmac with epoch := e } := by
  have htaken : ({ s with epoch := e } : State).answerTaken = { s.answerTaken with epoch := e } := by
    rw [answerTaken_eq, answerTaken_eq]
  rcases pollHmac_cases s with ⟨hnone, ht⟩ | ⟨r, hsome, ht⟩ <;> rw [ht]
  · rw [← htaken]
    exact pollHmac_none hnone
  · rw [← takeReply_epoch, ← htaken]
    exact pollHmac_some hsome

theorem follows_hmac_sameButEpoch (e : Word64) : Follows (SameButEpoch e) .hmac .hmac := by
  rintro s _ t rfl hx
  rcases execHmac_cases hx with ⟨hk | ⟨he, hc⟩, rfl⟩ | ⟨hk, he, rfl⟩ | ⟨hk, he, hc, rfl⟩
  · exact ⟨_, execHmac_open hk, rfl⟩
  · exact ⟨_, execHmac_noCounter he hc, rfl⟩
  · exact ⟨_, execHmac_invalid hk he, rfl⟩
  · exact ⟨_, execHmac_asks hk he hc, pollHmac_epoch s.sendRequest e⟩

theorem follows_trunc_sameButEpoch (e : Word64) : Follows (SameButEpoch e) .trunc .trunc := by
  rintro s _ t rfl hx
  rcases execTrunc_cases hx with ⟨hd, rfl⟩ | ⟨hd, rfl⟩
  · exact ⟨_, execTrunc_noDigest hd, rfl⟩
  · exact ⟨_, execTrunc_code hd, rfl⟩

/-- Two epochs with the same counter are the same to every later command of a call (R141). -/
theorem sameButEpoch_takeEpoch {s : State} {e e' : Word64} (hc : counterOf s.cfg e' = counterOf s.cfg e) :
    SameButEpoch e' (s.takeEpoch e) (s.takeEpoch e') := by
  simp [SameButEpoch, State.takeEpoch, State.loadCounter, State.dropDigest, State.respond, hc]

/-- Settles O38: the decode is the same run, and from `CTRSET` on the two runs differ in `EPOCH` only. -/
theorem windowGivesOneCode : Obligations.WindowGivesOneCode := by
  unfold Obligations.WindowGivesOneCode
  intro s t str k i j f f' hwf hk hi hj hf hf' e hx
  rw [execAll_gen, execAll_callSequence_b32clr] at hx ⊢
  obtain ⟨v, hv, hx⟩ := hx
  obtain ⟨_, ⟨⟩, hx⟩ := execAll_cons_eq_next.mp hx
  have hcfg : v.cfg = s.cfg := (execAll_cfg hv).trans rfl
  have hcounter : counterOf v.cfg (e j f') = counterOf v.cfg (e i f) := by
    rw [hcfg, (timeStepsOfThirtySeconds s.cfg k j f' hwf hk hf').1 hj,
      (timeStepsOfThirtySeconds s.cfg k i f hwf hk hf).1 hi]
  obtain ⟨_, ht', rfl⟩ := execAll_follows
    (.cons (follows_hmac_sameButEpoch _) (.cons (follows_trunc_sameButEpoch _) .nil)) (sameButEpoch_takeEpoch hcounter) hx
  exact ⟨v, hv, ht'⟩

/-! ### `GEN` of a valid string (R225) -/

/-- The key is the string whose nibbles the key buffer holds, `KLEN` of them (R25, R26). -/
theorem key_eq_of_read {s : State} {ns : List Nibble} (hklen : s.klen.toNat = ns.length)
    (hread : ∀ j, j < s.klen.toNat → ns[j]? = some (Memory.read s.kbuf j)) : s.key = ns := by
  rw [key_eq_map_read]
  refine List.ext_getElem (by simp [hklen]) fun j hj _ => ?_
  obtain ⟨_, hcell⟩ := List.getElem?_eq_some_iff.mp (hread j (by simpa using hj))
  rw [hcell, List.getElem_map, List.getElem_range]

/-- `DECODE` of a valid string whose key is allowed, from any state: the decoder closes on the key (R119). -/
theorem execAll_decode_key {s : State} {str : List Byte} {vs : List (BitVec 5)}
    (hvs : str.map charIndex = vs.map some) (hpos : 1 ≤ str.length) (hlen : str.length ≤ s.cfg.maxch.toNat)
    (hodd : s.cfg.oddKey = .fallback ∨ 5 * str.length / 4 % 2 = 0) :
    ∃ v, execAll (Pseudo.decode str).expand s = .next v ∧ v.klen.toNat = 5 * str.length / 4 ∧ v.key = hexString vs ∧
      v.hasError .invalidSecret = false := by
  obtain ⟨v, -, hv, hklen, hread, -⟩ := decodeSequenceComputesHex s str vs hvs hpos hlen hodd
  have hn : vs.length = str.length := by simpa using (congrArg List.length hvs).symm
  have hne : v.klen ≠ 0#17 := fun h0 => by
    rw [h0, BitVec.toNat_ofNat] at hklen
    omega
  exact ⟨v, hv, hklen, key_eq_of_read (by rw [hklen, length_hexString, hn]) hread,
    (execAll_decode_frame hv).2.trans (beq_false_of_ne hne)⟩

/-- `HMAC` whose reply, without `kerr`, is there at the first look (R160 steps 4 to 6). -/
theorem exec_hmac_latches {s : State} {r : HmacReply} {rest : List (Option HmacReply)} (hk : s.kdone = true)
    (he : s.hasError .invalidSecret = false) (hc : s.cvalid = true) (ha : s.answers = some r :: rest)
    (hr : r.kerr = false) :
    exec .hmac s = .next ((s.sendRequest.answerTaken.waitOver.latchDigest r).respond statusOk
      ((BitVec.ofBool r.kerr).setWidth 64)) := by
  have hshown : s.sendRequest.hmacShown = some r := hmacShown_cons ha
  rw [exec, execHmac_asks hk he hc, pollHmac_some hshown, takeReply_latched (by simp [hr])]

/-- With a good key, `CTRSET`, `HMAC` and `TRUNC` send the request of key and counter, and return the code of the reply that
is there at the first look (R141, R160, R180). -/
theorem execAll_code_of_reply {v : State} (e : Word64) {r : HmacReply} {rest : List (Option HmacReply)}
    (hk : v.kdone = true) (he : v.hasError .invalidSecret = false) (ha : v.answers = some r :: rest)
    (hr : r.kerr = false) :
    ∃ t, execAll [.ctrset e, .hmac, .trunc] v = .next t ∧
      t.requests = v.requests ++ [{ klen := v.klen, key := v.key, msg := counterOf v.cfg e }] ∧ t.ovalid = true ∧
      t.code = codeOf (reduce (truncMask (truncWindow r.digest (r.digest.extractLsb' 0 4)))) ∧
      t.responses.getLast? = some (rspWord statusOk (t.code.setWidth 64)) := by
  have hctrset : exec (.ctrset e) v = .next (v.takeEpoch e) := rfl
  have hhmac := exec_hmac_latches (s := v.takeEpoch e) hk he rfl ha hr
  refine ⟨_, execAll_cons_eq_next.mpr ⟨_, hctrset, execAll_cons_eq_next.mpr ⟨_, hhmac, execAll_cons_eq_next.mpr
    ⟨_, execTrunc_code rfl, rfl⟩⟩⟩, ?_, rfl, ?_, List.getLast?_concat⟩
  · rw [answerTaken_eq]
    rfl
  · simp [truncOffset, hr]

/-- Settles O37: `execAll_decode_key` gives the key of the request, and `execAll_code_of_reply` the code of the reply, which the
contract makes the HMAC. -/
theorem generateIsOneFunction : Obligations.GenerateIsOneFunction := by
  unfold Obligations.GenerateIsOneFunction
  intro s str vs e r rest hvs hpos hlen heven hfrac hans c q hconf dg
  obtain ⟨v, hv, hklen, hkey, hesec⟩ := execAll_decode_key (s := s.zeroRegs) hvs hpos hlen (.inr heven)
  obtain ⟨hframe, -⟩ := execAll_decode_frame hv
  have hq : ({ klen := v.klen, key := v.key, msg := counterOf v.cfg e } : HmacRequest) = q := by
    have hcfg : v.cfg = s.cfg := by rw [hframe]; rfl
    rw [hkey, hcfg, counterOf_eq_ofNat, hfrac]
    simp [q, c, ← hklen]
  obtain ⟨hkerr, hdigest⟩ : r.kerr = false ∧ r.digest = dg := by
    have hbit : q.klen.getLsbD 0 = false := by
      rw [← hq, BitVec.getLsbD, hklen, Nat.testBit_zero, heven]
      rfl
    rwa [Conforms, if_neg (Bool.eq_false_iff.mp hbit)] at hconf
  have hans' : v.answers = some r :: rest := by rw [hframe]; exact hans
  obtain ⟨t, ht, hreq, hovalid, hcode, hlast⟩ := execAll_code_of_reply e (by rw [hframe]) hesec hans' hkerr
  rw [hq, hframe] at hreq
  rw [hdigest] at hcode
  exact ⟨t, by rw [execAll_gen, execAll_callSequence_b32clr]; exact ⟨v, hv, ht⟩, hreq, hovalid, hcode, hlast⟩

/-! ### What a call begun with `B32CLR` keeps of the past (R220, R226) -/

/-- What the commands after a decode read: the decoder, the parameters and the ports, with every register that a decode leaves
as it was, the sticky flags and the records set to 0. -/
def State.core (v : State) : State :=
  { v with
    epoch := 0#64, ctr := 0#64, cvalid := false, digest := 0#160, kerr := false, offset := 0#4, p := 0#32, code := 0#48
    er := 0#6, host := [], requests := [], responses := [] }

/-- What has become of `past` when the commands since then have done `u`: they set the flags of `u` and recorded its requests and
responses; a counter, a digest or a code that `u` does not have is still the one of `past`. -/
def State.inCall (u past : State) : State :=
  { u.withPast past with
    er := past.er ||| u.er
    epoch := bif u.cvalid then u.epoch else past.epoch
    ctr := bif u.cvalid then u.ctr else past.ctr
    digest := bif u.dvalid then u.digest else past.digest
    kerr := bif u.dvalid then u.kerr else past.kerr
    offset := bif u.ovalid then u.offset else past.offset
    p := bif u.ovalid then u.p else past.p
    code := bif u.ovalid then u.code else past.code }

section
variable (u past : State)

theorem respond_inCall (st : BitVec 8) (data : Word64) :
    (u.inCall past).respond st data = (u.respond st data).inCall past := by
  simp [State.respond, State.inCall, State.withPast]

theorem raise_inCall (c : ErrorCause) (info : Word64) :
    (u.inCall past).raise c info = (u.raise c info).inCall past := by
  simp [State.raise, State.setError, State.respond, State.inCall, State.withPast, BitVec.or_assoc]

theorem answerTaken_inCall : (u.inCall past).answerTaken = u.answerTaken.inCall past := by
  rw [answerTaken_eq, answerTaken_eq]
  rfl

/-- A sample changes nothing that a decode leaves as it was. -/
theorem inCall_clockTaken : u.inCall past.clockTaken = u.inCall past := by
  rw [clockTaken_eq]
  rfl

theorem core_clockTaken : u.clockTaken.core = u.core.clockTaken := by
  rw [clockTaken_eq, clockTaken_eq]
  rfl

theorem takeEpoch_eq_inCall (e : Word64) : u.takeEpoch e = (u.core.takeEpoch e).inCall u := by
  simp [State.takeEpoch, State.loadCounter, State.dropDigest, State.respond, State.core, State.inCall, State.withPast]

theorem dropCounter_eq_inCall : u.dropCounter.dropDigest = u.core.dropCounter.dropDigest.inCall u := by
  simp [State.dropCounter, State.dropDigest, State.core, State.inCall, State.withPast]

variable {u}

/-- The request carries the counter of the call, where it has one (R161). -/
theorem sendRequest_inCall (hc : u.cvalid = true) : (u.inCall past).sendRequest = u.sendRequest.inCall past := by
  have hq : (u.inCall past).hmacRequest = u.hmacRequest := State.hmacRequest_congr rfl rfl (by simp [State.inCall, hc])
  rw [State.sendRequest, hq]
  simp [State.sendRequest, State.inCall, State.withPast]

theorem takeReply_inCall (hd : u.dvalid = false) (ho : u.ovalid = false) (r : HmacReply) :
    (u.inCall past).takeReply r = (u.takeReply r).inCall past := by
  rcases takeReply_cases u r with ⟨hk, hodd, ht⟩ | ⟨hlatched, ht⟩ <;> rw [ht]
  · have hdrop : (u.inCall past).waitOver.dropDigest = u.waitOver.dropDigest.inCall past := by
      simp [State.waitOver, State.dropDigest, State.inCall, State.withPast, hd, ho]
    rw [← raise_inCall, ← hdrop]
    exact takeReply_refused (s := u.inCall past) hk hodd
  · have hlatch : (u.inCall past).waitOver.latchDigest r = (u.waitOver.latchDigest r).inCall past := by
      simp [State.waitOver, State.latchDigest, State.inCall, State.withPast, ho]
    rw [← respond_inCall, ← hlatch]
    exact takeReply_latched (s := u.inCall past) hlatched

theorem pollHmac_inCall (hd : u.dvalid = false) (ho : u.ovalid = false) :
    (u.inCall past).pollHmac = u.pollHmac.inCall past := by
  rcases pollHmac_cases u with ⟨hnone, ht⟩ | ⟨r, hsome, ht⟩ <;> rw [ht]
  · rw [← answerTaken_inCall]
    exact pollHmac_none hnone
  · rw [← takeReply_inCall past (by simpa using hd) (by simpa using ho), ← answerTaken_inCall]
    exact pollHmac_some hsome

/-- The code is the one of the call's digest, where it has one (R180). -/
theorem latchCode_inCall (hd : u.dvalid = true) : (u.inCall past).latchCode = u.latchCode.inCall past := by
  simp [State.latchCode, State.inCall, State.withPast, hd]

end

/-- `CTRSET` and `CTRNOW` write the registers a decode leaves as they were, or mark them invalid (R141, R146). -/
theorem exec_counter_inCall {counter : Instr} (hcounter : counter = .ctrnow ∨ ∃ e, counter = .ctrset e) (c : State) :
    ∃ u : State, u.dvalid = false ∧ u.ovalid = false ∧
      ∀ v : State, v.core = c → exec counter v = .next (u.inCall v) := by
  rcases hcounter with rfl | ⟨e, rfl⟩
  · cases hok : c.clockNow.ok
    · refine ⟨c.clockTaken.dropCounter.dropDigest.raise .clockError 0#64, rfl, rfl, ?_⟩
      rintro v rfl
      rw [← raise_inCall, ← core_clockTaken, ← inCall_clockTaken, ← dropCounter_eq_inCall]
      exact execCtrnow_fails hok
    · refine ⟨c.clockTaken.takeEpoch c.clockNow.t, rfl, rfl, ?_⟩
      rintro v rfl
      rw [← core_clockTaken, ← inCall_clockTaken, ← takeEpoch_eq_inCall]
      exact execCtrnow_ok hok
  · refine ⟨c.takeEpoch e, rfl, rfl, ?_⟩
    rintro v rfl
    rw [← takeEpoch_eq_inCall]
    rfl

/-- `HMAC` reads of the past one flag, `ESEC` (R160). -/
theorem exec_hmac_inCall {u : State} (hd : u.dvalid = false) (ho : u.ovalid = false) (b : Bool) :
    ∃ u' : State, u'.ovalid = false ∧
      ∀ past : State, (u.inCall past).hasError .invalidSecret = b →
        exec .hmac (u.inCall past) = .next (u'.inCall past) := by
  cases hk : u.kdone
  · refine ⟨u.raise .sequenceError 0#64, ho, fun past _ => ?_⟩
    rw [← raise_inCall]
    exact execHmac_open hk
  · cases b
    · cases hc : u.cvalid
      · refine ⟨u.raise .sequenceError 0#64, ho, fun past he => ?_⟩
        rw [← raise_inCall]
        exact execHmac_noCounter he hc
      · refine ⟨u.sendRequest.pollHmac, ?_, fun past he => ?_⟩
        · rcases pollHmac_cases u.sendRequest with ⟨-, ht⟩ | ⟨r, -, ht⟩ <;> simp [ht, ho]
        · rw [← pollHmac_inCall (u := u.sendRequest) past hd ho, ← sendRequest_inCall past hc]
          exact execHmac_asks hk he hc
    · refine ⟨u.respond ErrorCause.invalidSecret.status 0#64, ho, fun past he => ?_⟩
      rw [← respond_inCall]
      exact execHmac_invalid hk he

/-- `TRUNC` reads nothing of the past, and gives a code where the call has a digest (R180). -/
theorem exec_trunc_inCall {u : State} (ho : u.ovalid = false) :
    ∃ u' : State, u'.dvalid = u'.ovalid ∧ ∀ past : State, exec .trunc (u.inCall past) = .next (u'.inCall past) := by
  cases hd : u.dvalid
  · refine ⟨u.raise .sequenceError 0#64, hd.trans ho.symm, fun past => ?_⟩
    rw [← raise_inCall]
    exact execTrunc_noDigest hd
  · refine ⟨u.latchCode.respond statusOk (u.latchCode.code.setWidth 64), hd, fun past => ?_⟩
    have hx := execTrunc_code (s := u.inCall past) hd
    rw [latchCode_inCall past hd, respond_inCall] at hx
    exact hx

/-- The three commands after a decode do the same in every state with the same core and the same `ESEC`; they end with a code
where they end with a digest. -/
theorem execAll_afterDecode {counter : Instr} (hcounter : counter = .ctrnow ∨ ∃ e, counter = .ctrset e) (c : State)
    (b : Bool) :
    ∃ u : State, u.dvalid = u.ovalid ∧ ∀ v : State, v.core = c → v.hasError .invalidSecret = b →
      execAll [counter, .hmac, .trunc] v = .next (u.inCall v) := by
  obtain ⟨u₁, hd₁, ho₁, hctr⟩ := exec_counter_inCall hcounter c
  obtain ⟨u₂, ho₂, hhmac⟩ := exec_hmac_inCall hd₁ ho₁ b
  obtain ⟨u₃, hdo, htrunc⟩ := exec_trunc_inCall ho₂
  refine ⟨u₃, hdo, fun v hv he => ?_⟩
  have he₁ : (u₁.inCall v).hasError .invalidSecret = b := by
    rw [← he]
    rcases hcounter with rfl | ⟨e, rfl⟩ <;> exact exec_keeps_esec (hctr v hv) (by simp [causesOf]) nofun nofun
  exact execAll_cons_eq_next.mpr ⟨_, hctr v hv, execAll_cons_eq_next.mpr ⟨_, hhmac v he₁, execAll_cons_eq_next.mpr
    ⟨_, htrunc v, rfl⟩⟩⟩

/-- `ECHR`, `ESEC` and `EOVF` are the flags of the secret (R39). -/
theorem and_secretFlags_eq {s t : State} (hchr : t.hasError .invalidCharacter = s.hasError .invalidCharacter)
    (hsec : t.hasError .invalidSecret = s.hasError .invalidSecret)
    (hovf : t.hasError .keyOverflow = s.hasError .keyOverflow) : t.er &&& secretFlags = s.er &&& secretFlags := by
  rw [hasError_echr, hasError_echr] at hchr
  rw [hasError_esec, hasError_esec] at hsec
  rw [hasError_eovf, hasError_eovf] at hovf
  refine BitVec.eq_of_getLsbD_eq fun k hk => ?_
  interval_cases k <;> simp_all [secretFlags]

/-- Decodes from two states with the same parameters and ports end in the same core, with the same flags of the secret. -/
theorem execAll_decode_core {str : List Byte} {s s' v : State} (hcfg : s.cfg = s'.cfg) (hclock : s.clock = s'.clock)
    (hanswers : s.answers = s'.answers) (hdraws : s.draws = s'.draws) (hwait : s.hmacWait = s'.hmacWait)
    (hx : execAll (Pseudo.decode str).expand s = .next v) :
    ∃ v' rs, execAll (Pseudo.decode str).expand s' = .next v' ∧ v'.core = v.core ∧
      v'.hasError .invalidSecret = v.hasError .invalidSecret ∧ v'.er &&& secretFlags = v.er &&& secretFlags ∧
      v.responses = s.responses ++ rs ∧ v'.responses = s'.responses ++ rs := by
  obtain ⟨v', hv', h⟩ := execAll_decode_sameDecoder (s' := s') (by rw [hcfg]) (by rw [hcfg]) hx
  obtain ⟨hframe, hesec⟩ := execAll_decode_frame hx
  obtain ⟨hframe', hesec'⟩ := execAll_decode_frame hv'
  obtain ⟨rs, hr, hr'⟩ := h.responses
  have hsame : v'.hasError .invalidSecret = v.hasError .invalidSecret := by rw [hesec, hesec', h.klen]
  refine ⟨v', rs, hv', ?_, hsame, and_secretFlags_eq h.echr hsame h.eovf, hr, hr'⟩
  rw [hframe, hframe']
  simp [State.core, h.accn, h.accb, h.nch, h.klen, h.kbuf, hcfg, hclock, hanswers, hdraws, hwait]

/-- Settles O56: the two decodes end in one core, and the three commands after them do one thing to both states. -/
theorem callsBegunWithB32clr : Obligations.CallsBegunWithB32clr := by
  unfold Obligations.CallsBegunWithB32clr
  intro s s' t str counter hcfg hclock hanswers hdraws hw hw' hcounter hx
  obtain ⟨v, hv, hx⟩ := execAll_callSequence_b32clr.mp hx
  obtain ⟨v', rs, hv', hcore, hesec, hflags, hrs, hrs'⟩ :=
    execAll_decode_core hcfg hclock hanswers hdraws (hw.trans hw'.symm) hv
  obtain ⟨u, hdo, hafter⟩ := execAll_afterDecode hcounter v.core (v.hasError .invalidSecret)
  obtain rfl : u.inCall v = t := Host.Outcome.next.inj ((hafter v rfl rfl).symm.trans hx)
  obtain ⟨hframe, -⟩ := execAll_decode_frame hv
  obtain ⟨hframe', -⟩ := execAll_decode_frame hv'
  refine ⟨u.inCall v', rs ++ u.responses, u.requests,
    execAll_callSequence_b32clr.mpr ⟨v', hv', hafter v' hcore hesec⟩, ?_, ?_, ?_, ?_, ?_, ?_, ?_, ?_⟩
  · rw [← List.append_assoc, ← hrs]
    rfl
  · rw [← List.append_assoc, ← hrs']
    rfl
  · rw [hframe]
    rfl
  · rw [hframe']
    rfl
  · rw [hframe']
    rfl
  · simp only [State.inCall, BitVec.and_or_distrib_right]
    exact congrArg (· ||| _) hflags
  · rw [hframe, hframe']
    cases hc : u.cvalid <;> simp [State.inCall, State.withPast, hc]
  · rw [hframe, hframe']
    cases ho : u.ovalid <;> simp [State.inCall, State.withPast, hdo, ho]

end Sys2Proof.Machine

namespace Sys2Proof.Machine

/-! ### `SequenceError` by phase (R245) -/

/-- A response with another status than 0x05 is one word, and no `SequenceError`. -/
theorem respond_no_sequenceError {s u : State} {st : BitVec 8} (data : Word64) (hu : u.responses = s.responses)
    (hst : st ≠ 0x05#8) :
    ∃ w, (u.respond st data).responses = s.responses ++ [w] ∧ w.extractLsb' 64 8 ≠ 0x05#8 :=
  ⟨rspWord st data, by rw [State.respond_responses, hu], (opField_rspWord st data).trans_ne hst⟩

/-- `RDREG` of a reserved number raises `IllegalCommand`, `CTRNOW` may raise `ClockError`, and the other five of these
commands raise nothing (R245). -/
theorem exec_no_sequenceError {i : Instr} {s t : State}
    (hi : i ∈ [.nop, .srst, .erclr, .b32clr, .ctrnow] ∨ (∃ n, i = .rdreg n) ∨ ∃ e, i = .ctrset e)
    (hx : exec i s = .next t) :
    ∃ w, t.responses = s.responses ++ [w] ∧ w.extractLsb' 64 8 ≠ 0x05#8 := by
  cases i with
  | nop | srst | erclr | b32clr | ctrset => cases hx; exact respond_no_sequenceError _ rfl (by decide)
  | rdreg n =>
    rcases execRdreg_cases hx with ⟨v, -, rfl⟩ | ⟨-, rfl⟩
    · exact respond_no_sequenceError _ rfl (by decide)
    · exact respond_no_sequenceError (u := s.setError .illegalCommand) _ rfl (by decide)
  | ctrnow =>
    rcases execCtrnow_cases hx with ⟨-, rfl⟩ | ⟨-, rfl⟩
    · exact respond_no_sequenceError (u := (s.clockTaken.loadCounter s.clockNow.t).dropDigest) _
        (State.clockTaken_responses s) (by decide)
    · exact respond_no_sequenceError (u := s.clockTaken.dropCounter.dropDigest.setError .clockError) _
        (State.clockTaken_responses s) (by decide)
  | b32ch | b32end | keyrd | hmac | trunc => simp at hi

/-- Settles O42: each refusal is an equation of its command and a `raise` of `s` itself; the seven commands that never
answer 0x05 are those of `exec_no_sequenceError`. -/
theorem sequenceErrorsByPhase : Obligations.SequenceErrorsByPhase := by
  unfold Obligations.SequenceErrorsByPhase
  intro s
  rw [← hasError_esec]
  exact ⟨fun hk => ⟨fun _ => execB32ch_closed hk, execB32end_closed hk⟩,
    fun hk => ⟨fun _ => execKeyrd_open hk, execHmac_open hk⟩,
    fun _ he hc => execHmac_noCounter he hc, execHmac_invalid, execTrunc_noDigest, fun i t => exec_no_sequenceError⟩

/-! ### A failing command repeated (R249) -/

/-- The flags are sticky: an error raised again returns its response and changes nothing more (R39, R241). -/
theorem raise_raise (s : State) (c : ErrorCause) (info info' : Word64) :
    (s.raise c info).raise c info' = (s.raise c info).respond c.status info' := by
  simp [State.raise, State.setError, State.respond, BitVec.or_assoc]

theorem hasError_raise_self (s : State) (c : ErrorCause) (info : Word64) : (s.raise c info).hasError c = true := by
  simp [State.hasError_raise]

/-- A response word fixes its status and its data (R82). -/
theorem rspWord_inj {st st' : BitVec 8} {data data' : Word64} (h : rspWord st data = rspWord st' data') :
    st = st' ∧ data = data' := by
  obtain ⟨hst, hdata⟩ := eq_append_iff.mp h
  exact ⟨(opField_rspWord st data).symm.trans hst, (Laws.EncodedFields.argField_append st data).symm.trans hdata⟩

section
variable {s u : State} {st st' : BitVec 8} {data data' : Word64}

/-- The response by which a command ended is the one word it added to the record (R82). -/
theorem eq_of_respond_responses (hu : u.responses = s.responses)
    (hr : (u.respond st' data').responses = s.responses ++ [rspWord st data]) : st' = st ∧ data' = data := by
  rw [State.respond_responses, hu] at hr
  exact rspWord_inj (List.singleton_inj.mp (List.append_cancel_left hr))

/-- A command that ended with status 0x00 answered no error. -/
theorem not_error_of_respond_ok (hu : u.responses = s.responses)
    (hr : (u.respond statusOk data').responses = s.responses ++ [rspWord st data]) : ¬st ≠ 0x00#8 :=
  not_not.mpr (eq_of_respond_responses hu hr).1.symm

/-- A command that only responds again after its response gives the response it gave. -/
theorem exec_again_of_respond {i : Instr} (hu : u.responses = s.responses)
    (hr : (u.respond st' data').responses = s.responses ++ [rspWord st data])
    (hagain : exec i (u.respond st' data') = .next ((u.respond st' data').respond st' data')) :
    exec i (u.respond st' data') = .next ((u.respond st' data').respond st data) := by
  obtain ⟨rfl, rfl⟩ := eq_of_respond_responses hu hr
  exact hagain

/-- A command that raises again the error it raised gives the response it gave and changes nothing more (R249). -/
theorem exec_again_of_raise {i : Instr} {c : ErrorCause} {info : Word64} (hu : u.responses = s.responses)
    (hr : (u.raise c info).responses = s.responses ++ [rspWord st data])
    (hagain : exec i (u.raise c info) = .next ((u.raise c info).raise c info)) :
    exec i (u.raise c info) = .next ((u.raise c info).respond st data) :=
  exec_again_of_respond (u := u.setError c) hu hr (hagain.trans (congrArg _ (raise_raise u c info info)))

end

/-- `HMAC` repeated: the check that refused it fails again; after a reply refused for its odd key `ESEC` is set, and no
second request is sent (R160, R164, R249). -/
theorem execHmac_again {s t : State} {st : BitVec 8} {data : Word64} (hx : execHmac s = .next t)
    (hr : t.responses = s.responses ++ [rspWord st data]) (hst : st ≠ 0x00#8) :
    exec .hmac t = .next (t.respond st data) := by
  rcases execHmac_cases hx with ⟨hk | ⟨he, hc⟩, rfl⟩ | ⟨hk, he, rfl⟩ | ⟨hk, -, -, rfl⟩
  · exact exec_again_of_raise rfl hr (execHmac_open hk)
  · exact exec_again_of_raise rfl hr (execHmac_noCounter (by simp [State.hasError_raise, he]) hc)
  · exact exec_again_of_respond rfl hr (execHmac_invalid hk he)
  rcases pollHmac_cases s.sendRequest with ⟨-, hw⟩ | ⟨r, -, hw⟩ <;> rw [hw] at hr ⊢
  · simp at hr
  have hask : s.sendRequest.answerTaken.responses = s.responses := State.answerTaken_responses s.sendRequest
  rcases takeReply_cases s.sendRequest.answerTaken r with ⟨-, -, ht⟩ | ⟨-, ht⟩ <;> rw [ht] at hr ⊢
  · exact exec_again_of_respond (u := State.setError _ .invalidSecret) hask hr
      (execHmac_invalid (s := State.raise _ .invalidSecret 0#64) (by simpa using hk) (hasError_raise_self ..))
  · exact absurd hst (not_error_of_respond_ok hask hr)

/-- Repetition gives the same error and changes nothing more, except for `CTRNOW`, which takes a new sample, and `B32END`,
which closes the decoder (R249). -/
theorem exec_again_of_error {i : Instr} {s t : State} {st : BitVec 8} {data : Word64} (hnow : i ≠ .ctrnow)
    (hend : i ≠ .b32end) (hx : exec i s = .next t) (hr : t.responses = s.responses ++ [rspWord st data])
    (hst : st ≠ 0x00#8) : exec i t = .next (t.respond st data) := by
  cases i with
  | ctrnow => exact absurd rfl hnow
  | b32end => exact absurd rfl hend
  | nop | srst | erclr | b32clr | ctrset => cases hx; exact absurd hst (not_error_of_respond_ok rfl hr)
  | rdreg n =>
    rcases execRdreg_cases hx with ⟨v, -, rfl⟩ | ⟨hn, rfl⟩
    · exact absurd hst (not_error_of_respond_ok rfl hr)
    · exact exec_again_of_raise rfl hr (execRdreg_reserved ((reg_none_iff s n).mp hn))
  | b32ch c =>
    rcases execB32ch_cases hx with ⟨hk, rfl⟩ | ⟨hk, hv, rfl⟩ | ⟨v, hk, hv, hfull, rfl⟩ | ⟨v, -, -, -, -, -, rfl⟩ |
      ⟨v, -, -, -, -, -, -, rfl⟩
    · exact exec_again_of_raise rfl hr (execB32ch_closed hk)
    · exact exec_again_of_raise rfl hr (execB32ch_invalid hk hv)
    · exact exec_again_of_raise rfl hr (execB32ch_overflow hk hv (.inl (hasError_raise_self ..)))
    · exact absurd hst (not_error_of_respond_ok rfl hr)
    · exact absurd hst (not_error_of_respond_ok rfl hr)
  | keyrd b =>
    rcases execKeyrd_cases hx with ⟨hk, rfl⟩ | ⟨hk, he, rfl⟩ | ⟨-, -, rfl⟩
    · exact exec_again_of_raise rfl hr (execKeyrd_open hk)
    · exact exec_again_of_respond rfl hr (execKeyrd_invalid hk he)
    · exact absurd hst (not_error_of_respond_ok rfl hr)
  | hmac => exact execHmac_again hx hr hst
  | trunc =>
    rcases execTrunc_cases hx with ⟨hd, rfl⟩ | ⟨-, rfl⟩
    · exact exec_again_of_raise rfl hr (execTrunc_noDigest hd)
    · exact absurd hst (not_error_of_respond_ok rfl hr)

/-- A `B32END` that fails finds the decoder closed on repetition: `SequenceError` again, or `SequenceError` after
`InvalidSecret` (R117, R245). -/
theorem execB32end_again {s t : State} {st : BitVec 8} {data : Word64} (hx : execB32end s = .next t)
    (hr : t.responses = s.responses ++ [rspWord st data]) (hst : st ≠ 0x00#8) :
    if st = 0x02#8 then exec .b32end t = .next (t.raise .sequenceError 0#64)
    else exec .b32end t = .next (t.respond st data) := by
  rcases execB32end_cases hx with ⟨hk, rfl⟩ | ⟨-, -, rfl⟩ | ⟨-, -, rfl⟩
  · obtain rfl : 0x05#8 = st := (eq_of_respond_responses (u := s.setError .sequenceError) rfl hr).1
    rw [if_neg (by decide)]
    exact exec_again_of_raise rfl hr (execB32end_closed hk)
  · obtain rfl : 0x02#8 = st :=
      (eq_of_respond_responses (u := s.closeDecoder.wipeKey.setError .invalidSecret) rfl hr).1
    rw [if_pos rfl]
    exact execB32end_closed rfl
  · exact absurd hst (not_error_of_respond_ok rfl hr)

/-- Settles O54: `execB32end_again`, and `exec_again_of_error` for every other command. -/
theorem repeatedErrorIsTheSame : Obligations.RepeatedErrorIsTheSame := by
  unfold Obligations.RepeatedErrorIsTheSame
  intro i s t st data hnow hx hr hst
  by_cases hend : i = .b32end
  · subst hend
    simp only [true_and]
    exact execB32end_again hx hr hst
  · rw [if_neg fun h => hend h.1]
    exact exec_again_of_error hnow hend hx hr hst

end Sys2Proof.Machine

namespace Sys2Proof.Machine

/-! ### Reset and the quiet step (R270, R271) -/

/-- Reset sets every register and ends a wait; the instance and the data of its ports stand (R270, R271). -/
theorem State.hardReset_eq (s : State) : s.hardReset = { State.resetOf s.cfg with
    host := s.host, clock := s.clock, answers := s.answers, draws := s.draws
    requests := s.requests, responses := s.responses } := rfl

/-- After reset no bit of `SR` is set (R38, R270). -/
theorem State.hardReset_sr (s : State) : s.hardReset.sr = 0x00#8 := by
  simp [State.sr, State.kodd]

/-- With nothing presented and no `HMAC` waiting a step changes nothing. -/
theorem step_quiet {s : State} (hw : s.hmacWait = false) (hh : s.host = []) : step s = .next s := by
  simp [step, State.fetch, hh, hw]

/-- Settles O9: `step_reset` holds whether or not an `HMAC` waits, and `step_quiet` is the second part. -/
theorem resetTakesTheResetState : Obligations.ResetTakesTheResetState := by
  unfold Obligations.ResetTakesTheResetState
  refine ⟨fun s rest hh => ⟨s.popHost.hardReset, step_reset hh, ?_, State.hardReset_sr _⟩, fun _ => step_quiet⟩
  rw [State.hardReset_eq, State.popHost_host, hh]
  rfl

end Sys2Proof.Machine
